-- ==== Sys2Proof/Word.lean ====
section
/-!
DEFINITION. The word types of HUFDEC and the shape of an element memory.
-/

namespace Sys2Proof

/-- A host register, a host operation's INDEX or VALUE, a value a host read returns (`REG_W` = 32, R6).
TREE entries (at most 32 bits) and symbols (at most 30 bits) are held zero-extended to it, which is
what a host read returns of them (R83). -/
abbrev Word := BitVec 32

/-- One element of DATA (R37). -/
abbrev Byte := BitVec 8

/-- One of the block's memories (R50): the elements something has written, as (index, element) pairs
with strictly rising indices. An element that is not listed has not been written since its contents
were last lost, and holds a free value (R67; log 4). With `Byte` elements this is a list of `Host.Cell`. -/
abbrev Memory (α : Type) := List (Nat × α)

end Sys2Proof
end

