-- ==== Sys2Proof/Config.lean ====
section
/-!
DEFINITION. What an implementation fixes (the parameters of R6) and the free values: what the spec
leaves unspecified. Every free value is an `opaque` constant without a body, so nothing can be proved
of it but what holds for every choice.
-/

namespace Sys2Proof

/-- The parameters of R6, with the constraints R6 puts on them. They are fixed when the block is built
(R42); the model carries them in `State.params` and no step changes them (log 1). -/
structure Params where
  /-- `SYM_W`, width of a symbol in bits. -/
  symW : Nat
  /-- `TREE_AW`, index width of TREE, NODE and STACK. -/
  treeAW : Nat
  /-- `DATA_AW`, index width of DATA. -/
  dataAW : Nat
  /-- `OUT_AW`, index width of OUT. -/
  outAW : Nat
  /-- The constraint column of R6. -/
  legal : (1 ≤ symW ∧ symW ≤ 30) ∧ (1 ≤ treeAW ∧ treeAW ≤ 31) ∧ dataAW ≤ 28 ∧ outAW ≤ 31
  deriving DecidableEq, Repr

/-- The default column of R6. -/
def Params.default : Params := ⟨21, 12, 16, 16, by decide⟩

/-- `ENTRY_W` = SYM_W + 2 (R6). -/
def Params.entryW (p : Params) : Nat := p.symW + 2

/-- `TREE_MAX` = 2^TREE_AW (R6): entries of TREE, records of NODE, frames of STACK. -/
def Params.treeMax (p : Params) : Nat := 2 ^ p.treeAW

/-- `DATA_MAX` = 2^DATA_AW (R6): bytes of DATA. -/
def Params.dataMax (p : Params) : Nat := 2 ^ p.dataAW

/-- `OUT_MAX` = 2^OUT_AW (R6): symbols of OUT. -/
def Params.outMax (p : Params) : Nat := 2 ^ p.outAW

/-! Unwritten memory (R67, V1; log 4): the first argument says which loss of contents the draw belongs
to, the second is the element's index. Each is cut to the element's width where it is read. -/

/-- An entry of TREE nothing has written. -/
opaque Config.freeTree : Nat → Nat → Word
/-- A byte of DATA nothing has written. -/
opaque Config.freeData : Nat → Nat → Byte
/-- A symbol of OUT nothing has written. -/
opaque Config.freeOut : Nat → Nat → Word
/-- Whether the KIND of a record of NODE nothing has written is INTERNAL. -/
opaque Config.freeNodeInternal : Nat → Nat → Bool
/-- SYM of a record of NODE nothing has written. -/
opaque Config.freeNodeSym : Nat → Nat → Word
/-- LEFT of a record of NODE nothing has written. -/
opaque Config.freeNodeLeft : Nat → Nat → Nat
/-- RIGHT of a record of NODE nothing has written. -/
opaque Config.freeNodeRight : Nat → Nat → Nat
/-- IDX of a frame of STACK nothing has written. -/
opaque Config.freeFrameIdx : Nat → Nat → Nat
/-- Whether STAGE of a frame of STACK nothing has written is 1. -/
opaque Config.freeFrameRight : Nat → Nat → Bool

/-! Values the spec calls unspecified (R147, R166, R190; log 5, 6, 7): the argument is `State.draws`, a
plain counter, so each taking is a fresh draw. -/

/-- What RDOUT returns outside the valid range (R147, V2). -/
opaque Config.freeRead : Nat → Word
/-- POS after an error or a reset (R43, R166). -/
opaque Config.freePos : Nat → Nat
/-- SP after an error or a reset. -/
opaque Config.freeSp : Nat → Nat
/-- CUR after an error or a reset. -/
opaque Config.freeCur : Nat → Nat
/-- BITPOS after an error or a reset. -/
opaque Config.freeBitpos : Nat → Nat
/-- REPCNT after an error or a reset. -/
opaque Config.freeRepcnt : Nat → Nat

end Sys2Proof
end

