-- ==== Sys2Proof/Syntax.lean ====
section
/-!
DEFINITION. The encoded objects HUFDEC decodes (R70), one constructor per row of the opcode table.
-/

namespace Sys2Proof

/-- The three formats of R70. -/
inductive Format where
  /-- A tree entry, ENTRY_W bits (R71). -/
  | entry
  /-- A stream bit, 1 bit (R76). -/
  | bit
  /-- A host operation, the 67-bit record W ++ SPACE ++ INDEX ++ VALUE (R83). -/
  | hostop
  deriving DecidableEq, Repr

/-- The instructions. Every field of an encoding is an operand, the ignored ones (R73, R83) too, so that
an encoding can be written back whole. -/
inductive Instr where
  /-- Tree entry INTERNAL, with its ignored SYM field (R91). -/
  | internal (sym : Word)
  /-- Tree entry LEAF of the symbol `sym` (R92). -/
  | leaf (sym : Word)
  /-- Tree entry ABSENT, with its ignored SYM field (R93). -/
  | absent (sym : Word)
  /-- Tree entry with the reserved tag, with its ignored SYM field (R94). -/
  | rsvd (sym : Word)
  /-- Stream bit 0 (R112). -/
  | left
  /-- Stream bit 1 (R113). -/
  | right
  /-- Read host register `index`; `value` is ignored (R141). -/
  | rdreg (index value : Word)
  /-- Write `value` to host register `index` (R142). -/
  | wrreg (index value : Word)
  /-- The write to CTRL with VALUE[0] = 1; `upper` is the ignored VALUE[31:1] (R143). -/
  | start (upper : BitVec 31)
  /-- Read TREE[index]; `value` is ignored (R145). -/
  | rdtree (index value : Word)
  /-- Write `value` to TREE[index] (R145). -/
  | wrtree (index value : Word)
  /-- Read DATA[index]; `value` is ignored (R146). -/
  | rddata (index value : Word)
  /-- Write `value` to DATA[index] (R146). -/
  | wrdata (index value : Word)
  /-- Read OUT[index]; `value` is ignored (R147). -/
  | rdout (index value : Word)
  /-- The write to the read-only space OUT (R147). -/
  | wrout (index value : Word)
  deriving DecidableEq, Repr

/-- The format an instruction is encoded in. -/
def Instr.format : Instr → Format
  | .internal _ | .leaf _ | .absent _ | .rsvd _ => .entry
  | .left | .right => .bit
  | .rdreg _ _ | .wrreg _ _ | .start _ | .rdtree _ _ | .wrtree _ _ | .rddata _ _ | .wrdata _ _
  | .rdout _ _ | .wrout _ _ => .hostop

end Sys2Proof
end

