-- ==== Sys2Proof/WellFormed.lean ====
section
/-!
DEFINITION. Which terms of `Instr` stand for words of the block: the SYM field of an entry has SYM_W
bits (R71), and the register write that is START (R83) is written `start`, not `wrreg`.
-/

namespace Sys2Proof

/-- Whether a write of `value` to register `index` is the START command (R83: "START is the WRREG with
INDEX = 0 and VALUE[0] = 1"). -/
def isStart (index value : Word) : Bool := index == 0#32 && value.getLsbD 0

/-- Well-formed instructions of a block with the parameters `p`. -/
def Instr.WellFormed (p : Params) : Instr → Bool
  | .internal sym | .leaf sym | .absent sym | .rsvd sym => decide (sym.toNat < 2 ^ p.symW)
  | .wrreg index value => !isStart index value
  | .left | .right | .start _ | .rdreg _ _ | .rdtree _ _ | .wrtree _ _ | .rddata _ _ | .wrdata _ _
  | .rdout _ _ | .wrout _ _ => true

end Sys2Proof
end

