-- ==== Sys2Proof/Decode.lean ====
section
/-!
DEFINITION. From words to instructions and back. A word of each format is a natural number below two
to the format's width, bit 0 its least significant bit (R8). Every such word decodes (R72, R76, R83): the
illegal tag of R84 (a) decodes to RSVD, whose meaning raises MalformedTree. A number too wide for the format is
refused by name (DESIGN CHOICE, safe; log 15).
-/

namespace Sys2Proof

/-- Why a number is no word of a format. -/
inductive Reject where
  /-- The number has a bit at or above the format's width. Safe: no element and no transaction of the
  block can hold such a number, so no step meets it. -/
  | tooWide (f : Format)
  deriving DecidableEq, Repr

/-- The width of a format in bits (R71, R76, R83). -/
def Format.width (p : Params) : Format → Nat
  | .entry => p.entryW
  | .bit => 1
  | .hostop => 67

/-- The low `w` bits of a word, `v[w-1:0]`, zero-extended. -/
def cut (w : Nat) (v : Word) : Word := BitVec.ofNat 32 (v.toNat % 2 ^ w)

/-- The entry whose tag is TAG and whose SYM field is `sym` (R72). -/
def entryOfTag (tag : Nat) (sym : Word) : Instr :=
  match tag with
  | 0 => .internal sym
  | 1 => .leaf sym
  | 2 => .absent sym
  | _ => .rsvd sym

/-- Decoding a tree entry: TAG is `entry[SYM_W+1:SYM_W]`, SYM is `entry[SYM_W-1:0]` (R71, R72). -/
def decodeEntry (p : Params) (e : Nat) : Instr :=
  entryOfTag (e / 2 ^ p.symW) (BitVec.ofNat 32 (e % 2 ^ p.symW))

/-- Decoding a stream bit (R76). -/
def decodeBit (b : Nat) : Instr :=
  match b with
  | 0 => .left
  | _ => .right

/-- The host operation of the three bits `W ++ SPACE` (R83; the table of opcode digits in
95_test_vectors part 3). -/
def hostOpOf (h : Nat) (index value : Word) : Instr :=
  match h with
  | 0 => .rdreg index value
  | 1 => .rdtree index value
  | 2 => .rddata index value
  | 3 => .rdout index value
  | 4 => if isStart index value then .start (value.extractLsb' 1 31) else .wrreg index value
  | 5 => .wrtree index value
  | 6 => .wrdata index value
  | _ => .wrout index value

/-- Decoding a host operation: bits 66:64 are W and SPACE, bits 63:32 INDEX, bits 31:0 VALUE (R83). -/
def decodeHost (w : Nat) : Instr :=
  hostOpOf (w / 2 ^ 64) (BitVec.ofNat 32 (w / 2 ^ 32)) (BitVec.ofNat 32 w)

/-- The decoder: a number read as a word of a format. -/
def decode (p : Params) (f : Format) (w : Nat) : Except Reject Instr :=
  if w < 2 ^ f.width p then
    match f with
    | .entry => .ok (decodeEntry p w)
    | .bit => .ok (decodeBit w)
    | .hostop => .ok (decodeHost w)
  else .error (.tooWide f)

/-- A host operation's word from the bits `W ++ SPACE`, INDEX and VALUE (R83). -/
def hostWord (h : Nat) (index value : Word) : Nat := h * 2 ^ 64 + index.toNat * 2 ^ 32 + value.toNat

/-- A tree entry's word from TAG and SYM (R71). -/
def entryWord (p : Params) (tag : Nat) (sym : Word) : Nat := tag * 2 ^ p.symW + sym.toNat

/-- The encoder: the word of a well-formed instruction (R71, R72, R76, R83). -/
def encode (p : Params) : Instr → Nat
  | .internal sym => entryWord p 0 sym
  | .leaf sym => entryWord p 1 sym
  | .absent sym => entryWord p 2 sym
  | .rsvd sym => entryWord p 3 sym
  | .left => 0
  | .right => 1
  | .rdreg index value => hostWord 0 index value
  | .rdtree index value => hostWord 1 index value
  | .rddata index value => hostWord 2 index value
  | .rdout index value => hostWord 3 index value
  | .wrreg index value => hostWord 4 index value
  | .start upper => hostWord 4 0#32 (upper ++ 1#1)
  | .wrtree index value => hostWord 5 index value
  | .wrdata index value => hostWord 6 index value
  | .wrout index value => hostWord 7 index value

/-- Which format an opcode-table row of `nbits` bits, counted in whole bytes, is written in: a stream
bit fits one byte, an entry (23 bits at the default SYM_W) fits four, a host operation needs nine
(log 15). -/
def formatOfBits (nbits : Nat) : Format :=
  if nbits ≤ 8 then .bit else if nbits ≤ 32 then .entry else .hostop

/-- What the decoder reads from a row of the opcode table with the bits `w` (default parameters, R6). -/
def decodeTableWord (nbits w : Nat) : Option Instr :=
  (decode Params.default (formatOfBits nbits) w).toOption

end Sys2Proof
end

