-- ==== Sys2Proof/Machine/State.lean ====
section
/-!
DEFINITION. The complete state of the block (R20), the model's own fields beside it, the reasons a step
can stop, and the state after reset (R43).
-/

namespace Sys2Proof.Machine

/-- PHASE (R29). The codes 6 and 7 are never produced (V4), so there is no constructor for them. -/
inductive Phase where
  /-- 0: after reset, no run since. -/
  | idle
  /-- 1: rebuilding the tree. -/
  | unpack
  /-- 2: consuming stream bits. -/
  | walk
  /-- 3: single-leaf output (REPEAT). -/
  | repeatLeaf
  /-- 4: run ended, output valid. -/
  | done
  /-- 5: run ended, ERR says why, no output. -/
  | error
  deriving DecidableEq, Repr

/-- ERR (R30, R160). -/
inductive Err where
  /-- 0: no error since the last accepted START or reset. -/
  | none
  /-- 1 (R161). -/
  | malformedTree
  /-- 2 (R162). -/
  | truncatedStream
  /-- 3 (R163). -/
  | capacity
  deriving DecidableEq, Repr

/-- KIND of a NODE record (R39). -/
inductive Kind where
  /-- 0. -/
  | leaf
  /-- 1. -/
  | internal
  deriving DecidableEq, Repr

/-- A NODE record (R39): SYM is meaningful when KIND is LEAF, LEFT and RIGHT when it is INTERNAL. -/
structure NodeRec where
  kind : Kind
  sym : Word
  left : Nat
  right : Nat
  deriving DecidableEq, Repr

/-- STAGE of a STACK frame (R40): which child of the frame's node is being read. -/
inductive Stage where
  /-- 0: its left child. -/
  | left
  /-- 1: its right child. -/
  | right
  deriving DecidableEq, Repr

/-- A STACK frame (R40). -/
structure Frame where
  idx : Nat
  stage : Stage
  deriving DecidableEq, Repr

/-- One step of the world around the engine (R11): the total order of steps is a list of these. -/
inductive Move where
  /-- The engine's turn. -/
  | engine
  /-- One host operation, as the 67-bit record of R83. -/
  | host (op : BitVec 67)
  /-- The RESET input (R190). -/
  | reset
  deriving DecidableEq, Repr

/-- The element memories of the block (R50). -/
inductive Space where
  | tree
  | data
  | out
  | node
  | stack
  deriving DecidableEq, Repr

/-- Why the machine stops. No state that satisfies the invariant of R44 leads to one. -/
inductive Fault where
  /-- Raised by an engine step or an engine instruction that would touch an element outside its space.
  R58 says that no run does so; the spec gives such an access no effect (log 11). Safe. -/
  | outOfSpace (space : Space)
  /-- Raised by an engine instruction executed outside its phase: "Precondition PHASE = UNPACK" (R97),
  "Precondition PHASE = WALK" (R111). No step executes one so (log 12). Safe. -/
  | outOfPhase
  deriving DecidableEq, Repr

/-- Why the model has no meaning for an instruction. -/
inductive Refusal where
  /-- Raised by `exec` for an instruction that has no meaning yet, named by its mnemonic. Every instruction
  has one, so no arm raises it. Safe. -/
  | notModelled (mnemonic : String)
  deriving DecidableEq, Repr

/-- The state. Counters and indices are naturals, as the spec's arithmetic is (R8); their widths are part
of the invariant `State.Inv` (log 9). -/
structure State where
  /-- The block's parameters (R6). The model's own: no step changes them (R42; log 1). -/
  params : Params
  /-- REG[2] TREE_LEN (R23). -/
  treeLen : Word
  /-- REG[3] DATA_BYTES (R24). -/
  dataBytes : Word
  /-- REG[4] DATA_LEN (R25). -/
  dataLen : Word
  /-- REG[5] REPEAT (R26). -/
  repeatReg : Word
  /-- PHASE (R29). -/
  phase : Phase
  /-- ERR (R30). -/
  err : Err
  /-- POS, the next TREE entry to fetch (R31). -/
  pos : Nat
  /-- SP, the number of frames on STACK (R31). -/
  sp : Nat
  /-- CUR, the node the walk is at (R32). -/
  cur : Nat
  /-- BITPOS, the next stream bit to consume (R33). -/
  bitpos : Nat
  /-- REPCNT, the copies written so far (R34). -/
  repcnt : Nat
  /-- OCNT, the symbols written so far (R35). -/
  ocnt : Nat
  /-- TREE (R36): entries of ENTRY_W bits, zero-extended. -/
  tree : Memory Word
  /-- DATA (R37): a list of `Host.Cell`. -/
  data : Memory Byte
  /-- OUT (R38): symbols of SYM_W bits, zero-extended. -/
  out : Memory Word
  /-- NODE (R39). -/
  node : Memory NodeRec
  /-- STACK (R40). -/
  stack : Memory Frame
  /-- The model's own: which draw the unwritten elements of TREE, DATA and OUT are (R67; log 4). -/
  hostStamp : Nat
  /-- The model's own: which draw the unwritten elements of NODE and STACK are (R67; log 4). -/
  workStamp : Nat
  /-- The model's own: how many draws have been taken (log 5). -/
  draws : Nat
  /-- The model's own: the value the last host read returned (R140); none before the first (log 3). -/
  hostRead : Option Word
  /-- The model's own: what happens next, oldest first; when it is empty the engine has every turn
  (R11; log 2). -/
  script : List Move
  deriving DecidableEq, Repr

/-- The state after reset: the values of R43, and for the working registers, which R43 leaves
unspecified, the value 0 (log 8). Parameters: the defaults of R6. -/
def State.reset : State where
  params := Params.default
  treeLen := 0#32
  dataBytes := 0#32
  dataLen := 0#32
  repeatReg := 0#32
  phase := .idle
  err := .none
  pos := 0
  sp := 0
  cur := 0
  bitpos := 0
  repcnt := 0
  ocnt := 0
  tree := []
  data := []
  out := []
  node := []
  stack := []
  hostStamp := 0
  workStamp := 0
  draws := 1
  hostRead := none
  script := []

end Sys2Proof.Machine
end

