-- ==== Sys2Proof/Machine/Flags.lean ====
section
/-!
DEFINITION. The two flags PHASE and ERR (R29, R30): their codes, what "busy" means, and the read-only
registers STATUS and OUT_COUNT that show them.
-/

namespace Sys2Proof.Machine

/-- The code of a phase, STATUS[2:0] (R29). -/
def Phase.code : Phase → BitVec 3
  | .idle => 0
  | .unpack => 1
  | .walk => 2
  | .repeatLeaf => 3
  | .done => 4
  | .error => 5

/-- The code of an error, STATUS[4:3] (R30, R160). -/
def Err.code : Err → BitVec 2
  | .none => 0
  | .malformedTree => 1
  | .truncatedStream => 2
  | .capacity => 3

/-- "Busy" means PHASE is UNPACK, WALK or REPEAT (R29). -/
def State.busy (s : State) : Bool :=
  match s.phase with
  | .unpack | .walk | .repeatLeaf => true
  | .idle | .done | .error => false

/-- STATUS as a host reads it: `zext_32(ERR ++ PHASE)` (R22, R141). -/
def State.status (s : State) : Word := (s.err.code ++ s.phase.code).setWidth 32

/-- OUT_COUNT as a host reads it (R27, R141). -/
def State.outCount (s : State) : Word :=
  if s.phase = .done then BitVec.ofNat 32 s.ocnt else 0#32

end Sys2Proof.Machine
end

