-- ==== Sys2Proof/Machine/Ops.lean ====
section
/-!
DEFINITION. The operations every meaning is built from: reading and writing the memories, entering an
error (`raise`, R166), RESET (R190), appending a symbol (`emit`, R117) and returning a value to the host.
-/

namespace Sys2Proof.Machine

/-- What a step or a meaning answers. -/
abbrev Result := Host.Outcome State Fault Refusal

/-! ### Memories -/

/-- The element listed at index `a`, if something has written it. -/
def Memory.read {α : Type} : Memory α → Nat → Option α
  | [], _ => none
  | (b, v) :: rest, a => if a = b then some v else Memory.read rest a

/-- Writing element `a`, keeping the indices strictly rising. -/
def Memory.write {α : Type} : Memory α → Nat → α → Memory α
  | [], a, v => [(a, v)]
  | (b, w) :: rest, a, v =>
    if a < b then (a, v) :: (b, w) :: rest
    else if a = b then (a, v) :: rest
    else (b, w) :: Memory.write rest a v

/-- The canonical form: the indices strictly rise. (An unlisted element has no value of its own, so no
listed element can equal it.) -/
def Memory.wf {α : Type} : Memory α → Bool
  | [] => true
  | [_] => true
  | (a, _) :: (b, w) :: rest => decide (a < b) && Memory.wf ((b, w) :: rest)

/-- Entry `i` of TREE (R36): what was written, or a free value of ENTRY_W bits (R67). -/
def State.entryAt (s : State) (i : Nat) : Word :=
  cut s.params.entryW ((Memory.read s.tree i).getD (Config.freeTree s.hostStamp i))

/-- Byte `i` of DATA (R37): what was written, or a free value (R67). -/
def State.dataAt (s : State) (i : Nat) : Byte :=
  (Memory.read s.data i).getD (Config.freeData s.hostStamp i)

/-- Symbol `i` of OUT (R38): what was written, or a free value of SYM_W bits (R67). -/
def State.outAt (s : State) (i : Nat) : Word :=
  cut s.params.symW ((Memory.read s.out i).getD (Config.freeOut s.hostStamp i))

/-- A record of NODE nothing has written: a free value for each field, of the field's width (R67). -/
def State.freeNode (s : State) (i : Nat) : NodeRec where
  kind := if Config.freeNodeInternal s.workStamp i then .internal else .leaf
  sym := cut s.params.symW (Config.freeNodeSym s.workStamp i)
  left := Config.freeNodeLeft s.workStamp i % s.params.treeMax
  right := Config.freeNodeRight s.workStamp i % s.params.treeMax

/-- Record `i` of NODE (R39). -/
def State.nodeAt (s : State) (i : Nat) : NodeRec := (Memory.read s.node i).getD (s.freeNode i)

/-- A frame of STACK nothing has written: a free value for each field, of the field's width (R67). -/
def State.freeFrame (s : State) (i : Nat) : Frame where
  idx := Config.freeFrameIdx s.workStamp i % s.params.treeMax
  stage := if Config.freeFrameRight s.workStamp i then .right else .left

/-- Frame `i` of STACK (R40). -/
def State.frameAt (s : State) (i : Nat) : Frame := (Memory.read s.stack i).getD (s.freeFrame i)

/-- `TREE[i] <- e`. -/
def State.setTree (i : Nat) (e : Word) (s : State) : State := { s with tree := Memory.write s.tree i e }

/-- `DATA[i] <- b`. -/
def State.setData (i : Nat) (b : Byte) (s : State) : State := { s with data := Memory.write s.data i b }

/-- `NODE[i] <- r`. -/
def State.setNode (i : Nat) (r : NodeRec) (s : State) : State := { s with node := Memory.write s.node i r }

/-- `STACK[i] <- f`. -/
def State.setFrame (i : Nat) (f : Frame) (s : State) : State := { s with stack := Memory.write s.stack i f }

/-- `OUT[OCNT] <- v; OCNT <- OCNT + 1` (R117). -/
def State.append (v : Word) (s : State) : State :=
  { s with out := Memory.write s.out s.ocnt v, ocnt := s.ocnt + 1 }

/-! ### Errors and reset -/

/-- The working registers, NODE and STACK become unspecified (R166, R190): each takes a free value of its
width (log 6). -/
def State.unspecify (s : State) : State :=
  { s with
    pos := Config.freePos s.draws % 2 ^ (s.params.treeAW + 1)
    sp := Config.freeSp s.draws % 2 ^ (s.params.treeAW + 1)
    cur := Config.freeCur s.draws % 2 ^ s.params.treeAW
    bitpos := Config.freeBitpos s.draws % 2 ^ 32
    repcnt := Config.freeRepcnt s.draws % 2 ^ 32
    node := []
    stack := []
    workStamp := s.draws
    draws := s.draws + 1 }

/-- `raise E` (R166), the entry into phase ERROR. There is no return from it: ERROR is left by an accepted
START (`startRun`) or by RESET (R169). -/
def raise (e : Err) (s : State) : State :=
  { s.unspecify with phase := .error, err := e, ocnt := 0 }

/-- RESET (R190): the registers take the values of R43, everything else becomes unspecified, the contents
of TREE, DATA and OUT too (R67). The host's side (`hostRead`, what is left of `script`) is no part of
the block and stays. -/
def State.resetBlock (s : State) : State :=
  { s.unspecify with
    treeLen := 0#32
    dataBytes := 0#32
    dataLen := 0#32
    repeatReg := 0#32
    phase := .idle
    err := .none
    ocnt := 0
    tree := []
    data := []
    out := []
    hostStamp := s.draws }

/-! ### Shared pieces of the meanings -/

/-- `Emit(v)` followed by `after` (R117): Capacity when OUT is full, and then nothing after it in the step
executes (R166). -/
def emit (v : Word) (after : State → State) (s : State) : Result :=
  if s.ocnt = s.params.outMax then .next (raise .capacity s)
  else if s.ocnt < s.params.outMax then .next (after (s.append v))
  else .fault (.outOfSpace .out)

/-- A host read returns `v` (R140). -/
def State.reply (v : Word) (s : State) : State := { s with hostRead := some v }

/-- A host read returns an unspecified value, a fresh draw (R147, V2). -/
def State.replyFree (s : State) : State :=
  { s with hostRead := some (Config.freeRead s.draws), draws := s.draws + 1 }

/-- The busy write lock (R149): a host write is dropped while busy. -/
def whenFree (write : State → State) (s : State) : State := if s.busy then s else write s

end Sys2Proof.Machine
end

