-- ==== Sys2Proof/Machine/Operands.lean ====
section
/-!
DEFINITION. The operand forms: the host registers by number (R82, R141, R142), the START command (R143),
the bits of the stream (R53) and the context of a tree entry (R97).
-/

namespace Sys2Proof.Machine

/-! ### Host registers -/

/-- `RDREG i` (R141): what a host read of register `i` returns. -/
def State.regRead (s : State) (i : Word) : Word :=
  match i.toNat with
  | 1 => s.status
  | 2 => s.treeLen
  | 3 => s.dataBytes
  | 4 => s.dataLen
  | 5 => s.repeatReg
  | 6 => s.outCount
  | _ => 0#32

/-- `Start()` (R143, R45): ERR and OCNT are cleared, then either Capacity is raised or phase UNPACK
begins. -/
def startRun (s : State) : State :=
  let t := { s with err := .none, ocnt := 0 }
  if s.params.treeMax < s.treeLen.toNat ∨ s.params.dataMax < s.dataBytes.toNat then raise .capacity t
  else { t with pos := 0, sp := 0, phase := .unpack }

/-- `WRREG i, v` when not busy (R142). -/
def regWrite (i v : Word) (s : State) : State :=
  match i.toNat with
  | 0 => if v.getLsbD 0 then startRun s else s
  | 2 => { s with treeLen := v }
  | 3 => { s with dataBytes := v }
  | 4 => { s with dataLen := v }
  | 5 => { s with repeatReg := v }
  | _ => s

/-! ### Stream bits -/

/-- `Bit(k) = DATA[k >> 3][7 - (k mod 8)]` (R53). -/
def State.streamBit (s : State) (k : Nat) : Bool := (s.dataAt (k / 8)).getLsbD (7 - k % 8)

/-! ### Tree entries -/

/-- What an entry stands under (R97). -/
inductive Ctx where
  /-- ROOTCTX: the entry is in the root position. -/
  | root
  /-- The entry is in a child position of a node of this kind. -/
  | under (k : Kind)
  deriving DecidableEq, Repr

/-- The innermost open node's frame, `STACK[SP-1]`. -/
def State.top (s : State) : Frame := s.frameAt (s.sp - 1)

/-- `ctx` of R97. -/
def State.ctx (s : State) : Ctx :=
  if s.sp = 0 then .root else .under (s.nodeAt s.top.idx).kind

/-- The frames the unpacker reads exist: `STACK[SP-1]` and the record it names (R58; log 11). -/
def State.stackInRange (s : State) : Bool :=
  decide (s.sp = 0 ∨ (s.sp ≤ s.params.treeMax ∧ s.top.idx < s.params.treeMax))

end Sys2Proof.Machine
end

