-- ==== Sys2Proof/Machine/HostOps.lean ====
section
/-!
DEFINITION. The host operations (R140 to R149). Reads are allowed in every phase and change no state of the
block; writes are dropped while busy.
-/

namespace Sys2Proof.Machine

/-- RDREG (R141); VALUE is ignored. -/
def execRdreg (index _value : Word) (s : State) : Result := .next (s.reply (s.regRead index))

/-- WRREG (R142), under the busy write lock (R149). -/
def execWrreg (index value : Word) (s : State) : Result := .next (whenFree (regWrite index value) s)

/-- START (R143), under the busy write lock (R144); VALUE[31:1] is ignored. -/
def execStart (_upper : BitVec 31) (s : State) : Result := .next (whenFree startRun s)

/-- RDTREE (R145): the entry zero-extended, 0 out of range (R57). -/
def execRdtree (index _value : Word) (s : State) : Result :=
  .next (s.reply (if index.toNat < s.params.treeMax then s.entryAt index.toNat else 0#32))

/-- WRTREE (R145): `TREE[i] <- v[ENTRY_W-1:0]`, ignored out of range (R57). -/
def execWrtree (index value : Word) (s : State) : Result :=
  .next (whenFree (fun t =>
    if index.toNat < t.params.treeMax then t.setTree index.toNat (cut t.params.entryW value) else t) s)

/-- RDDATA (R146): the byte zero-extended, 0 out of range (R57). -/
def execRddata (index _value : Word) (s : State) : Result :=
  .next (s.reply (if index.toNat < s.params.dataMax then (s.dataAt index.toNat).setWidth 32 else 0#32))

/-- WRDATA (R146): `DATA[i] <- v[7:0]`, ignored out of range (R57). -/
def execWrdata (index value : Word) (s : State) : Result :=
  .next (whenFree (fun t =>
    if index.toNat < t.params.dataMax then t.setData index.toNat (value.setWidth 8) else t) s)

/-- RDOUT (R147): 0 out of range, the symbol in the valid range, else a fresh draw. -/
def execRdout (index _value : Word) (s : State) : Result :=
  .next (
    if s.params.outMax ≤ index.toNat then s.reply 0#32
    else if s.phase = .done ∧ index.toNat < s.ocnt then s.reply (s.outAt index.toNat)
    else s.replyFree)

/-- WROUT (R147): the write to the read-only space OUT is ignored in every phase. -/
def execWrout (_index _value : Word) (s : State) : Result := .next s

end Sys2Proof.Machine
end

