-- ==== Sys2Proof/Machine/Unpack.lean ====
section
/-!
DEFINITION. The tree entries INTERNAL, LEAF, ABSENT and RSVD (R91 to R94), and the helpers `Open`,
`Complete`, `Finish` and `Dispatch` of R97 and R99.
-/

namespace Sys2Proof.Machine

/-- `Dispatch()` (R99): the stream pre-check and the choice of the decode phase. -/
def leaveUnpack (s : State) : State :=
  if 8 * s.dataBytes.toNat < s.dataLen.toNat then raise .truncatedStream s
  else
    match (s.nodeAt 0).kind with
    | .leaf =>
      if s.dataLen = 0#32 then { s with repcnt := 0, phase := .repeatLeaf }
      else raise .truncatedStream s
    | .internal => { s with cur := 0, bitpos := 0, phase := .walk }

/-- `Finish()` (R97): the root is finished; entries left over are MalformedTree. -/
def finishRoot (s : State) : State :=
  if s.pos = s.treeLen.toNat then leaveUnpack s else raise .malformedTree s

/-- The loop of `Complete()` (R97), on the number of frames: a frame whose left position was read goes on
to its right position; a frame both of whose positions were read is popped, which finishes a position
of the frame below. -/
def completeFrames (s : State) : Nat → State
  | 0 => finishRoot { s with sp := 0 }
  | n + 1 =>
    match (s.frameAt n).stage with
    | .left => { s.setFrame n { idx := (s.frameAt n).idx, stage := .right } with sp := n + 1 }
    | .right => completeFrames s n

/-- `Complete()` (R97). -/
def complete (s : State) : State := completeFrames { s with pos := s.pos + 1 } s.sp

/-- The part of `Open` that writes NODE[POS] (R97): KIND and SYM are written, LEFT and RIGHT are not
(log 10). -/
def openRecord (k : Kind) (sym : Word) (s : State) : State :=
  s.setNode s.pos { s.nodeAt s.pos with kind := k, sym := sym }

/-- The innermost open node's record with the link its frame's stage names set to POS (R97). -/
def linkedRecord (s : State) : NodeRec :=
  match s.top.stage with
  | .left => { s.nodeAt s.top.idx with left := s.pos }
  | .right => { s.nodeAt s.top.idx with right := s.pos }

/-- The part of `Open` that links the new node into its parent (R97); a root has none. -/
def linkParent (s : State) : State :=
  if s.sp = 0 then s else s.setNode s.top.idx (linkedRecord s)

/-- The part of `Open` that pushes the new node's frame and advances POS (R97). -/
def pushFrame (s : State) : State :=
  { s.setFrame s.sp { idx := s.pos, stage := .left } with sp := s.sp + 1, pos := s.pos + 1 }

/-- `Open(kind, sym)` (R97), with the range of what it writes (R58; log 11). -/
def openNode (k : Kind) (sym : Word) (s : State) : Result :=
  if s.params.treeMax ≤ s.pos then .fault (.outOfSpace .node)
  else if s.params.treeMax ≤ s.sp then .fault (.outOfSpace .stack)
  else .next (pushFrame (linkParent (openRecord k sym s)))

/-- The preconditions of a tree entry (R97): phase UNPACK (log 12) and the frames it reads (log 11). -/
def inUnpack (s : State) (body : Result) : Result :=
  if s.phase ≠ .unpack then .fault .outOfPhase
  else if s.stackInRange then body
  else .fault (.outOfSpace .stack)

/-- A node marker (R91, R92): MalformedTree in a child position of a leaf, else `Open`. -/
def nodeMarker (k : Kind) (sym : Word) (s : State) : Result :=
  inUnpack s (if s.ctx = .under .leaf then .next (raise .malformedTree s) else openNode k sym s)

/-- INTERNAL (R91). -/
def execInternal (sym : Word) (s : State) : Result := nodeMarker .internal sym s

/-- LEAF (R92). -/
def execLeaf (sym : Word) (s : State) : Result := nodeMarker .leaf sym s

/-- ABSENT (R93): legal only in the child positions of a leaf; SYM is ignored. -/
def execAbsent (_sym : Word) (s : State) : Result :=
  inUnpack s (.next (if s.ctx = .under .leaf then complete s else raise .malformedTree s))

/-- RSVD (R94): MalformedTree, whatever the context; SYM is ignored. -/
def execRsvd (_sym : Word) (s : State) : Result :=
  if s.phase ≠ .unpack then .fault .outOfPhase else .next (raise .malformedTree s)

end Sys2Proof.Machine
end

