-- ==== Sys2Proof/Machine/Walk.lean ====
section
/-!
DEFINITION. The stream bits LEFT and RIGHT (R111 to R114), and the end of the stream (R115, R116).
-/

namespace Sys2Proof.Machine

/-- Arrival at the node `nxt` (R114): a leaf's symbol is emitted and the cursor returns to the root,
otherwise the cursor becomes the node reached. -/
def arrive (nxt : Nat) (s : State) : Result :=
  if nxt < s.params.treeMax then
    match (s.nodeAt nxt).kind with
    | .leaf => emit (s.nodeAt nxt).sym (fun t => { t with cur := 0 }) s
    | .internal => .next { s with cur := nxt }
  else .fault (.outOfSpace .node)

/-- One consumed bit (R111): BITPOS advances by one and the walk moves to the child that `child` takes of
the current node's record. -/
def moveTo (child : NodeRec → Nat) (s : State) : Result :=
  if s.phase ≠ .walk then .fault .outOfPhase
  else if s.params.treeMax ≤ s.cur then .fault (.outOfSpace .node)
  else arrive (child (s.nodeAt s.cur)) { s with bitpos := s.bitpos + 1 }

/-- LEFT (R112): `nxt = NODE[CUR].LEFT`. -/
def execLeft (s : State) : Result := moveTo NodeRec.left s

/-- RIGHT (R113): `nxt = NODE[CUR].RIGHT`. -/
def execRight (s : State) : Result := moveTo NodeRec.right s

/-- The WALK step that finds `BITPOS = DATA_LEN` (R111): normal termination at the root (R115), else
TruncatedStream (R116). -/
def endStream (s : State) : State :=
  if s.cur = 0 then { s with phase := .done } else raise .truncatedStream s

end Sys2Proof.Machine
end

