-- ==== Sys2Proof/Machine/Dispatch.lean ====
section
/-!
DEFINITION. One arm per instruction.
-/

namespace Sys2Proof.Machine

def exec (i : Instr) (s : State) : Host.Outcome State Fault Refusal :=
  match i with
  | .internal sym => Sys2Proof.Machine.execInternal sym s
  | .leaf sym => Sys2Proof.Machine.execLeaf sym s
  | .absent sym => Sys2Proof.Machine.execAbsent sym s
  | .rsvd sym => Sys2Proof.Machine.execRsvd sym s
  | .left => Sys2Proof.Machine.execLeft s
  | .right => Sys2Proof.Machine.execRight s
  | .rdreg index value => Sys2Proof.Machine.execRdreg index value s
  | .wrreg index value => Sys2Proof.Machine.execWrreg index value s
  | .start upper => Sys2Proof.Machine.execStart upper s
  | .rdtree index value => Sys2Proof.Machine.execRdtree index value s
  | .wrtree index value => Sys2Proof.Machine.execWrtree index value s
  | .rddata index value => Sys2Proof.Machine.execRddata index value s
  | .wrdata index value => Sys2Proof.Machine.execWrdata index value s
  | .rdout index value => Sys2Proof.Machine.execRdout index value s
  | .wrout index value => Sys2Proof.Machine.execWrout index value s

end Sys2Proof.Machine
end

