-- ==== Sys2Proof/Machine/RepeatLeaf.lean ====
section
/-!
DEFINITION. The REPEAT engine step (R132). It has no opcode: it is what the engine does in phase REPEAT.
-/

namespace Sys2Proof.Machine

/-- The REPEAT step (R132): DONE when the count is reached, else one more copy of the sole symbol. -/
def repeatStep (s : State) : Result :=
  if s.repcnt = s.repeatReg.toNat then .next { s with phase := .done }
  else emit (s.nodeAt 0).sym (fun t => { t with repcnt := t.repcnt + 1 }) s

end Sys2Proof.Machine
end

