-- ==== Sys2Proof/Machine/Fetch.lean ====
section
/-!
DEFINITION. What the next step is (R11): the move at the head of the script, and for an engine turn the
entry, the bit or the phase end that the phase calls for (R97, R111, R132). Also how an instruction is
placed where the next step fetches it.
-/

namespace Sys2Proof.Machine

/-- What a step fetches: an instruction with the state to run it in, or a step without an instruction. -/
inductive Fetched where
  | run (i : Instr) (s : State)
  | ended (o : Result)

/-- The head of the UNPACK step (R97): MalformedTree when the entries are exhausted, else `TREE[POS]`. -/
def fetchEntry (s : State) : Fetched :=
  if s.treeLen.toNat ≤ s.pos then .ended (.next (raise .malformedTree s))
  else if s.pos < s.params.treeMax then .run (decodeEntry s.params (s.entryAt s.pos).toNat) s
  else .ended (.fault (.outOfSpace .tree))

/-- The head of the WALK step (R111): the end of the stream, else `Bit(BITPOS)`. -/
def fetchBit (s : State) : Fetched :=
  if s.bitpos = s.dataLen.toNat then .ended (.next (endStream s))
  else if s.bitpos / 8 < s.params.dataMax then .run (decodeBit (s.streamBit s.bitpos).toNat) s
  else .ended (.fault (.outOfSpace .data))

/-- An engine turn (R11): the engine has a step exactly when it is busy; otherwise it holds its state
(R12, R177; log 13). -/
def engineTurn (s : State) : Fetched :=
  match s.phase with
  | .unpack => fetchEntry s
  | .walk => fetchBit s
  | .repeatLeaf => .ended (repeatStep s)
  | .idle | .done | .error => .ended (.next s)

/-- The next step of the total order (R11, R61): the first move of the script; with no script the engine
has the turn. -/
def fetch (s : State) : Fetched :=
  match s.script with
  | [] => engineTurn s
  | .engine :: rest => engineTurn { s with script := rest }
  | .host w :: rest => .run (decodeHost w.toNat) { s with script := rest }
  | .reset :: rest => .ended (.next (State.resetBlock { s with script := rest }))

/-! ### Placing an instruction (log 14) -/

/-- A host operation is placed as the first move of the script. -/
def State.placeHost (w : Nat) (s : State) : State :=
  { s with script := .host (BitVec.ofNat 67 w) :: s.script }

/-- Whether the engine's next turn fetches `TREE[POS]`. -/
def State.fetchesEntry (s : State) : Bool :=
  decide (s.phase = .unpack) && decide (s.pos < s.treeLen.toNat) && decide (s.pos < s.params.treeMax)
    && s.stackInRange && decide (s.sp < s.params.treeMax)

/-- The state right after an accepted START of a tree with at least one entry (R143). -/
def State.atUnpack (s : State) : State :=
  { s with
    phase := .unpack, err := .none, ocnt := 0, pos := 0, sp := 0
    treeLen := if s.treeLen = 0#32 then 1#32 else s.treeLen }

/-- A tree entry is placed at `TREE[POS]`, and the engine has the next turn. -/
def State.placeEntry (w : Nat) (s : State) : State :=
  let t := if s.fetchesEntry then s else s.atUnpack
  { t.setTree t.pos (cut t.params.entryW (BitVec.ofNat 32 w)) with script := .engine :: s.script }

/-- Whether the engine's next turn fetches `Bit(BITPOS)` and the walk can move. -/
def State.fetchesBit (s : State) : Bool :=
  decide (s.phase = .walk) && !decide (s.bitpos = s.dataLen.toNat)
    && decide (s.bitpos / 8 < s.params.dataMax) && decide (s.cur < s.params.treeMax)
    && decide ((s.nodeAt s.cur).left < s.params.treeMax)
    && decide ((s.nodeAt s.cur).right < s.params.treeMax) && decide (s.ocnt ≤ s.params.outMax)

/-- The state at the entry into phase WALK (R110) with one bit to consume and the smallest tree that has
a left and a right child: the two-leaf tree of the vector T2 with symbols 0 (R96). The leaves stand at
the indices 1 and 4, cut to the width of an index. -/
def State.atWalk (s : State) : State :=
  { s with
    phase := .walk, err := .none, ocnt := 0, cur := 0, bitpos := 0
    dataBytes := if s.dataBytes = 0#32 then 1#32 else s.dataBytes
    dataLen := if s.dataLen = 0#32 then 1#32 else s.dataLen
    node :=
      [(0, { kind := .internal, sym := 0#32, left := 1, right := 4 % s.params.treeMax }),
       (1, { kind := .leaf, sym := 0#32, left := 0, right := 0 }),
       (4, { kind := .leaf, sym := 0#32, left := 0, right := 0 })] }

/-- A byte with bit `7 - k % 8` replaced by the low bit of `b` (R53). -/
def putBit (k b : Nat) (byte : Byte) : Byte :=
  let m : Byte := 1#8 <<< (7 - k % 8)
  if b % 2 = 1 then byte ||| m else byte &&& ~~~m

/-- A stream bit is placed at `Bit(BITPOS)`, and the engine has the next turn. The other bits of a byte
that nothing has written become 0. -/
def State.placeBit (w : Nat) (s : State) : State :=
  let t := if s.fetchesBit then s else s.atWalk
  let byte := (Memory.read t.data (t.bitpos / 8)).getD 0#8
  { t.setData (t.bitpos / 8) (putBit t.bitpos w byte) with script := .engine :: s.script }

/-- `withFetchWord` of Step.lean. -/
def placeWord (s : State) (nbits w : Nat) : State :=
  match formatOfBits nbits with
  | .entry => s.placeEntry w
  | .bit => s.placeBit w
  | .hostop => s.placeHost w

end Sys2Proof.Machine
end

