-- ==== Sys2Proof/Machine/Step.lean ====
section
/-!
DEFINITION. One step of the total order of steps (R11).
-/

namespace Sys2Proof.Machine

/-- One step: what the script or the engine's phase calls for, and for an instruction its meaning. -/
def step (s : State) : Host.Outcome State Fault Refusal :=
  match fetch s with
  | .run i t => exec i t
  | .ended o => o

/-- The state with the instruction of `nbits` bits `w` placed where the next step fetches it (log 14). -/
def State.withFetchWord (s : State) (nbits w : Nat) : State := placeWord s nbits w

end Sys2Proof.Machine
end

