-- ==== Sys2Proof/Machine/Reference.lean ====
section
/-!
DEFINITION. What the spec says a whole run computes, as functions: the abstract tree (R10), the grammar
(R74), `Parse` (R90), the shape of NODE after a successful unpack (R96, R100), codes (R77), `Walk` (R120)
and `Decode` (R150). No step uses them: statements compare the step machine with them.
-/

namespace Sys2Proof.Machine

/-- The abstract tree (R10). -/
inductive CodeTree where
  | leaf (sym : Word)
  | internal (l r : CodeTree)
  deriving DecidableEq, Repr

/-- `Size` (R96): the number of entries of the tree's serialization. -/
def CodeTree.size : CodeTree → Nat
  | .leaf _ => 3
  | .internal l r => 1 + l.size + r.size

/-- The number of leaves (R75). -/
def CodeTree.leaves : CodeTree → Nat
  | .leaf _ => 1
  | .internal l r => l.leaves + r.leaves

/-- The serialization of a tree by the grammar of R74, with SYM fields that are ignored written as 0. -/
def CodeTree.entries : CodeTree → List Instr
  | .leaf sym => [.leaf sym, .absent 0#32, .absent 0#32]
  | .internal l r => .internal 0#32 :: (l.entries ++ r.entries)

/-- An entry with its SYM field set to 0 where the field is ignored (R73). -/
def plainEntry : Instr → Instr
  | .internal _ => .internal 0#32
  | .absent _ => .absent 0#32
  | .rsvd _ => .rsvd 0#32
  | i => i

/-- The entry `TREE[i]` decoded. -/
def State.entryInstr (s : State) (i : Nat) : Instr := decodeEntry s.params (s.entryAt i).toNat

/-- The serialized tree `TREE[0..TREE_LEN-1]` (R74), ignored SYM fields set to 0. -/
def State.serialized (s : State) : List Instr :=
  (List.range s.treeLen.toNat).map (fun i => plainEntry (s.entryInstr i))

/-- `ParseNode(p)` (R90) over the entries `entry 0`, …, `entry (len - 1)`: the index after the child
position that starts at `p`, and what was there (`none` is NoChild). The outer `none` is MalformedTree.
The first argument bounds the depth of the recursion; `len + 1` is enough, since every level reads one
entry. The NODE table that R90 returns is the one R96 describes, `State.nodesAt`. -/
def parseNode (entry : Nat → Instr) (len : Nat) : Nat → Nat → Option (Nat × Option CodeTree)
  | 0, _ => none
  | fuel + 1, p =>
    if len ≤ p then none
    else
      match entry p with
      | .absent _ => some (p + 1, none)
      | .leaf sym =>
        match parseNode entry len fuel (p + 1) with
        | some (p1, none) =>
          match parseNode entry len fuel p1 with
          | some (p2, none) => some (p2, some (.leaf sym))
          | _ => none
        | _ => none
      | .internal _ =>
        match parseNode entry len fuel (p + 1) with
        | some (p1, some l) =>
          match parseNode entry len fuel p1 with
          | some (p2, some r) => some (p2, some (.internal l r))
          | _ => none
        | _ => none
      | _ => none

/-- `Parse()` (R90) of the block's serialized tree: `none` where it raises MalformedTree. -/
def State.parse (s : State) : Option CodeTree :=
  match parseNode s.entryInstr s.treeLen.toNat (s.treeLen.toNat + 1) 0 with
  | some (p, some t) => if p = s.treeLen.toNat then some t else none
  | _ => none

/-- The records from index `i` on are the table of R96 for the subtree `t` whose marker is entry `i`. -/
def State.nodesAt (s : State) (i : Nat) : CodeTree → Prop
  | .leaf sym => (s.nodeAt i).kind = .leaf ∧ (s.nodeAt i).sym = sym
  | .internal l r =>
    (s.nodeAt i).kind = .internal ∧ (s.nodeAt i).left = i + 1 ∧ (s.nodeAt i).right = i + 1 + l.size
      ∧ s.nodesAt (i + 1) l ∧ s.nodesAt (i + 1 + l.size) r

/-- `TreeOf(i)` is `t` (R100): following the links of NODE from record `i` gives the tree `t`. -/
def State.treeOf (s : State) (i : Nat) : CodeTree → Prop
  | .leaf sym => (s.nodeAt i).kind = .leaf ∧ (s.nodeAt i).sym = sym
  | .internal l r =>
    (s.nodeAt i).kind = .internal ∧ s.treeOf (s.nodeAt i).left l ∧ s.treeOf (s.nodeAt i).right r

/-- The symbol whose code is the given path, where the path leads from the root to its leaf (R77). -/
def CodeTree.symbolOf : CodeTree → List Bool → Option Word
  | .leaf sym, [] => some sym
  | .leaf _, _ :: _ => none
  | .internal _ _, [] => none
  | .internal l r, b :: path => if b then r.symbolOf path else l.symbolOf path

/-- The left (bit 0) or right (bit 1) child of an internal node (R76). -/
def CodeTree.child : CodeTree → Bool → CodeTree
  | .leaf sym, _ => .leaf sym
  | .internal l _, false => l
  | .internal _ r, true => r

/-- `Walk(c, bits)` (R120) in the tree `root`; `home` says that the cursor `c` is the root itself. The
answer is the symbols emitted and whether the bits ended at the root (`Ok`) or not (`Truncated`). -/
def walkFrom (root : CodeTree) : CodeTree → Bool → List Bool → List Word × Bool
  | _, home, [] => ([], home)
  | c, _, b :: rest =>
    match c.child b with
    | .leaf sym => (sym :: (walkFrom root root true rest).1, (walkFrom root root true rest).2)
    | .internal l r => walkFrom root (.internal l r) false rest

/-- The stream `Bit(0), ..., Bit(DATA_LEN - 1)` (R53). -/
def State.bits (s : State) : List Bool := (List.range s.dataLen.toNat).map s.streamBit

/-- The result of a run (R12). -/
inductive RunResult where
  | done (output : List Word)
  | error (e : Err)
  deriving DecidableEq, Repr

/-- `Decode` (R150): the result of the run that a START accepted in `s` begins. -/
def State.decodeRun (s : State) : RunResult :=
  if s.params.treeMax < s.treeLen.toNat ∨ s.params.dataMax < s.dataBytes.toNat then .error .capacity
  else
    match s.parse with
    | none => .error .malformedTree
    | some t =>
      if 8 * s.dataBytes.toNat < s.dataLen.toNat then .error .truncatedStream
      else
        match t with
        | .leaf sym =>
          if s.dataLen ≠ 0#32 then .error .truncatedStream
          else if s.params.outMax < s.repeatReg.toNat then .error .capacity
          else .done (List.replicate s.repeatReg.toNat sym)
        | .internal l r =>
          let w := walkFrom (.internal l r) (.internal l r) true s.bits
          if s.params.outMax < w.1.length then .error .capacity
          else if w.2 then .done w.1
          else .error .truncatedStream

/-- The state shows the result of a run (R12, R150). -/
def State.shows (s : State) : RunResult → Prop
  | .done output =>
    s.phase = .done ∧ s.err = .none ∧ s.ocnt = output.length
      ∧ ∀ (i : Nat) (h : i < output.length), s.outAt i = output[i]
  | .error e => s.phase = .error ∧ s.err = e ∧ s.ocnt = 0

/-- The stream is well formed for the text `codes` spells (R78): the concatenation of the symbols' codes,
in the fewest bytes, the unused low bits of the last byte 0. -/
def State.wellFormedStream (s : State) (codes : List (List Bool)) : Prop :=
  s.bits = codes.flatten ∧ s.dataBytes.toNat = (s.dataLen.toNat + 7) / 8
    ∧ ∀ k, s.dataLen.toNat ≤ k → k < 8 * s.dataBytes.toNat → s.streamBit k = false

end Sys2Proof.Machine
end

