-- ==== Sys2Proof/Safety.lean ====
section
/-!
DEFINITION. The terms statements use: the invariant of R44, the invariant that NODE holds a valid tree,
and what it means that a part of the state is left unchanged (frames). Memories are compared by what is
read from them, element by element.
-/

namespace Sys2Proof.Machine

/-! ### The invariant of R44 -/

/-- The memory is in canonical form, lists no element outside its space, and every element listed fits
its width. -/
def Memory.within {α : Type} (m : Memory α) (size : Nat) (fits : α → Prop) : Prop :=
  Memory.wf m = true ∧ ∀ c ∈ m, c.1 < size ∧ fits c.2

/-- The working registers fit their widths (R31 to R35; R44 (f) for OCNT). -/
def State.registersFit (s : State) : Prop :=
  s.pos < 2 ^ (s.params.treeAW + 1) ∧ s.sp < 2 ^ (s.params.treeAW + 1) ∧ s.cur < s.params.treeMax
    ∧ s.bitpos < 2 ^ 32 ∧ s.repcnt < 2 ^ 32 ∧ s.ocnt ≤ s.params.outMax

/-- The memories have their sizes and element widths (R36 to R40). -/
def State.memoriesFit (s : State) : Prop :=
  Memory.within s.tree s.params.treeMax (fun e => e.toNat < 2 ^ s.params.entryW)
    ∧ Memory.within s.data s.params.dataMax (fun _ => True)
    ∧ Memory.within s.out s.params.outMax (fun v => v.toNat < 2 ^ s.params.symW)
    ∧ Memory.within s.node s.params.treeMax
        (fun r => r.sym.toNat < 2 ^ s.params.symW ∧ r.left < s.params.treeMax ∧ r.right < s.params.treeMax)
    ∧ Memory.within s.stack s.params.treeMax (fun f => f.idx < s.params.treeMax)

/-- What R44 (a), (b), (d), (e) and (f) say of each phase. -/
def State.phaseFits (s : State) : Prop :=
  (s.err ≠ .none ↔ s.phase = .error)
    ∧ (s.phase = .idle ∨ s.phase = .unpack ∨ s.phase = .error → s.ocnt = 0)
    ∧ (s.phase = .unpack →
        s.treeLen.toNat ≤ s.params.treeMax ∧ s.dataBytes.toNat ≤ s.params.dataMax
          ∧ s.pos ≤ s.treeLen.toNat ∧ s.sp ≤ s.pos)
    ∧ (s.phase = .walk →
        (s.nodeAt 0).kind = .internal ∧ (s.nodeAt s.cur).kind = .internal
          ∧ s.bitpos ≤ s.dataLen.toNat ∧ s.dataLen.toNat ≤ 8 * s.dataBytes.toNat
          ∧ s.dataBytes.toNat ≤ s.params.dataMax)
    ∧ (s.phase = .repeatLeaf →
        (s.nodeAt 0).kind = .leaf ∧ s.dataLen = 0#32 ∧ s.repcnt ≤ s.repeatReg.toNat ∧ s.ocnt = s.repcnt)

/-- The invariant: widths (R31 to R40) and R44 but for its clauses (c) and (g). -/
def State.Inv (s : State) : Prop := s.registersFit ∧ s.memoriesFit ∧ s.phaseFits

/-! ### NODE holds a valid tree (R44 (c), R96) -/

/-- The entries from index `i` on spell the tree `t` (R74, R73). -/
def State.spells (s : State) (i : Nat) (t : CodeTree) : Prop :=
  (List.range t.size).map (fun k => plainEntry (s.entryInstr (i + k))) = t.entries

/-- NODE holds the valid tree that the whole serialized tree spells (R96). -/
def State.holdsTree (s : State) (t : CodeTree) : Prop :=
  t.size = s.treeLen.toNat ∧ s.spells 0 t ∧ s.nodesAt 0 t

/-- The open nodes (R97), outermost first, cover the entries from index `i` to POS: each is the node whose
marker stands where the one before it is reading a child, and what it has read is as R96 says. -/
def State.openFrom (s : State) : Nat → List Frame → Prop
  | i, [] => i = s.pos
  | i, f :: rest =>
    f.idx = i ∧
      match (s.nodeAt i).kind with
      | .leaf =>
        rest = [] ∧ s.entryInstr i = .leaf (s.nodeAt i).sym ∧
          match f.stage with
          | .left => s.pos = i + 1
          | .right => s.pos = i + 2 ∧ plainEntry (s.entryInstr (i + 1)) = .absent 0#32
      | .internal =>
        plainEntry (s.entryInstr i) = .internal 0#32 ∧
          match f.stage with
          | .left => (rest ≠ [] → (s.nodeAt i).left = i + 1) ∧ s.openFrom (i + 1) rest
          | .right =>
            ∃ l : CodeTree, (s.nodeAt i).left = i + 1 ∧ s.spells (i + 1) l ∧ s.nodesAt (i + 1) l
              ∧ (rest ≠ [] → (s.nodeAt i).right = i + 1 + l.size) ∧ s.openFrom (i + 1 + l.size) rest

/-- The live frames `STACK[0..SP-1]` (R40). -/
def State.live (s : State) : List Frame := (List.range s.sp).map s.frameAt

/-- In UNPACK the part of the tree read so far is as R97 leaves it; in WALK and REPEAT NODE holds a valid
tree (R44 (c)). -/
def State.TreeInv (s : State) : Prop :=
  (s.phase = .unpack → s.openFrom 0 s.live)
    ∧ (s.phase = .walk ∨ s.phase = .repeatLeaf → ∃ t : CodeTree, s.holdsTree t)

/-! ### Frames -/

/-- The inputs of a run (R86) and the parameters are unchanged. -/
def sameInputs (s t : State) : Prop :=
  t.params = s.params ∧ t.treeLen = s.treeLen ∧ t.dataBytes = s.dataBytes ∧ t.dataLen = s.dataLen
    ∧ t.repeatReg = s.repeatReg ∧ (∀ a, t.entryAt a = s.entryAt a) ∧ (∀ a, t.dataAt a = s.dataAt a)

/-- OUT is unchanged. -/
def sameOut (s t : State) : Prop := ∀ a, t.outAt a = s.outAt a

/-- NODE is unchanged. -/
def sameNodes (s t : State) : Prop := ∀ a, t.nodeAt a = s.nodeAt a

/-- STACK is unchanged. -/
def sameFrames (s t : State) : Prop := ∀ a, t.frameAt a = s.frameAt a

/-- POS and SP are unchanged. -/
def samePointers (s t : State) : Prop := t.pos = s.pos ∧ t.sp = s.sp

/-- CUR, BITPOS and REPCNT are unchanged. -/
def sameCursor (s t : State) : Prop := t.cur = s.cur ∧ t.bitpos = s.bitpos ∧ t.repcnt = s.repcnt

/-- PHASE, ERR and OCNT are unchanged. -/
def sameFlags (s t : State) : Prop := t.phase = s.phase ∧ t.err = s.err ∧ t.ocnt = s.ocnt

/-- The host's side is unchanged: the value last read and what is left of the script. -/
def sameHost (s t : State) : Prop := t.hostRead = s.hostRead ∧ t.script = s.script

/-- The whole block is unchanged: every register, flag and memory of R20. -/
def sameBlock (s t : State) : Prop :=
  sameInputs s t ∧ sameOut s t ∧ sameNodes s t ∧ sameFrames s t ∧ samePointers s t ∧ sameCursor s t
    ∧ sameFlags s t

/-- What `raise e` does (R166): PHASE, ERR and OCNT are set, the inputs and OUT are unchanged, the host's
side too. NODE, STACK and the working registers are unspecified, so nothing is said of them. -/
def raised (e : Err) (s t : State) : Prop :=
  t.phase = .error ∧ t.err = e ∧ t.ocnt = 0 ∧ sameInputs s t ∧ sameOut s t ∧ sameHost s t

/-! ### Steps and runs -/

/-- The engine has the next turn (R11). -/
def State.engineNext (s : State) : Prop := s.script = [] ∨ s.script.head? = some .engine

/-- The state with the first move of its script taken. -/
def State.rest (s : State) : State := { s with script := s.script.tail }

/-- `k` steps one after the other. -/
def steps : Nat → State → Result
  | 0, s => .next s
  | k + 1, s =>
    match step s with
    | .next t => steps k t
    | .fault r => .fault r
    | .refused r => .refused r

/-- `steps k s` is the end of the run that is under way in `s` (R12): the first state that is not busy. -/
def runEnds (k : Nat) (s t : State) : Prop :=
  steps k s = .next t ∧ t.busy = false ∧ ∀ j, j < k → ∃ b, steps j s = .next b ∧ b.busy = true

/-- How many turns of its own the engine takes at most from an accepted START to the end of the run (R198). -/
def State.runBound (s : State) : Nat :=
  (s.treeLen.toNat + 1) + max (s.dataLen.toNat + 1) (s.repeatReg.toNat + 1)

/-- No RESET comes during the run: the script has none, or its first one stands behind as many engine turns as
a run can take. Host operations may stand anywhere (R195). -/
def State.undisturbed (s : State) : Prop :=
  .reset ∉ s.script ∨ s.runBound ≤ (s.script.takeWhile (· ≠ .reset)).count .engine

/-- The next move is START (R143). -/
def State.startNext (s : State) : Prop :=
  ∃ w u, s.script.head? = some (.host w) ∧ decodeHost w.toNat = .start u

/-! ### What `Open` does (R97) -/

/-- The effect of `Open(kind, sym)` and its frame: the record at POS, the parent's link, the new frame, the
two pointers; nothing else changes. -/
def opened (k : Kind) (sym : Word) (s t : State) : Prop :=
  t.pos = s.pos + 1 ∧ t.sp = s.sp + 1
    ∧ (t.nodeAt s.pos).kind = k ∧ (t.nodeAt s.pos).sym = sym
    ∧ t.frameAt s.sp = { idx := s.pos, stage := .left }
    ∧ (0 < s.sp → s.top.stage = .left →
        (t.nodeAt s.top.idx).left = s.pos ∧ (t.nodeAt s.top.idx).right = (s.nodeAt s.top.idx).right)
    ∧ (0 < s.sp → s.top.stage = .right →
        (t.nodeAt s.top.idx).right = s.pos ∧ (t.nodeAt s.top.idx).left = (s.nodeAt s.top.idx).left)
    ∧ (0 < s.sp → s.top.idx ≠ s.pos →
        (t.nodeAt s.top.idx).kind = (s.nodeAt s.top.idx).kind
          ∧ (t.nodeAt s.top.idx).sym = (s.nodeAt s.top.idx).sym)
    ∧ (∀ a, a ≠ s.pos → (0 < s.sp → a ≠ s.top.idx) → t.nodeAt a = s.nodeAt a)
    ∧ (∀ a, a ≠ s.sp → t.frameAt a = s.frameAt a)
    ∧ sameInputs s t ∧ sameOut s t ∧ sameCursor s t ∧ sameFlags s t ∧ sameHost s t

end Sys2Proof.Machine
end

