-- ==== Sys2Proof/Certificates/Slice0/Obligations.lean ====
section
/-!
DEFINITION. The statements for the provers. Each docstring names the rules of spec/ the statement
formalises. Conclusions are the answers of `exec` or `step` themselves; hypotheses are on the state and the
operands alone.
-/

open Sys2Proof Sys2Proof.Machine

/-! ### Encodings -/

/-- R71, R72, R76, R83: decoding the word of a well-formed instruction gives it back, with every operand at
every value, for all parameters. -/
def Obligations.DecodeOfEncodeIsTheInstruction : Prop :=
  ∀ (p : Params) (i : Instr), i.WellFormed p = true → decode p i.format (encode p i) = .ok i

/-- R71, R72, R76, R83: an instruction read from a word is well formed, of the word's format, and encodes
to that word. -/
def Obligations.EncodeOfDecodeIsTheWord : Prop :=
  ∀ (p : Params) (f : Format) (w : Nat) (i : Instr), decode p f w = .ok i →
    i.WellFormed p = true ∧ i.format = f ∧ encode p i = w

/-- R71, R72, R76, R83: every word of a format decodes to an instruction. TAG 11, which R84 (a) calls illegal,
is among them: those entries decode to RSVD with their SYM field.
That a number too wide for the format is refused, by the name tooWide, is the model's choice, log 15. -/
def Obligations.EveryWordOfAFormatDecodes : Prop :=
  ∀ (p : Params) (f : Format) (w : Nat),
    (w < 2 ^ f.width p → ∃ i, decode p f w = .ok i)
      ∧ (w < 2 ^ p.entryW → w / 2 ^ p.symW = 0b11 →
          ∃ sym, sym.toNat = w % 2 ^ p.symW ∧ decode p .entry w = .ok (.rsvd sym))
      ∧ (2 ^ f.width p ≤ w → decode p f w = .error (.tooWide f))

/-- R72: the tag values, the canonical entries at SYM_W = 21, and RSVD raising MalformedTree when the
unpacker fetches it. -/
def Obligations.TagOfAnEntryIsItsKind : Prop :=
  (∀ (p : Params) (sym : Word), sym.toNat < 2 ^ p.symW →
    decode p .entry (0b00 * 2 ^ p.symW + sym.toNat) = .ok (.internal sym)
      ∧ decode p .entry (0b01 * 2 ^ p.symW + sym.toNat) = .ok (.leaf sym)
      ∧ decode p .entry (0b10 * 2 ^ p.symW + sym.toNat) = .ok (.absent sym)
      ∧ decode p .entry (0b11 * 2 ^ p.symW + sym.toNat) = .ok (.rsvd sym))
    ∧ (∀ sym : Word, sym.toNat < 2 ^ 21 →
      encode Params.default (.internal 0#32) = 0x000000
        ∧ encode Params.default (.leaf sym) = 0x200000 + sym.toNat
        ∧ encode Params.default (.absent 0#32) = 0x400000)
    ∧ (∀ s : State, s.phase = .unpack → s.engineNext → s.pos < s.treeLen.toNat → s.pos < s.params.treeMax →
      (s.entryAt s.pos).toNat / 2 ^ s.params.symW = 0b11 →
        ∃ t, step s = .next t ∧ raised .malformedTree s.rest t)

/-- R83: the fields W, SPACE, INDEX and VALUE of a host operation's 67-bit record, and the operation each
pair of W and SPACE names; START is the WRREG with INDEX 0 and VALUE[0] = 1. -/
def Obligations.HostOperationIsReadFromItsFields : Prop :=
  ∀ (p : Params) (index value : Word),
    decode p .hostop (0#1 ++ 0#2 ++ index ++ value).toNat = .ok (.rdreg index value)
      ∧ decode p .hostop (0#1 ++ 1#2 ++ index ++ value).toNat = .ok (.rdtree index value)
      ∧ decode p .hostop (0#1 ++ 2#2 ++ index ++ value).toNat = .ok (.rddata index value)
      ∧ decode p .hostop (0#1 ++ 3#2 ++ index ++ value).toNat = .ok (.rdout index value)
      ∧ decode p .hostop (1#1 ++ 1#2 ++ index ++ value).toNat = .ok (.wrtree index value)
      ∧ decode p .hostop (1#1 ++ 2#2 ++ index ++ value).toNat = .ok (.wrdata index value)
      ∧ decode p .hostop (1#1 ++ 3#2 ++ index ++ value).toNat = .ok (.wrout index value)
      ∧ (¬(index = 0#32 ∧ value.getLsbD 0 = true) →
          decode p .hostop (1#1 ++ 0#2 ++ index ++ value).toNat = .ok (.wrreg index value))
      ∧ (index = 0#32 ∧ value.getLsbD 0 = true →
          ∃ u, decode p .hostop (1#1 ++ 0#2 ++ index ++ value).toNat = .ok (.start u)
            ∧ u ++ 1#1 = value)

/-- Words the spec writes out (95_test_vectors, parts 2.1 and 3; R76) decode to the instructions they
stand for. `decodeTableWord` takes the format from the number of bits, here 24, 8 and 72 for the spec's widths
23, 1 and 67: the model's choice, log 15. -/
def Obligations.WordsOfTheSpecDecode : Prop :=
  decodeTableWord 24 0x000000 = some (.internal 0#32)
    ∧ decodeTableWord 24 0x200061 = some (.leaf 0x61#32)
    ∧ decodeTableWord 24 0x400000 = some (.absent 0#32)
    ∧ decodeTableWord 24 0x600000 = some (.rsvd 0#32)
    ∧ decodeTableWord 8 0 = some .left
    ∧ decodeTableWord 8 1 = some .right
    ∧ decodeTableWord 72 0x00000000100000000 = some (.rdreg 1#32 0#32)
    ∧ decodeTableWord 72 0x4000000020000000B = some (.wrreg 2#32 11#32)
    ∧ decodeTableWord 72 0x40000000000000001 = some (.start 0#31)
    ∧ decodeTableWord 72 0x50000000100200061 = some (.wrtree 1#32 0x200061#32)
    ∧ decodeTableWord 72 0x6000000000000001F = some (.wrdata 0#32 0x1F#32)
    ∧ decodeTableWord 72 0x30000000500000000 = some (.rdout 5#32 0#32)

/-! ### Memory and reset -/

/-- R53: the stream bit, its second form, the stream, and the rule's example. -/
def Obligations.StreamBitsAreMostSignificantFirst : Prop :=
  ∀ s : State,
    (∀ k, k < 8 * s.params.dataMax →
      s.streamBit k = (s.dataAt (k >>> 3)).getLsbD (7 - k % 8)
        ∧ (s.streamBit k).toNat = ((s.dataAt (k >>> 3)).toNat >>> (7 - k % 8)) % 2)
    ∧ s.bits.length = s.dataLen.toNat
    ∧ (∀ k, k < s.dataLen.toNat → s.bits[k]? = some (s.streamBit k))
    ∧ (s.dataAt 0 = 0x1F#8 → s.dataAt 1 = 0x00#8 →
      (List.range 9).map s.streamBit = [false, false, false, true, true, true, true, true, false])

/-- R43: the values the spec gives for reset, every host register reading 0, and nothing written in any
memory. (What the working registers hold is the model's choice, log 8, and is not stated.) -/
def Obligations.ResetLeavesTheSpecifiedValues : Prop :=
  State.reset.phase = .idle ∧ State.reset.err = .none ∧ State.reset.status = 0#32
    ∧ State.reset.treeLen = 0#32 ∧ State.reset.dataBytes = 0#32 ∧ State.reset.dataLen = 0#32
    ∧ State.reset.repeatReg = 0#32 ∧ State.reset.ocnt = 0 ∧ State.reset.outCount = 0#32
    ∧ (∀ i value : Word, ∃ t, exec (.rdreg i value) State.reset = .next t ∧ t.hostRead = some 0#32)
    ∧ State.reset.tree = [] ∧ State.reset.data = [] ∧ State.reset.out = [] ∧ State.reset.node = []
    ∧ State.reset.stack = []

/-- R190: RESET in any phase puts the registers at the values of R43, forgets every memory, and abandons a
run.
The host's side and the parameters stay: the model's choice, log 1, 2, 3, 7. -/
def Obligations.ResetInputAbandonsARun : Prop :=
  ∀ s : State, s.script.head? = some .reset →
    ∃ t, step s = .next t ∧ t.phase = .idle ∧ t.err = .none ∧ t.treeLen = 0#32 ∧ t.dataBytes = 0#32
      ∧ t.dataLen = 0#32 ∧ t.repeatReg = 0#32 ∧ t.ocnt = 0 ∧ t.outCount = 0#32
      ∧ t.tree = [] ∧ t.data = [] ∧ t.out = [] ∧ t.node = [] ∧ t.stack = []
      ∧ t.params = s.params ∧ t.hostRead = s.hostRead ∧ t.script = s.script.tail

/-! ### Steps -/

/-- R11, R83, R97, R111: a step runs the instruction that the record at the head of the script, the entry
at POS or the bit at BITPOS decodes to; it takes the move off the script and does nothing else around it.
That the order of steps is a script is the model's choice, log 2. -/
def Obligations.StepRunsTheDecodedInstruction : Prop :=
  ∀ (s : State) (i : Instr),
    (∀ w, s.script.head? = some (.host w) → decode s.params .hostop w.toNat = .ok i →
      step s = exec i s.rest)
    ∧ (s.engineNext → s.phase = .unpack → s.pos < s.treeLen.toNat → s.pos < s.params.treeMax →
      decode s.params .entry (s.entryAt s.pos).toNat = .ok i → step s = exec i s.rest)
    ∧ (s.engineNext → s.phase = .walk → s.bitpos ≠ s.dataLen.toNat → s.bitpos / 8 < s.params.dataMax →
      decode s.params .bit (s.streamBit s.bitpos).toNat = .ok i → step s = exec i s.rest)

/-- R11, R12, R177: when the block is not busy an engine turn holds the state.
Taking such a turn as a step is the model's choice, log 13. -/
def Obligations.EngineHoldsItsStateWhenNotBusy : Prop :=
  ∀ s : State, s.engineNext → s.busy = false → step s = .next s.rest

/-- R97, R95 (a) and (f): an UNPACK step with POS at or past TREE_LEN raises MalformedTree. -/
def Obligations.UnpackPastTheEntriesIsMalformed : Prop :=
  ∀ s : State, s.engineNext → s.phase = .unpack → s.treeLen.toNat ≤ s.pos →
    ∃ t, step s = .next t ∧ raised .malformedTree s.rest t

/-- R115: the stream ends at the root: DONE, and nothing else changes (the registers of other phases keep
their values: log 10); OUT_COUNT is OCNT, and the host reads the symbols below it. With DATA_LEN = 0 this is
the first WALK step: OCNT is still 0 and OUT_COUNT reads 0. -/
def Obligations.StreamEndingAtTheRootIsDone : Prop :=
  ∀ s : State, s.engineNext → s.phase = .walk → s.bitpos = s.dataLen.toNat → s.cur = 0 →
    ∃ t, step s = .next t ∧ t.phase = .done ∧ t.err = s.err ∧ t.ocnt = s.ocnt
      ∧ sameInputs s t ∧ sameOut s t ∧ sameNodes s t ∧ sameFrames s t ∧ samePointers s t ∧ sameCursor s t
      ∧ sameHost s.rest t
      ∧ (∀ value : Word, ∃ u, exec (.rdreg 6#32 value) t = .next u
          ∧ u.hostRead = some (BitVec.ofNat 32 s.ocnt))
      ∧ (∀ i value : Word, i.toNat < s.ocnt → s.ocnt ≤ s.params.outMax →
          ∃ u, exec (.rdout i value) t = .next u ∧ u.hostRead = some (s.outAt i.toNat))

/-- R116: the stream ends inside a code: TruncatedStream. -/
def Obligations.StreamEndingInsideACodeIsTruncated : Prop :=
  ∀ s : State, s.engineNext → s.phase = .walk → s.bitpos = s.dataLen.toNat → s.cur ≠ 0 →
    ∃ t, step s = .next t ∧ raised .truncatedStream s.rest t

/-- R132, R117: the three cases of the REPEAT step, with what each leaves unchanged.
POS, SP, CUR and BITPOS, unspecified here, are kept: the model's choice, log 10. -/
def Obligations.RepeatStepWritesOneCopy : Prop :=
  ∀ s : State, s.engineNext → s.phase = .repeatLeaf →
    (s.repcnt = s.repeatReg.toNat →
      ∃ t, step s = .next t ∧ t.phase = .done ∧ t.err = s.err ∧ t.ocnt = s.ocnt ∧ sameInputs s t
        ∧ sameOut s t ∧ sameNodes s t ∧ sameFrames s t ∧ samePointers s t ∧ sameCursor s t
        ∧ sameHost s.rest t)
    ∧ (s.repcnt ≠ s.repeatReg.toNat → s.ocnt < s.params.outMax → (s.nodeAt 0).sym.toNat < 2 ^ s.params.symW →
      ∃ t, step s = .next t ∧ t.outAt s.ocnt = (s.nodeAt 0).sym ∧ t.ocnt = s.ocnt + 1
        ∧ t.repcnt = s.repcnt + 1 ∧ t.phase = .repeatLeaf ∧ t.err = s.err ∧ t.cur = s.cur
        ∧ t.bitpos = s.bitpos ∧ (∀ a, a ≠ s.ocnt → t.outAt a = s.outAt a) ∧ sameInputs s t ∧ sameNodes s t
        ∧ sameFrames s t ∧ samePointers s t ∧ sameHost s.rest t)
    ∧ (s.repcnt ≠ s.repeatReg.toNat → s.ocnt = s.params.outMax →
      ∃ t, step s = .next t ∧ raised .capacity s.rest t)

/-! ### Invariants and whole-machine rules -/

/-- The reset state satisfies the invariants of the next two statements.
The working registers of State.reset and its unlisted memories are the model's choice, log 8 and 4. -/
def Obligations.ResetStateSatisfiesTheInvariants : Prop :=
  State.reset.Inv ∧ State.reset.TreeInv

/-- R31 to R40 (widths), R44 (a), (b), (d), (e), (f): every step keeps the invariant.
Counters as naturals with widths in the invariant: the model's choice, log 9;
free values fit their widths, log 6, 7. -/
def Obligations.StepKeepsTheInvariant : Prop :=
  ∀ s t : State, s.Inv → step s = .next t → t.Inv

/-- R44 (c), R96: every step keeps NODE, STACK and POS a faithful reading of the serialized tree; in WALK and
REPEAT NODE holds the valid tree that the whole of it spells. -/
def Obligations.StepKeepsTheTreeValid : Prop :=
  ∀ s t : State, s.Inv → s.TreeInv → step s = .next t → t.TreeInv

/-- R58: from a state that satisfies the invariant no step touches an element outside its space, executes
an instruction outside its phase, or stops in any other way. -/
def Obligations.StepNeverStopsUnderTheInvariant : Prop :=
  ∀ s : State, s.Inv → ∃ t, step s = .next t

/-- R44 (g), R63, R149: while the block is busy no step but RESET changes an input of the run. -/
def Obligations.InputsDoNotChangeWhileBusy : Prop :=
  ∀ s t : State, s.busy = true → s.script.head? ≠ some .reset → step s = .next t → sameInputs s t

/-- R11, R63, R149: while the block is busy no host operation changes anything in it, read or write. -/
def Obligations.HostOperationsLeaveABusyBlockAlone : Prop :=
  ∀ (s : State) (w : BitVec 67), s.busy = true → s.script.head? = some (.host w) →
    ∃ t, step s = .next t ∧ sameBlock s t ∧ t.script = s.script.tail

/-- R166: a step that enters phase ERROR sets ERR to the kind of an error and OCNT to 0, and leaves the
inputs and OUT as they were. -/
def Obligations.EnteringErrorLeavesInputsAndOutput : Prop :=
  ∀ s t : State, step s = .next t → s.phase ≠ .error → t.phase = .error →
    t.err ≠ .none ∧ t.ocnt = 0 ∧ sameInputs s t ∧ sameOut s t

/-- R12, R151, R169: a result, DONE or ERROR, is held until START or RESET. -/
def Obligations.ResultIsHeldUntilStartOrReset : Prop :=
  ∀ s t : State, s.phase = .done ∨ s.phase = .error → step s = .next t →
    s.script.head? ≠ some .reset → ¬s.startNext → sameFlags s t ∧ sameOut s t

/-- R42: no step changes the parameters.
That the state carries them is the model's choice, log 1. -/
def Obligations.StepKeepsTheParameters : Prop :=
  ∀ s t : State, step s = .next t → t.params = s.params

/-! ### Tree entries -/

/-- R91, R92, R97: INTERNAL and LEAF open a node: the record at POS, the link in the parent, the frame, the
two pointers, and nothing else.
CUR, BITPOS and REPCNT, unspecified here, are kept: the model's choice, log 10. -/
def Obligations.NodeMarkersOpenANode : Prop :=
  ∀ (s : State) (sym : Word), s.phase = .unpack → s.stackInRange = true → s.ctx ≠ .under .leaf →
    s.pos < s.params.treeMax → s.sp < s.params.treeMax →
    (∃ t, exec (.internal sym) s = .next t ∧ opened .internal sym s t)
      ∧ ∃ t, exec (.leaf sym) s = .next t ∧ opened .leaf sym s t

/-- R91, R92, R95 (e): INTERNAL and LEAF in a child position of a leaf raise MalformedTree. -/
def Obligations.NodeMarkersUnderALeafAreMalformed : Prop :=
  ∀ (s : State) (sym : Word), s.phase = .unpack → s.stackInRange = true → s.ctx = .under .leaf →
    (∃ t, exec (.internal sym) s = .next t ∧ raised .malformedTree s t)
      ∧ ∃ t, exec (.leaf sym) s = .next t ∧ raised .malformedTree s t

/-- R93, R97: ABSENT under a leaf finishes the position; the frames above frame `m` have read both their
positions and are popped, and frame `m` goes on to its right position.
CUR, BITPOS and REPCNT, unspecified here, are kept: the model's choice, log 10. -/
def Obligations.AbsentFinishesPositions : Prop :=
  ∀ (s : State) (sym : Word) (m : Nat), s.phase = .unpack → s.stackInRange = true → s.ctx = .under .leaf →
    m < s.sp → (s.frameAt m).stage = .left → (∀ k, m < k → k < s.sp → (s.frameAt k).stage = .right) →
    ∃ t, exec (.absent sym) s = .next t ∧ t.pos = s.pos + 1 ∧ t.sp = m + 1
      ∧ t.frameAt m = { idx := (s.frameAt m).idx, stage := .right }
      ∧ (∀ a, a ≠ m → t.frameAt a = s.frameAt a) ∧ sameNodes s t ∧ sameInputs s t ∧ sameOut s t
      ∧ sameCursor s t ∧ sameFlags s t ∧ sameHost s t

/-- R93, R97, R99: the ABSENT that finishes the root: entries left over are MalformedTree; otherwise
`Dispatch` checks the stream and enters REPEAT or WALK.
Registers outside their phase are kept: the model's choice, log 10. -/
def Obligations.AbsentFinishingTheRootDispatches : Prop :=
  ∀ (s : State) (sym : Word), s.phase = .unpack → s.stackInRange = true → s.ctx = .under .leaf →
    (∀ k, k < s.sp → (s.frameAt k).stage = .right) →
    ∃ t, exec (.absent sym) s = .next t ∧ sameInputs s t ∧ sameOut s t ∧ sameHost s t ∧
      if s.pos + 1 ≠ s.treeLen.toNat then raised .malformedTree s t
      else if 8 * s.dataBytes.toNat < s.dataLen.toNat then raised .truncatedStream s t
      else if (s.nodeAt 0).kind = .leaf ∧ s.dataLen ≠ 0#32 then raised .truncatedStream s t
      else
        t.pos = s.pos + 1 ∧ t.sp = 0 ∧ t.err = s.err ∧ t.ocnt = s.ocnt ∧ sameNodes s t ∧ sameFrames s t
          ∧ if (s.nodeAt 0).kind = .leaf then
              t.phase = .repeatLeaf ∧ t.repcnt = 0 ∧ t.cur = s.cur ∧ t.bitpos = s.bitpos
            else t.phase = .walk ∧ t.cur = 0 ∧ t.bitpos = 0 ∧ t.repcnt = s.repcnt

/-- R93, R95 (b) and (d): ABSENT anywhere but under a leaf raises MalformedTree. -/
def Obligations.AbsentOutsideALeafIsMalformed : Prop :=
  ∀ (s : State) (sym : Word), s.phase = .unpack → s.stackInRange = true → s.ctx ≠ .under .leaf →
    ∃ t, exec (.absent sym) s = .next t ∧ raised .malformedTree s t

/-- R94: RSVD raises MalformedTree, whatever the context. -/
def Obligations.ReservedTagIsMalformed : Prop :=
  ∀ (s : State) (sym : Word), s.phase = .unpack →
    ∃ t, exec (.rsvd sym) s = .next t ∧ raised .malformedTree s t

/-! ### Stream bits -/

/-- R112, R113, R114: a bit whose child is an internal node moves the cursor there and consumes the bit;
nothing else changes.
POS, SP and REPCNT, unspecified here, are kept: the model's choice, log 10. -/
def Obligations.BitsMoveToAnInternalChild : Prop :=
  ∀ (s : State) (i : Instr) (nxt : Nat), s.phase = .walk → s.cur < s.params.treeMax →
    i = .left ∧ nxt = (s.nodeAt s.cur).left ∨ i = .right ∧ nxt = (s.nodeAt s.cur).right →
    nxt < s.params.treeMax → (s.nodeAt nxt).kind = .internal →
    ∃ t, exec i s = .next t ∧ t.cur = nxt ∧ t.bitpos = s.bitpos + 1 ∧ t.repcnt = s.repcnt ∧ sameInputs s t
      ∧ sameOut s t ∧ sameNodes s t ∧ sameFrames s t ∧ samePointers s t ∧ sameFlags s t ∧ sameHost s t

/-- R112, R113, R114, R117: a bit whose child is a leaf appends the leaf's symbol to OUT and returns the
cursor to the root; nothing else changes.
POS, SP and REPCNT, unspecified here, are kept: the model's choice, log 10. -/
def Obligations.BitsEmitALeafChild : Prop :=
  ∀ (s : State) (i : Instr) (nxt : Nat), s.phase = .walk → s.cur < s.params.treeMax →
    i = .left ∧ nxt = (s.nodeAt s.cur).left ∨ i = .right ∧ nxt = (s.nodeAt s.cur).right →
    nxt < s.params.treeMax → (s.nodeAt nxt).kind = .leaf → (s.nodeAt nxt).sym.toNat < 2 ^ s.params.symW →
    s.ocnt < s.params.outMax →
    ∃ t, exec i s = .next t ∧ t.outAt s.ocnt = (s.nodeAt nxt).sym ∧ t.ocnt = s.ocnt + 1 ∧ t.cur = 0
      ∧ t.bitpos = s.bitpos + 1 ∧ t.repcnt = s.repcnt ∧ t.phase = s.phase ∧ t.err = s.err
      ∧ (∀ a, a ≠ s.ocnt → t.outAt a = s.outAt a) ∧ sameInputs s t ∧ sameNodes s t ∧ sameFrames s t
      ∧ samePointers s t ∧ sameHost s t

/-- R117, R163 (b): emitting into a full OUT raises Capacity, and OUT is unchanged. -/
def Obligations.EmittingIntoAFullOutIsCapacity : Prop :=
  ∀ (s : State) (i : Instr) (nxt : Nat), s.phase = .walk → s.cur < s.params.treeMax →
    i = .left ∧ nxt = (s.nodeAt s.cur).left ∨ i = .right ∧ nxt = (s.nodeAt s.cur).right →
    nxt < s.params.treeMax → (s.nodeAt nxt).kind = .leaf → s.ocnt = s.params.outMax →
    ∃ t, exec i s = .next t ∧ raised .capacity s t

/-- R79, R119: the bits of DATA at and above DATA_LEN have no effect on a WALK step: with any other DATA
whose bits below DATA_LEN are the same, the step answers the same but for DATA itself. -/
def Obligations.PadBitsDoNotAffectTheWalk : Prop :=
  ∀ (s t : State) (d : Memory Byte), s.engineNext → s.phase = .walk → s.bitpos ≤ s.dataLen.toNat →
    (∀ k, k < s.dataLen.toNat → ({ s with data := d } : State).streamBit k = s.streamBit k) →
    step s = .next t → step { s with data := d } = .next { t with data := d }

/-! ### Host operations -/

/-- R141, R56: RDREG returns the register, STATUS as `zext_32(ERR ++ PHASE)`, OUT_COUNT as OCNT in phase
DONE and 0 otherwise, 0 for CTRL, the reserved index and every index out of range; the block is
unchanged. -/
def Obligations.RdregReturnsTheRegister : Prop :=
  ∀ (s : State) (i value : Word),
    ∃ t, exec (.rdreg i value) s = .next t ∧ sameBlock s t ∧ t.script = s.script ∧
      t.hostRead = some (
        if i = 1#32 then BitVec.ofNat 32 (s.phase.code.toNat + 8 * s.err.code.toNat)
        else if i = 2#32 then s.treeLen
        else if i = 3#32 then s.dataBytes
        else if i = 4#32 then s.dataLen
        else if i = 5#32 then s.repeatReg
        else if i = 6#32 then (if s.phase = .done then BitVec.ofNat 32 s.ocnt else 0#32)
        else 0#32)

/-- R81, R22: the possible values of STATUS, and the phase or the error that each of the eight says. -/
def Obligations.StatusIsOneOfTheListedWords : Prop :=
  ∀ s : State, s.Inv →
    s.status ∈ [0x00#32, 0x01#32, 0x02#32, 0x03#32, 0x04#32, 0x0D#32, 0x15#32, 0x1D#32]
      ∧ (s.phase = .idle ↔ s.status = 0x00#32)
      ∧ (s.phase = .unpack ↔ s.status = 0x01#32)
      ∧ (s.phase = .walk ↔ s.status = 0x02#32)
      ∧ (s.phase = .repeatLeaf ↔ s.status = 0x03#32)
      ∧ (s.phase = .done ↔ s.status = 0x04#32)
      ∧ (s.phase = .error ↔ s.status ∈ [0x0D#32, 0x15#32, 0x1D#32])
      ∧ (s.err = .malformedTree ↔ s.status = 0x0D#32)
      ∧ (s.err = .truncatedStream ↔ s.status = 0x15#32)
      ∧ (s.err = .capacity ↔ s.status = 0x1D#32)

/-- R142, R149: while busy a register write is dropped; one that is not dropped stores the value in
TREE_LEN, DATA_BYTES, DATA_LEN or REPEAT and changes nothing else; at every other index, and at
CTRL with bit 0 clear, it changes nothing;
at CTRL with bit 0 set it is START. -/
def Obligations.WrregStoresTheRegister : Prop :=
  ∀ (s : State) (i v : Word),
    (s.busy = true → exec (.wrreg i v) s = .next s)
    ∧ (s.busy = false → ¬(i = 0#32 ∧ v.getLsbD 0 = true) →
      ∃ t, exec (.wrreg i v) s = .next t
        ∧ t.treeLen = (if i = 2#32 then v else s.treeLen)
        ∧ t.dataBytes = (if i = 3#32 then v else s.dataBytes)
        ∧ t.dataLen = (if i = 4#32 then v else s.dataLen)
        ∧ t.repeatReg = (if i = 5#32 then v else s.repeatReg)
        ∧ t.params = s.params ∧ (∀ a, t.entryAt a = s.entryAt a) ∧ (∀ a, t.dataAt a = s.dataAt a)
        ∧ sameOut s t ∧ sameNodes s t ∧ sameFrames s t ∧ samePointers s t ∧ sameCursor s t ∧ sameFlags s t
        ∧ sameHost s t)
    ∧ (s.busy = false → i = 0#32 ∧ v.getLsbD 0 = true → ∀ u, exec (.wrreg i v) s = exec (.start u) s)

/-- R143, R45: an accepted START clears ERR and OCNT and enters UNPACK with POS and SP 0, or raises Capacity
when the declared tree or byte sequence cannot be in the memories; nothing else changes.
CUR, BITPOS and REPCNT, unspecified here, are kept: the model's choice, log 10. -/
def Obligations.StartBeginsARun : Prop :=
  ∀ (s : State) (u : BitVec 31), s.busy = false →
    ∃ t, exec (.start u) s = .next t ∧
      if s.params.treeMax < s.treeLen.toNat ∨ s.params.dataMax < s.dataBytes.toNat then
        raised .capacity s t ∧ t.status = 0x1D#32
      else
        t.phase = .unpack ∧ t.err = .none ∧ t.ocnt = 0 ∧ t.pos = 0 ∧ t.sp = 0 ∧ sameInputs s t
          ∧ sameOut s t ∧ sameNodes s t ∧ sameFrames s t ∧ sameCursor s t ∧ sameHost s t

/-- R149, R144: while busy every host write is dropped, START too: the state does not change. Reads are
not dropped: each returns what its rule says (R141, R145, R146; RDOUT a value, R147). -/
def Obligations.WritesAreDroppedWhileBusy : Prop :=
  ∀ (s : State) (i v : Word) (u : BitVec 31), s.busy = true →
    exec (.wrreg i v) s = .next s ∧ exec (.start u) s = .next s ∧ exec (.wrtree i v) s = .next s
      ∧ exec (.wrdata i v) s = .next s ∧ exec (.wrout i v) s = .next s
      ∧ (∃ t, exec (.rdreg i v) s = .next t ∧ t.hostRead = some (s.regRead i))
      ∧ (∃ t, exec (.rdtree i v) s = .next t
          ∧ t.hostRead = some (if i.toNat < s.params.treeMax then s.entryAt i.toNat else 0#32))
      ∧ (∃ t, exec (.rddata i v) s = .next t
          ∧ t.hostRead = some (if i.toNat < s.params.dataMax then (s.dataAt i.toNat).setWidth 32 else 0#32))
      ∧ ∃ t r, exec (.rdout i v) s = .next t ∧ t.hostRead = some r

/-- R145, R56, R57: RDTREE returns the entry (0 out of range) and changes nothing in the block; WRTREE,
not busy and in range, stores the low ENTRY_W bits at that index and changes nothing else. -/
def Obligations.TreeIsReadAndWrittenByTheHost : Prop :=
  ∀ (s : State) (i v : Word),
    (∃ t, exec (.rdtree i v) s = .next t ∧ sameBlock s t ∧ t.script = s.script
      ∧ t.hostRead = some (if i.toNat < s.params.treeMax then s.entryAt i.toNat else 0#32))
    ∧ (s.busy = false → i.toNat < s.params.treeMax →
      ∃ t, exec (.wrtree i v) s = .next t
        ∧ (t.entryAt i.toNat).toNat = v.toNat % 2 ^ s.params.entryW
        ∧ (∀ a, a ≠ i.toNat → t.entryAt a = s.entryAt a)
        ∧ t.params = s.params ∧ t.treeLen = s.treeLen ∧ t.dataBytes = s.dataBytes ∧ t.dataLen = s.dataLen
        ∧ t.repeatReg = s.repeatReg ∧ (∀ a, t.dataAt a = s.dataAt a)
        ∧ sameOut s t ∧ sameNodes s t ∧ sameFrames s t ∧ samePointers s t ∧ sameCursor s t ∧ sameFlags s t
        ∧ sameHost s t)

/-- R146, R56, R57: RDDATA returns the byte zero-extended (0 out of range) and changes nothing in the block;
WRDATA, not busy and in range, stores the low 8 bits at that index and changes nothing else. -/
def Obligations.DataIsReadAndWrittenByTheHost : Prop :=
  ∀ (s : State) (i v : Word),
    (∃ t, exec (.rddata i v) s = .next t ∧ sameBlock s t ∧ t.script = s.script
      ∧ t.hostRead = some (if i.toNat < s.params.dataMax then (s.dataAt i.toNat).setWidth 32 else 0#32))
    ∧ (s.busy = false → i.toNat < s.params.dataMax →
      ∃ t, exec (.wrdata i v) s = .next t
        ∧ (t.dataAt i.toNat).toNat = v.toNat % 256
        ∧ (∀ a, a ≠ i.toNat → t.dataAt a = s.dataAt a)
        ∧ t.params = s.params ∧ t.treeLen = s.treeLen ∧ t.dataBytes = s.dataBytes ∧ t.dataLen = s.dataLen
        ∧ t.repeatReg = s.repeatReg ∧ (∀ a, t.entryAt a = s.entryAt a)
        ∧ sameOut s t ∧ sameNodes s t ∧ sameFrames s t ∧ samePointers s t ∧ sameCursor s t ∧ sameFlags s t
        ∧ sameHost s t)

/-- R147, R167: RDOUT returns 0 out of range, the stored symbol in the valid range, and a draw (the free value
of the draw counter, whatever it is) elsewhere; the block is unchanged. The write to OUT is ignored in
every phase.
That the draw is taken from a counter is the model's choice, log 5. -/
def Obligations.OutIsReadOnlyInTheValidRange : Prop :=
  ∀ (s : State) (i v : Word),
    (∃ t, exec (.rdout i v) s = .next t ∧ sameBlock s t ∧ t.script = s.script
      ∧ t.hostRead = some (
          if s.params.outMax ≤ i.toNat then 0#32
          else if s.phase = .done ∧ i.toNat < s.ocnt then s.outAt i.toNat
          else Config.freeRead s.draws))
    ∧ exec (.wrout i v) s = .next s

/-- R57: a host operation whose index is not below the size of its space: a read returns 0, a write is
ignored; nothing in the block changes. -/
def Obligations.OutOfRangeIndexHasNoEffect : Prop :=
  ∀ (s : State) (i v : Word),
    (8 ≤ i.toNat →
      (∃ t, exec (.rdreg i v) s = .next t ∧ sameBlock s t ∧ t.hostRead = some 0#32)
        ∧ exec (.wrreg i v) s = .next s)
    ∧ (s.params.treeMax ≤ i.toNat →
      (∃ t, exec (.rdtree i v) s = .next t ∧ sameBlock s t ∧ t.hostRead = some 0#32)
        ∧ exec (.wrtree i v) s = .next s)
    ∧ (s.params.dataMax ≤ i.toNat →
      (∃ t, exec (.rddata i v) s = .next t ∧ sameBlock s t ∧ t.hostRead = some 0#32)
        ∧ exec (.wrdata i v) s = .next s)
    ∧ (s.params.outMax ≤ i.toNat →
      (∃ t, exec (.rdout i v) s = .next t ∧ sameBlock s t ∧ t.hostRead = some 0#32)
        ∧ exec (.wrout i v) s = .next s)

/-- R192: a START with TREE_LEN = 0, as directly after reset, begins a run whose first UNPACK step raises
MalformedTree; STATUS then reads 0x0000000D. -/
def Obligations.StartWithNothingLoadedIsMalformed : Prop :=
  ∀ (s : State) (u : BitVec 31), s.busy = false → s.treeLen = 0#32 →
    s.dataBytes.toNat ≤ s.params.dataMax → s.engineNext →
    ∃ a t, exec (.start u) s = .next a ∧ a.phase = .unpack ∧ step a = .next t
      ∧ t.err = .malformedTree ∧ t.status = 0x0000000D#32

/-! ### The reference functions -/

/-- R75: a tree with k leaves has k - 1 internal nodes and 4k - 1 entries, so the length is 3 modulo 4 and
4096 entries hold 1024 leaves; a length of that form does not make a sequence well formed. -/
def Obligations.SizeOfASerializedTree : Prop :=
  (∀ t : CodeTree, t.entries.length = t.size ∧ t.size = 4 * t.leaves - 1 ∧ 1 ≤ t.leaves
    ∧ t.entries.countP (· == .internal 0#32) = t.leaves - 1 ∧ t.size % 4 = 3
    ∧ (t.size ≤ 4096 ↔ t.leaves ≤ 1024))
    ∧ ¬∃ t : CodeTree, t.entries = [.absent 0#32, .absent 0#32, .absent 0#32]

/-- R90, R74: `Parse` accepts exactly the sequences of the grammar, and gives the tree they denote. -/
def Obligations.ParseAcceptsExactlyTheGrammar : Prop :=
  ∀ (s : State) (t : CodeTree), s.parse = some t ↔ s.serialized = t.entries

/-- R100: the table of R96 has the tree it was made from as its abstract tree, and a table has at most one. -/
def Obligations.NodeTableHasOneTree : Prop :=
  ∀ (s : State) (i : Nat) (t t' : CodeTree), (s.nodesAt i t → s.treeOf i t)
    ∧ (s.treeOf i t → s.treeOf i t' → t = t')

/-- R77: codes are prefix-free, and in a tree of k leaves whose root is internal a code has 1 to k - 1
bits. -/
def Obligations.CodesArePrefixFree : Prop :=
  ∀ (t : CodeTree) (p q : List Bool) (v w : Word), t.symbolOf p = some v →
    (t.symbolOf (p ++ q) = some w → q = [] ∧ v = w)
      ∧ p.length ≤ t.leaves - 1 ∧ ((∃ l r, t = .internal l r) → 1 ≤ p.length)

/-! ### Whole phases and whole runs -/

/-- R150 ("The result depends on nothing else"), R194, R79, R193 (e), R73: two runs of the machine from equal
inputs end with the same result. The inputs are the four registers, the entries below TREE_LEN (their ignored
SYM fields aside) and the stream bits below DATA_LEN; everything else may differ: other entries and bits, OUT,
NODE, the results of earlier runs, and which host operations come during the run.
That the order of steps is a script is the model's choice, log 2; the parameters as a field are log 1. -/
def Obligations.ResultDependsOnlyOnTheInputs : Prop :=
  ∀ (s s' : State) (u u' : BitVec 31),
    s.Inv → s'.Inv → s.busy = false → s'.busy = false → s.undisturbed → s'.undisturbed →
    s'.params = s.params → s'.treeLen = s.treeLen → s'.dataBytes = s.dataBytes → s'.dataLen = s.dataLen →
    s'.repeatReg = s.repeatReg →
    (∀ i, i < s.treeLen.toNat → i < s.params.treeMax →
      plainEntry (s'.entryInstr i) = plainEntry (s.entryInstr i)) →
    (∀ k, k < s.dataLen.toNat → k < 8 * s.params.dataMax → s'.streamBit k = s.streamBit k) →
    ∃ a k t a' k' t', exec (.start u) s = .next a ∧ runEnds k a t
      ∧ exec (.start u') s' = .next a' ∧ runEnds k' a' t'
      ∧ t'.phase = t.phase ∧ t'.err = t.err ∧ t'.ocnt = t.ocnt
      ∧ ∀ i, i < t.ocnt → t'.outAt i = t.outAt i

/-- R98, R97, R90: the UNPACK phase agrees with `Parse`: it raises MalformedTree within TREE_LEN + 1 steps if
`Parse` does; otherwise after exactly TREE_LEN steps it has left UNPACK by `Dispatch`, and NODE holds the
tree in the phase that follows.
The empty script (engine turns only) is the model's, log 2. -/
def Obligations.UnpackAgreesWithParse : Prop :=
  ∀ s : State, s.Inv → s.phase = .unpack → s.pos = 0 → s.sp = 0 → s.script = [] →
    (s.parse = none →
      ∃ k t, k ≤ s.treeLen.toNat + 1 ∧ steps k s = .next t ∧ raised .malformedTree s t)
    ∧ (∀ tree, s.parse = some tree →
      ∃ t, steps s.treeLen.toNat s = .next t ∧ sameInputs s t ∧
        if 8 * s.dataBytes.toNat < s.dataLen.toNat then raised .truncatedStream s t
        else
          match tree with
          | .leaf _ =>
            if s.dataLen = 0#32 then t.phase = .repeatLeaf ∧ t.repcnt = 0 ∧ t.ocnt = 0 ∧ t.nodesAt 0 tree
            else raised .truncatedStream s t
          | .internal _ _ => t.phase = .walk ∧ t.cur = 0 ∧ t.bitpos = 0 ∧ t.ocnt = 0 ∧ t.nodesAt 0 tree)

/-- R120, R110, R111: the WALK phase computes `Walk` of the tree and the stream.
The empty script (engine turns only) is the model's, log 2. -/
def Obligations.WalkPhaseComputesWalk : Prop :=
  ∀ (s : State) (l r : CodeTree), s.Inv → s.phase = .walk → s.cur = 0 → s.bitpos = 0 → s.ocnt = 0 →
    s.script = [] → s.nodesAt 0 (.internal l r) →
    let w := walkFrom (.internal l r) (.internal l r) true s.bits
    (s.params.outMax < w.1.length →
      ∃ k t, k ≤ s.dataLen.toNat ∧ steps k s = .next t ∧ t.shows (.error .capacity) ∧ sameInputs s t)
    ∧ (w.1.length ≤ s.params.outMax →
      ∃ t, steps (s.dataLen.toNat + 1) s = .next t ∧ sameInputs s t
        ∧ t.shows (if w.2 then .done w.1 else .error .truncatedStream))

/-- R132: the REPEAT phase ends DONE after REPEAT + 1 steps with that many copies of the sole symbol, or
raises Capacity at step OUT_MAX + 1.
The empty script (engine turns only) is the model's, log 2. -/
def Obligations.RepeatPhaseWritesTheCount : Prop :=
  ∀ s : State, s.Inv → s.phase = .repeatLeaf → s.repcnt = 0 → s.script = [] →
    (s.repeatReg.toNat ≤ s.params.outMax →
      ∃ t, steps (s.repeatReg.toNat + 1) s = .next t ∧ sameInputs s t
        ∧ t.shows (.done (List.replicate s.repeatReg.toNat (s.nodeAt 0).sym)))
    ∧ (s.params.outMax < s.repeatReg.toNat →
      ∃ t, steps (s.params.outMax + 1) s = .next t ∧ sameInputs s t ∧ t.shows (.error .capacity))

/-- R198, R195: every run ends, whatever host operations come between the engine's turns; from its start or
from any state within it the engine takes at most the bound's number of turns of its own, and every other step
is one of the script's host operations.
The script is the model's, log 2; that it is finite is log 18. -/
def Obligations.EveryRunEnds : Prop :=
  ∀ s : State, s.Inv → s.busy = true → s.undisturbed →
    ∃ k t, runEnds k s t ∧ (t.phase = .done ∨ t.phase = .error)
      ∧ k ≤ s.runBound + s.script.countP (fun m => decide (m ≠ .engine ∧ m ≠ .reset))

/-- R150, R168, R195: an accepted START begins a run that ends with the result of `Decode`, and leaves its
inputs unchanged, whatever host operations come between the engine's turns.
The script is the model's, log 2. -/
def Obligations.RunComputesDecode : Prop :=
  ∀ (s : State) (u : BitVec 31), s.Inv → s.busy = false → s.undisturbed →
    ∃ a k t, exec (.start u) s = .next a ∧ runEnds k a t ∧ t.shows s.decodeRun ∧ sameInputs s t

/-- R121, R78: from a well-formed stream for a text over a tree of two or more leaves the run ends DONE with
the text as its output, whatever host operations come between the engine's turns (R195).
The script is the model's, log 2. -/
def Obligations.WellFormedStreamDecodesToItsText : Prop :=
  ∀ (s : State) (u : BitVec 31) (l r : CodeTree) (codes : List (List Bool)) (text : List Word),
    s.Inv → s.busy = false → s.undisturbed → s.treeLen.toNat ≤ s.params.treeMax →
    s.dataBytes.toNat ≤ s.params.dataMax → s.serialized = (CodeTree.internal l r).entries →
    s.wellFormedStream codes → codes.map (CodeTree.internal l r).symbolOf = text.map some →
    text.length ≤ s.params.outMax →
    ∃ a k t, exec (.start u) s = .next a ∧ runEnds k a t ∧ t.shows (.done text)

/-- R134, R130, R132: from the serialization of a single leaf, no bits, and REPEAT = n the run ends DONE with
n copies of the leaf's symbol, whatever host operations come between the engine's turns (R195).
The script is the model's, log 2. -/
def Obligations.SingleLeafDecodesToItsCount : Prop :=
  ∀ (s : State) (u : BitVec 31) (sym : Word), s.Inv → s.busy = false → s.undisturbed →
    s.serialized = (CodeTree.leaf sym).entries → s.treeLen.toNat ≤ s.params.treeMax → s.dataBytes = 0#32 →
    s.dataLen = 0#32 → s.repeatReg.toNat ≤ s.params.outMax →
    ∃ a k t, exec (.start u) s = .next a ∧ runEnds k a t
      ∧ t.shows (.done (List.replicate s.repeatReg.toNat sym))
end

