-- ==== Sys2Proof/Laws/Decode.lean ====
section
/-!
SUPPORT. The decoder and the encoder, format by format, and the fields of their words (R71, R72, R76, R83).
-/

namespace Sys2Proof

theorem Params.symPos (p : Params) : 0 < 2 ^ p.symW := Nat.two_pow_pos _

theorem Params.entry_pow (p : Params) : 2 ^ p.entryW = 4 * 2 ^ p.symW := by
  rw [Params.entryW, Nat.pow_add]; omega

theorem decode_entry {p : Params} {w : Nat} (h : w < 2 ^ p.entryW) : decode p .entry w = .ok (decodeEntry p w) :=
  if_pos h

theorem decode_bit {p : Params} {w : Nat} (h : w < 2) : decode p .bit w = .ok (decodeBit w) := if_pos h

theorem decode_hostop {p : Params} {w : Nat} (h : w < 2 ^ 67) : decode p .hostop w = .ok (decodeHost w) := if_pos h

theorem decode_of_le {p : Params} {f : Format} {w : Nat} (h : 2 ^ f.width p ≤ w) :
    decode p f w = .error (.tooWide f) := if_neg (Nat.not_lt.mpr h)

theorem decodeEntry_entryWord (p : Params) (tag : Nat) {sym : Word} (h : sym.toNat < 2 ^ p.symW) :
    decodeEntry p (entryWord p tag sym) = entryOfTag tag sym := by
  have hd : entryWord p tag sym / 2 ^ p.symW = tag := by
    rw [entryWord, Nat.add_comm, Nat.add_mul_div_right _ _ p.symPos, Nat.div_eq_of_lt h, Nat.zero_add]
  have hm : entryWord p tag sym % 2 ^ p.symW = sym.toNat := by
    rw [entryWord, Nat.add_comm, Nat.add_mul_mod_self_right, Nat.mod_eq_of_lt h]
  rw [decodeEntry, hd, hm, BitVec.ofNat_toNat, BitVec.setWidth_eq]

theorem decodeHost_hostWord (h : Nat) (index value : Word) :
    decodeHost (hostWord h index value) = hostOpOf h index value := by
  have := index.isLt
  have := value.isLt
  have hd : hostWord h index value / 2 ^ 64 = h := by unfold hostWord; omega
  have hi : BitVec.ofNat 32 (hostWord h index value / 2 ^ 32) = index := by
    apply BitVec.eq_of_toNat_eq
    rw [BitVec.toNat_ofNat]
    unfold hostWord
    omega
  have hv : BitVec.ofNat 32 (hostWord h index value) = value := by
    apply BitVec.eq_of_toNat_eq
    rw [BitVec.toNat_ofNat]
    unfold hostWord
    omega
  rw [decodeHost, hd, hi, hv]

/-- The word of a START is a WRREG word, and its VALUE gives the ignored bits back. -/
theorem hostOpOf_start (upper : BitVec 31) : hostOpOf 4 0#32 (upper ++ 1#1) = .start upper := by
  have hb (k : Nat) : (upper ++ 1#1 : Word).getLsbD k = if k < 1 then (1#1).getLsbD k else upper.getLsbD (k - 1) :=
    (BitVec.getLsbD_append (x := upper) (y := 1#1) (i := k)).trans (by cases decide (k < 1) <;> rfl)
  have h1 : isStart 0#32 (upper ++ 1#1) = true := by rw [isStart, hb]; rfl
  have h2 : (upper ++ 1#1 : Word).extractLsb' 1 31 = upper := by
    ext k hk
    rw [BitVec.getElem_extractLsb', hb, if_neg (by omega), Nat.add_sub_cancel_left, BitVec.getLsbD_eq_getElem hk]
  rw [hostOpOf, if_pos h1, h2]

/-- A 67-bit record written field by field is the word of its fields (R83). -/
theorem record_toNat (w : BitVec 1) (space : BitVec 2) (index value : Word) :
    (w ++ space ++ index ++ value).toNat = hostWord (w ++ space).toNat index value := by
  simp only [hostWord, BitVec.toNat_append, Nat.shiftLeft_eq]
  rw [← Nat.shiftLeft_eq, ← Nat.shiftLeft_eq,
    ← Nat.shiftLeft_add_eq_or_of_lt index.isLt, ← Nat.shiftLeft_add_eq_or_of_lt value.isLt]
  simp only [Nat.shiftLeft_eq]
  ring

end Sys2Proof
end

