-- ==== Sys2Proof/Laws/State.lean ====
section
/-!
SUPPORT. The fields of the state after each named update, one lemma per field and update.
-/

namespace Sys2Proof.Machine

/-! ### `TREE[i] <- e` -/

@[simp] theorem State.setTree_params (i : Nat) (e : Word) (s : State) : (s.setTree i e).params = s.params := rfl
@[simp] theorem State.setTree_treeLen (i : Nat) (e : Word) (s : State) : (s.setTree i e).treeLen = s.treeLen := rfl
@[simp] theorem State.setTree_dataBytes (i : Nat) (e : Word) (s : State) : (s.setTree i e).dataBytes = s.dataBytes := rfl
@[simp] theorem State.setTree_dataLen (i : Nat) (e : Word) (s : State) : (s.setTree i e).dataLen = s.dataLen := rfl
@[simp] theorem State.setTree_repeatReg (i : Nat) (e : Word) (s : State) : (s.setTree i e).repeatReg = s.repeatReg := rfl
@[simp] theorem State.setTree_phase (i : Nat) (e : Word) (s : State) : (s.setTree i e).phase = s.phase := rfl
@[simp] theorem State.setTree_err (i : Nat) (e : Word) (s : State) : (s.setTree i e).err = s.err := rfl
@[simp] theorem State.setTree_pos (i : Nat) (e : Word) (s : State) : (s.setTree i e).pos = s.pos := rfl
@[simp] theorem State.setTree_sp (i : Nat) (e : Word) (s : State) : (s.setTree i e).sp = s.sp := rfl
@[simp] theorem State.setTree_cur (i : Nat) (e : Word) (s : State) : (s.setTree i e).cur = s.cur := rfl
@[simp] theorem State.setTree_bitpos (i : Nat) (e : Word) (s : State) : (s.setTree i e).bitpos = s.bitpos := rfl
@[simp] theorem State.setTree_repcnt (i : Nat) (e : Word) (s : State) : (s.setTree i e).repcnt = s.repcnt := rfl
@[simp] theorem State.setTree_ocnt (i : Nat) (e : Word) (s : State) : (s.setTree i e).ocnt = s.ocnt := rfl
@[simp] theorem State.setTree_tree (i : Nat) (e : Word) (s : State) : (s.setTree i e).tree = Memory.write s.tree i e := rfl
@[simp] theorem State.setTree_data (i : Nat) (e : Word) (s : State) : (s.setTree i e).data = s.data := rfl
@[simp] theorem State.setTree_out (i : Nat) (e : Word) (s : State) : (s.setTree i e).out = s.out := rfl
@[simp] theorem State.setTree_node (i : Nat) (e : Word) (s : State) : (s.setTree i e).node = s.node := rfl
@[simp] theorem State.setTree_stack (i : Nat) (e : Word) (s : State) : (s.setTree i e).stack = s.stack := rfl
@[simp] theorem State.setTree_hostStamp (i : Nat) (e : Word) (s : State) : (s.setTree i e).hostStamp = s.hostStamp := rfl
@[simp] theorem State.setTree_workStamp (i : Nat) (e : Word) (s : State) : (s.setTree i e).workStamp = s.workStamp := rfl
@[simp] theorem State.setTree_draws (i : Nat) (e : Word) (s : State) : (s.setTree i e).draws = s.draws := rfl
@[simp] theorem State.setTree_hostRead (i : Nat) (e : Word) (s : State) : (s.setTree i e).hostRead = s.hostRead := rfl
@[simp] theorem State.setTree_script (i : Nat) (e : Word) (s : State) : (s.setTree i e).script = s.script := rfl

/-! ### `DATA[i] <- b` -/

@[simp] theorem State.setData_params (i : Nat) (b : Byte) (s : State) : (s.setData i b).params = s.params := rfl
@[simp] theorem State.setData_treeLen (i : Nat) (b : Byte) (s : State) : (s.setData i b).treeLen = s.treeLen := rfl
@[simp] theorem State.setData_dataBytes (i : Nat) (b : Byte) (s : State) : (s.setData i b).dataBytes = s.dataBytes := rfl
@[simp] theorem State.setData_dataLen (i : Nat) (b : Byte) (s : State) : (s.setData i b).dataLen = s.dataLen := rfl
@[simp] theorem State.setData_repeatReg (i : Nat) (b : Byte) (s : State) : (s.setData i b).repeatReg = s.repeatReg := rfl
@[simp] theorem State.setData_phase (i : Nat) (b : Byte) (s : State) : (s.setData i b).phase = s.phase := rfl
@[simp] theorem State.setData_err (i : Nat) (b : Byte) (s : State) : (s.setData i b).err = s.err := rfl
@[simp] theorem State.setData_pos (i : Nat) (b : Byte) (s : State) : (s.setData i b).pos = s.pos := rfl
@[simp] theorem State.setData_sp (i : Nat) (b : Byte) (s : State) : (s.setData i b).sp = s.sp := rfl
@[simp] theorem State.setData_cur (i : Nat) (b : Byte) (s : State) : (s.setData i b).cur = s.cur := rfl
@[simp] theorem State.setData_bitpos (i : Nat) (b : Byte) (s : State) : (s.setData i b).bitpos = s.bitpos := rfl
@[simp] theorem State.setData_repcnt (i : Nat) (b : Byte) (s : State) : (s.setData i b).repcnt = s.repcnt := rfl
@[simp] theorem State.setData_ocnt (i : Nat) (b : Byte) (s : State) : (s.setData i b).ocnt = s.ocnt := rfl
@[simp] theorem State.setData_tree (i : Nat) (b : Byte) (s : State) : (s.setData i b).tree = s.tree := rfl
@[simp] theorem State.setData_data (i : Nat) (b : Byte) (s : State) : (s.setData i b).data = Memory.write s.data i b := rfl
@[simp] theorem State.setData_out (i : Nat) (b : Byte) (s : State) : (s.setData i b).out = s.out := rfl
@[simp] theorem State.setData_node (i : Nat) (b : Byte) (s : State) : (s.setData i b).node = s.node := rfl
@[simp] theorem State.setData_stack (i : Nat) (b : Byte) (s : State) : (s.setData i b).stack = s.stack := rfl
@[simp] theorem State.setData_hostStamp (i : Nat) (b : Byte) (s : State) : (s.setData i b).hostStamp = s.hostStamp := rfl
@[simp] theorem State.setData_workStamp (i : Nat) (b : Byte) (s : State) : (s.setData i b).workStamp = s.workStamp := rfl
@[simp] theorem State.setData_draws (i : Nat) (b : Byte) (s : State) : (s.setData i b).draws = s.draws := rfl
@[simp] theorem State.setData_hostRead (i : Nat) (b : Byte) (s : State) : (s.setData i b).hostRead = s.hostRead := rfl
@[simp] theorem State.setData_script (i : Nat) (b : Byte) (s : State) : (s.setData i b).script = s.script := rfl

/-! ### `NODE[i] <- r` -/

@[simp] theorem State.setNode_params (i : Nat) (r : NodeRec) (s : State) : (s.setNode i r).params = s.params := rfl
@[simp] theorem State.setNode_treeLen (i : Nat) (r : NodeRec) (s : State) : (s.setNode i r).treeLen = s.treeLen := rfl
@[simp] theorem State.setNode_dataBytes (i : Nat) (r : NodeRec) (s : State) : (s.setNode i r).dataBytes = s.dataBytes := rfl
@[simp] theorem State.setNode_dataLen (i : Nat) (r : NodeRec) (s : State) : (s.setNode i r).dataLen = s.dataLen := rfl
@[simp] theorem State.setNode_repeatReg (i : Nat) (r : NodeRec) (s : State) : (s.setNode i r).repeatReg = s.repeatReg := rfl
@[simp] theorem State.setNode_phase (i : Nat) (r : NodeRec) (s : State) : (s.setNode i r).phase = s.phase := rfl
@[simp] theorem State.setNode_err (i : Nat) (r : NodeRec) (s : State) : (s.setNode i r).err = s.err := rfl
@[simp] theorem State.setNode_pos (i : Nat) (r : NodeRec) (s : State) : (s.setNode i r).pos = s.pos := rfl
@[simp] theorem State.setNode_sp (i : Nat) (r : NodeRec) (s : State) : (s.setNode i r).sp = s.sp := rfl
@[simp] theorem State.setNode_cur (i : Nat) (r : NodeRec) (s : State) : (s.setNode i r).cur = s.cur := rfl
@[simp] theorem State.setNode_bitpos (i : Nat) (r : NodeRec) (s : State) : (s.setNode i r).bitpos = s.bitpos := rfl
@[simp] theorem State.setNode_repcnt (i : Nat) (r : NodeRec) (s : State) : (s.setNode i r).repcnt = s.repcnt := rfl
@[simp] theorem State.setNode_ocnt (i : Nat) (r : NodeRec) (s : State) : (s.setNode i r).ocnt = s.ocnt := rfl
@[simp] theorem State.setNode_tree (i : Nat) (r : NodeRec) (s : State) : (s.setNode i r).tree = s.tree := rfl
@[simp] theorem State.setNode_data (i : Nat) (r : NodeRec) (s : State) : (s.setNode i r).data = s.data := rfl
@[simp] theorem State.setNode_out (i : Nat) (r : NodeRec) (s : State) : (s.setNode i r).out = s.out := rfl
@[simp] theorem State.setNode_node (i : Nat) (r : NodeRec) (s : State) : (s.setNode i r).node = Memory.write s.node i r := rfl
@[simp] theorem State.setNode_stack (i : Nat) (r : NodeRec) (s : State) : (s.setNode i r).stack = s.stack := rfl
@[simp] theorem State.setNode_hostStamp (i : Nat) (r : NodeRec) (s : State) : (s.setNode i r).hostStamp = s.hostStamp := rfl
@[simp] theorem State.setNode_workStamp (i : Nat) (r : NodeRec) (s : State) : (s.setNode i r).workStamp = s.workStamp := rfl
@[simp] theorem State.setNode_draws (i : Nat) (r : NodeRec) (s : State) : (s.setNode i r).draws = s.draws := rfl
@[simp] theorem State.setNode_hostRead (i : Nat) (r : NodeRec) (s : State) : (s.setNode i r).hostRead = s.hostRead := rfl
@[simp] theorem State.setNode_script (i : Nat) (r : NodeRec) (s : State) : (s.setNode i r).script = s.script := rfl

/-! ### `STACK[i] <- f` -/

@[simp] theorem State.setFrame_params (i : Nat) (f : Frame) (s : State) : (s.setFrame i f).params = s.params := rfl
@[simp] theorem State.setFrame_treeLen (i : Nat) (f : Frame) (s : State) : (s.setFrame i f).treeLen = s.treeLen := rfl
@[simp] theorem State.setFrame_dataBytes (i : Nat) (f : Frame) (s : State) : (s.setFrame i f).dataBytes = s.dataBytes := rfl
@[simp] theorem State.setFrame_dataLen (i : Nat) (f : Frame) (s : State) : (s.setFrame i f).dataLen = s.dataLen := rfl
@[simp] theorem State.setFrame_repeatReg (i : Nat) (f : Frame) (s : State) : (s.setFrame i f).repeatReg = s.repeatReg := rfl
@[simp] theorem State.setFrame_phase (i : Nat) (f : Frame) (s : State) : (s.setFrame i f).phase = s.phase := rfl
@[simp] theorem State.setFrame_err (i : Nat) (f : Frame) (s : State) : (s.setFrame i f).err = s.err := rfl
@[simp] theorem State.setFrame_pos (i : Nat) (f : Frame) (s : State) : (s.setFrame i f).pos = s.pos := rfl
@[simp] theorem State.setFrame_sp (i : Nat) (f : Frame) (s : State) : (s.setFrame i f).sp = s.sp := rfl
@[simp] theorem State.setFrame_cur (i : Nat) (f : Frame) (s : State) : (s.setFrame i f).cur = s.cur := rfl
@[simp] theorem State.setFrame_bitpos (i : Nat) (f : Frame) (s : State) : (s.setFrame i f).bitpos = s.bitpos := rfl
@[simp] theorem State.setFrame_repcnt (i : Nat) (f : Frame) (s : State) : (s.setFrame i f).repcnt = s.repcnt := rfl
@[simp] theorem State.setFrame_ocnt (i : Nat) (f : Frame) (s : State) : (s.setFrame i f).ocnt = s.ocnt := rfl
@[simp] theorem State.setFrame_tree (i : Nat) (f : Frame) (s : State) : (s.setFrame i f).tree = s.tree := rfl
@[simp] theorem State.setFrame_data (i : Nat) (f : Frame) (s : State) : (s.setFrame i f).data = s.data := rfl
@[simp] theorem State.setFrame_out (i : Nat) (f : Frame) (s : State) : (s.setFrame i f).out = s.out := rfl
@[simp] theorem State.setFrame_node (i : Nat) (f : Frame) (s : State) : (s.setFrame i f).node = s.node := rfl
@[simp] theorem State.setFrame_stack (i : Nat) (f : Frame) (s : State) : (s.setFrame i f).stack = Memory.write s.stack i f := rfl
@[simp] theorem State.setFrame_hostStamp (i : Nat) (f : Frame) (s : State) : (s.setFrame i f).hostStamp = s.hostStamp := rfl
@[simp] theorem State.setFrame_workStamp (i : Nat) (f : Frame) (s : State) : (s.setFrame i f).workStamp = s.workStamp := rfl
@[simp] theorem State.setFrame_draws (i : Nat) (f : Frame) (s : State) : (s.setFrame i f).draws = s.draws := rfl
@[simp] theorem State.setFrame_hostRead (i : Nat) (f : Frame) (s : State) : (s.setFrame i f).hostRead = s.hostRead := rfl
@[simp] theorem State.setFrame_script (i : Nat) (f : Frame) (s : State) : (s.setFrame i f).script = s.script := rfl

/-! ### one symbol appended to OUT (R117) -/

@[simp] theorem State.append_params (v : Word) (s : State) : (s.append v).params = s.params := rfl
@[simp] theorem State.append_treeLen (v : Word) (s : State) : (s.append v).treeLen = s.treeLen := rfl
@[simp] theorem State.append_dataBytes (v : Word) (s : State) : (s.append v).dataBytes = s.dataBytes := rfl
@[simp] theorem State.append_dataLen (v : Word) (s : State) : (s.append v).dataLen = s.dataLen := rfl
@[simp] theorem State.append_repeatReg (v : Word) (s : State) : (s.append v).repeatReg = s.repeatReg := rfl
@[simp] theorem State.append_phase (v : Word) (s : State) : (s.append v).phase = s.phase := rfl
@[simp] theorem State.append_err (v : Word) (s : State) : (s.append v).err = s.err := rfl
@[simp] theorem State.append_pos (v : Word) (s : State) : (s.append v).pos = s.pos := rfl
@[simp] theorem State.append_sp (v : Word) (s : State) : (s.append v).sp = s.sp := rfl
@[simp] theorem State.append_cur (v : Word) (s : State) : (s.append v).cur = s.cur := rfl
@[simp] theorem State.append_bitpos (v : Word) (s : State) : (s.append v).bitpos = s.bitpos := rfl
@[simp] theorem State.append_repcnt (v : Word) (s : State) : (s.append v).repcnt = s.repcnt := rfl
@[simp] theorem State.append_ocnt (v : Word) (s : State) : (s.append v).ocnt = s.ocnt + 1 := rfl
@[simp] theorem State.append_tree (v : Word) (s : State) : (s.append v).tree = s.tree := rfl
@[simp] theorem State.append_data (v : Word) (s : State) : (s.append v).data = s.data := rfl
@[simp] theorem State.append_out (v : Word) (s : State) : (s.append v).out = Memory.write s.out s.ocnt v := rfl
@[simp] theorem State.append_node (v : Word) (s : State) : (s.append v).node = s.node := rfl
@[simp] theorem State.append_stack (v : Word) (s : State) : (s.append v).stack = s.stack := rfl
@[simp] theorem State.append_hostStamp (v : Word) (s : State) : (s.append v).hostStamp = s.hostStamp := rfl
@[simp] theorem State.append_workStamp (v : Word) (s : State) : (s.append v).workStamp = s.workStamp := rfl
@[simp] theorem State.append_draws (v : Word) (s : State) : (s.append v).draws = s.draws := rfl
@[simp] theorem State.append_hostRead (v : Word) (s : State) : (s.append v).hostRead = s.hostRead := rfl
@[simp] theorem State.append_script (v : Word) (s : State) : (s.append v).script = s.script := rfl

/-! ### a value returned to the host (R140) -/

@[simp] theorem State.reply_params (v : Word) (s : State) : (s.reply v).params = s.params := rfl
@[simp] theorem State.reply_treeLen (v : Word) (s : State) : (s.reply v).treeLen = s.treeLen := rfl
@[simp] theorem State.reply_dataBytes (v : Word) (s : State) : (s.reply v).dataBytes = s.dataBytes := rfl
@[simp] theorem State.reply_dataLen (v : Word) (s : State) : (s.reply v).dataLen = s.dataLen := rfl
@[simp] theorem State.reply_repeatReg (v : Word) (s : State) : (s.reply v).repeatReg = s.repeatReg := rfl
@[simp] theorem State.reply_phase (v : Word) (s : State) : (s.reply v).phase = s.phase := rfl
@[simp] theorem State.reply_err (v : Word) (s : State) : (s.reply v).err = s.err := rfl
@[simp] theorem State.reply_pos (v : Word) (s : State) : (s.reply v).pos = s.pos := rfl
@[simp] theorem State.reply_sp (v : Word) (s : State) : (s.reply v).sp = s.sp := rfl
@[simp] theorem State.reply_cur (v : Word) (s : State) : (s.reply v).cur = s.cur := rfl
@[simp] theorem State.reply_bitpos (v : Word) (s : State) : (s.reply v).bitpos = s.bitpos := rfl
@[simp] theorem State.reply_repcnt (v : Word) (s : State) : (s.reply v).repcnt = s.repcnt := rfl
@[simp] theorem State.reply_ocnt (v : Word) (s : State) : (s.reply v).ocnt = s.ocnt := rfl
@[simp] theorem State.reply_tree (v : Word) (s : State) : (s.reply v).tree = s.tree := rfl
@[simp] theorem State.reply_data (v : Word) (s : State) : (s.reply v).data = s.data := rfl
@[simp] theorem State.reply_out (v : Word) (s : State) : (s.reply v).out = s.out := rfl
@[simp] theorem State.reply_node (v : Word) (s : State) : (s.reply v).node = s.node := rfl
@[simp] theorem State.reply_stack (v : Word) (s : State) : (s.reply v).stack = s.stack := rfl
@[simp] theorem State.reply_hostStamp (v : Word) (s : State) : (s.reply v).hostStamp = s.hostStamp := rfl
@[simp] theorem State.reply_workStamp (v : Word) (s : State) : (s.reply v).workStamp = s.workStamp := rfl
@[simp] theorem State.reply_draws (v : Word) (s : State) : (s.reply v).draws = s.draws := rfl
@[simp] theorem State.reply_hostRead (v : Word) (s : State) : (s.reply v).hostRead = some v := rfl
@[simp] theorem State.reply_script (v : Word) (s : State) : (s.reply v).script = s.script := rfl

/-! ### a free value returned to the host (R147) -/

@[simp] theorem State.replyFree_params (s : State) : (s.replyFree).params = s.params := rfl
@[simp] theorem State.replyFree_treeLen (s : State) : (s.replyFree).treeLen = s.treeLen := rfl
@[simp] theorem State.replyFree_dataBytes (s : State) : (s.replyFree).dataBytes = s.dataBytes := rfl
@[simp] theorem State.replyFree_dataLen (s : State) : (s.replyFree).dataLen = s.dataLen := rfl
@[simp] theorem State.replyFree_repeatReg (s : State) : (s.replyFree).repeatReg = s.repeatReg := rfl
@[simp] theorem State.replyFree_phase (s : State) : (s.replyFree).phase = s.phase := rfl
@[simp] theorem State.replyFree_err (s : State) : (s.replyFree).err = s.err := rfl
@[simp] theorem State.replyFree_pos (s : State) : (s.replyFree).pos = s.pos := rfl
@[simp] theorem State.replyFree_sp (s : State) : (s.replyFree).sp = s.sp := rfl
@[simp] theorem State.replyFree_cur (s : State) : (s.replyFree).cur = s.cur := rfl
@[simp] theorem State.replyFree_bitpos (s : State) : (s.replyFree).bitpos = s.bitpos := rfl
@[simp] theorem State.replyFree_repcnt (s : State) : (s.replyFree).repcnt = s.repcnt := rfl
@[simp] theorem State.replyFree_ocnt (s : State) : (s.replyFree).ocnt = s.ocnt := rfl
@[simp] theorem State.replyFree_tree (s : State) : (s.replyFree).tree = s.tree := rfl
@[simp] theorem State.replyFree_data (s : State) : (s.replyFree).data = s.data := rfl
@[simp] theorem State.replyFree_out (s : State) : (s.replyFree).out = s.out := rfl
@[simp] theorem State.replyFree_node (s : State) : (s.replyFree).node = s.node := rfl
@[simp] theorem State.replyFree_stack (s : State) : (s.replyFree).stack = s.stack := rfl
@[simp] theorem State.replyFree_hostStamp (s : State) : (s.replyFree).hostStamp = s.hostStamp := rfl
@[simp] theorem State.replyFree_workStamp (s : State) : (s.replyFree).workStamp = s.workStamp := rfl
@[simp] theorem State.replyFree_draws (s : State) : (s.replyFree).draws = s.draws + 1 := rfl
@[simp] theorem State.replyFree_hostRead (s : State) : (s.replyFree).hostRead = some (Config.freeRead s.draws) := rfl
@[simp] theorem State.replyFree_script (s : State) : (s.replyFree).script = s.script := rfl

/-! ### one move of the script taken (R11) -/

@[simp] theorem State.rest_params (s : State) : (s.rest).params = s.params := rfl
@[simp] theorem State.rest_treeLen (s : State) : (s.rest).treeLen = s.treeLen := rfl
@[simp] theorem State.rest_dataBytes (s : State) : (s.rest).dataBytes = s.dataBytes := rfl
@[simp] theorem State.rest_dataLen (s : State) : (s.rest).dataLen = s.dataLen := rfl
@[simp] theorem State.rest_repeatReg (s : State) : (s.rest).repeatReg = s.repeatReg := rfl
@[simp] theorem State.rest_phase (s : State) : (s.rest).phase = s.phase := rfl
@[simp] theorem State.rest_err (s : State) : (s.rest).err = s.err := rfl
@[simp] theorem State.rest_pos (s : State) : (s.rest).pos = s.pos := rfl
@[simp] theorem State.rest_sp (s : State) : (s.rest).sp = s.sp := rfl
@[simp] theorem State.rest_cur (s : State) : (s.rest).cur = s.cur := rfl
@[simp] theorem State.rest_bitpos (s : State) : (s.rest).bitpos = s.bitpos := rfl
@[simp] theorem State.rest_repcnt (s : State) : (s.rest).repcnt = s.repcnt := rfl
@[simp] theorem State.rest_ocnt (s : State) : (s.rest).ocnt = s.ocnt := rfl
@[simp] theorem State.rest_tree (s : State) : (s.rest).tree = s.tree := rfl
@[simp] theorem State.rest_data (s : State) : (s.rest).data = s.data := rfl
@[simp] theorem State.rest_out (s : State) : (s.rest).out = s.out := rfl
@[simp] theorem State.rest_node (s : State) : (s.rest).node = s.node := rfl
@[simp] theorem State.rest_stack (s : State) : (s.rest).stack = s.stack := rfl
@[simp] theorem State.rest_hostStamp (s : State) : (s.rest).hostStamp = s.hostStamp := rfl
@[simp] theorem State.rest_workStamp (s : State) : (s.rest).workStamp = s.workStamp := rfl
@[simp] theorem State.rest_draws (s : State) : (s.rest).draws = s.draws := rfl
@[simp] theorem State.rest_hostRead (s : State) : (s.rest).hostRead = s.hostRead := rfl
@[simp] theorem State.rest_script (s : State) : (s.rest).script = s.script.tail := rfl
@[simp] theorem State.rest_entryAt (s : State) (i : Nat) : s.rest.entryAt i = s.entryAt i := rfl
@[simp] theorem State.rest_dataAt (s : State) (i : Nat) : s.rest.dataAt i = s.dataAt i := rfl
@[simp] theorem State.rest_outAt (s : State) (i : Nat) : s.rest.outAt i = s.outAt i := rfl
@[simp] theorem State.rest_nodeAt (s : State) (i : Nat) : s.rest.nodeAt i = s.nodeAt i := rfl
@[simp] theorem State.rest_frameAt (s : State) (i : Nat) : s.rest.frameAt i = s.frameAt i := rfl
@[simp] theorem State.rest_streamBit (s : State) (k : Nat) : s.rest.streamBit k = s.streamBit k := rfl
@[simp] theorem State.rest_entryInstr (s : State) (i : Nat) : s.rest.entryInstr i = s.entryInstr i := rfl
@[simp] theorem State.rest_busy (s : State) : s.rest.busy = s.busy := rfl
@[simp] theorem State.rest_top (s : State) : s.rest.top = s.top := rfl
@[simp] theorem State.rest_ctx (s : State) : s.rest.ctx = s.ctx := rfl
@[simp] theorem State.rest_stackInRange (s : State) : s.rest.stackInRange = s.stackInRange := rfl

/-! ### `raise e` (R166) -/

@[simp] theorem raise_params (e : Err) (s : State) : (raise e s).params = s.params := rfl
@[simp] theorem raise_treeLen (e : Err) (s : State) : (raise e s).treeLen = s.treeLen := rfl
@[simp] theorem raise_dataBytes (e : Err) (s : State) : (raise e s).dataBytes = s.dataBytes := rfl
@[simp] theorem raise_dataLen (e : Err) (s : State) : (raise e s).dataLen = s.dataLen := rfl
@[simp] theorem raise_repeatReg (e : Err) (s : State) : (raise e s).repeatReg = s.repeatReg := rfl
@[simp] theorem raise_phase (e : Err) (s : State) : (raise e s).phase = .error := rfl
@[simp] theorem raise_err (e : Err) (s : State) : (raise e s).err = e := rfl
@[simp] theorem raise_pos (e : Err) (s : State) : (raise e s).pos = Config.freePos s.draws % 2 ^ (s.params.treeAW + 1) := rfl
@[simp] theorem raise_sp (e : Err) (s : State) : (raise e s).sp = Config.freeSp s.draws % 2 ^ (s.params.treeAW + 1) := rfl
@[simp] theorem raise_cur (e : Err) (s : State) : (raise e s).cur = Config.freeCur s.draws % 2 ^ s.params.treeAW := rfl
@[simp] theorem raise_bitpos (e : Err) (s : State) : (raise e s).bitpos = Config.freeBitpos s.draws % 2 ^ 32 := rfl
@[simp] theorem raise_repcnt (e : Err) (s : State) : (raise e s).repcnt = Config.freeRepcnt s.draws % 2 ^ 32 := rfl
@[simp] theorem raise_ocnt (e : Err) (s : State) : (raise e s).ocnt = 0 := rfl
@[simp] theorem raise_tree (e : Err) (s : State) : (raise e s).tree = s.tree := rfl
@[simp] theorem raise_data (e : Err) (s : State) : (raise e s).data = s.data := rfl
@[simp] theorem raise_out (e : Err) (s : State) : (raise e s).out = s.out := rfl
@[simp] theorem raise_node (e : Err) (s : State) : (raise e s).node = [] := rfl
@[simp] theorem raise_stack (e : Err) (s : State) : (raise e s).stack = [] := rfl
@[simp] theorem raise_hostStamp (e : Err) (s : State) : (raise e s).hostStamp = s.hostStamp := rfl
@[simp] theorem raise_workStamp (e : Err) (s : State) : (raise e s).workStamp = s.draws := rfl
@[simp] theorem raise_draws (e : Err) (s : State) : (raise e s).draws = s.draws + 1 := rfl
@[simp] theorem raise_hostRead (e : Err) (s : State) : (raise e s).hostRead = s.hostRead := rfl
@[simp] theorem raise_script (e : Err) (s : State) : (raise e s).script = s.script := rfl

/-! ### RESET (R190) -/

@[simp] theorem State.resetBlock_params (s : State) : (s.resetBlock).params = s.params := rfl
@[simp] theorem State.resetBlock_treeLen (s : State) : (s.resetBlock).treeLen = 0#32 := rfl
@[simp] theorem State.resetBlock_dataBytes (s : State) : (s.resetBlock).dataBytes = 0#32 := rfl
@[simp] theorem State.resetBlock_dataLen (s : State) : (s.resetBlock).dataLen = 0#32 := rfl
@[simp] theorem State.resetBlock_repeatReg (s : State) : (s.resetBlock).repeatReg = 0#32 := rfl
@[simp] theorem State.resetBlock_phase (s : State) : (s.resetBlock).phase = .idle := rfl
@[simp] theorem State.resetBlock_err (s : State) : (s.resetBlock).err = .none := rfl
@[simp] theorem State.resetBlock_pos (s : State) : (s.resetBlock).pos = Config.freePos s.draws % 2 ^ (s.params.treeAW + 1) := rfl
@[simp] theorem State.resetBlock_sp (s : State) : (s.resetBlock).sp = Config.freeSp s.draws % 2 ^ (s.params.treeAW + 1) := rfl
@[simp] theorem State.resetBlock_cur (s : State) : (s.resetBlock).cur = Config.freeCur s.draws % 2 ^ s.params.treeAW := rfl
@[simp] theorem State.resetBlock_bitpos (s : State) : (s.resetBlock).bitpos = Config.freeBitpos s.draws % 2 ^ 32 := rfl
@[simp] theorem State.resetBlock_repcnt (s : State) : (s.resetBlock).repcnt = Config.freeRepcnt s.draws % 2 ^ 32 := rfl
@[simp] theorem State.resetBlock_ocnt (s : State) : (s.resetBlock).ocnt = 0 := rfl
@[simp] theorem State.resetBlock_tree (s : State) : (s.resetBlock).tree = [] := rfl
@[simp] theorem State.resetBlock_data (s : State) : (s.resetBlock).data = [] := rfl
@[simp] theorem State.resetBlock_out (s : State) : (s.resetBlock).out = [] := rfl
@[simp] theorem State.resetBlock_node (s : State) : (s.resetBlock).node = [] := rfl
@[simp] theorem State.resetBlock_stack (s : State) : (s.resetBlock).stack = [] := rfl
@[simp] theorem State.resetBlock_hostStamp (s : State) : (s.resetBlock).hostStamp = s.draws := rfl
@[simp] theorem State.resetBlock_workStamp (s : State) : (s.resetBlock).workStamp = s.draws := rfl
@[simp] theorem State.resetBlock_draws (s : State) : (s.resetBlock).draws = s.draws + 1 := rfl
@[simp] theorem State.resetBlock_hostRead (s : State) : (s.resetBlock).hostRead = s.hostRead := rfl
@[simp] theorem State.resetBlock_script (s : State) : (s.resetBlock).script = s.script := rfl

end Sys2Proof.Machine
end

