-- ==== Sys2Proof/Laws/Memory.lean ====
section
/-!
SUPPORT. Reading and writing a memory, its canonical form, and what the accessors read after each write.
-/

namespace Sys2Proof.Machine

variable {α : Type}

@[simp] theorem Memory.read_nil (a : Nat) : Memory.read ([] : Memory α) a = none := rfl

/-- A read after a write to the same element gives the value written. -/
@[simp] theorem Memory.read_write_self (m : Memory α) (a : Nat) (v : α) :
    Memory.read (Memory.write m a v) a = some v := by
  induction m with
  | nil => simp [Memory.write, Memory.read]
  | cons c rest ih =>
    obtain ⟨b, w⟩ := c
    simp only [Memory.write]
    split
    · simp [Memory.read]
    · split
      · simp [Memory.read]
      · rename_i h
        simp [Memory.read, h, ih]

/-- A write leaves every other element alone. -/
theorem Memory.read_write_other (m : Memory α) {a b : Nat} (v : α) (h : b ≠ a) :
    Memory.read (Memory.write m a v) b = Memory.read m b := by
  induction m with
  | nil => simp [Memory.write, Memory.read, h]
  | cons c rest ih =>
    obtain ⟨d, w⟩ := c
    simp only [Memory.write]
    split
    · simp [Memory.read, h]
    · split
      · rename_i _ hd
        subst hd
        simp [Memory.read, h]
      · simp only [Memory.read, ih]

/-- Everything a read after a write can give. -/
theorem Memory.read_write (m : Memory α) (a b : Nat) (v : α) :
    Memory.read (Memory.write m a v) b = if b = a then some v else Memory.read m b := by
  split
  · next h => rw [h, Memory.read_write_self]
  · next h => exact Memory.read_write_other m v h

/-- What is listed after a write was listed before or is what was written. -/
theorem Memory.mem_write {m : Memory α} {a : Nat} {v : α} {c : Nat × α} (h : c ∈ Memory.write m a v) :
    c = (a, v) ∨ c ∈ m := by
  induction m with
  | nil => simpa [Memory.write] using h
  | cons d rest ih =>
    obtain ⟨b, w⟩ := d
    simp only [Memory.write] at h
    split at h
    · simpa using h
    · split at h
      · rcases List.mem_cons.mp h with h | h
        · exact .inl h
        · exact .inr (List.mem_cons_of_mem _ h)
      · rcases List.mem_cons.mp h with h | h
        · exact .inr (h ▸ List.mem_cons_self)
        · exact (ih h).imp id (List.mem_cons_of_mem _)

/-- What a read gives is listed. -/
theorem Memory.mem_of_read {m : Memory α} {a : Nat} {v : α} (h : Memory.read m a = some v) : (a, v) ∈ m := by
  induction m with
  | nil => simp at h
  | cons d rest ih =>
    obtain ⟨b, w⟩ := d
    simp only [Memory.read] at h
    split at h
    · next hb =>
      cases h
      exact hb ▸ List.mem_cons_self
    · exact List.mem_cons_of_mem _ (ih h)

/-- The canonical form, one element at a time. -/
theorem Memory.wf_cons (a : Nat) (v : α) (m : Memory α) :
    Memory.wf ((a, v) :: m) = true ↔ (∀ c ∈ m.head?, a < c.1) ∧ Memory.wf m = true := by
  cases m with
  | nil => simp [Memory.wf]
  | cons c rest => simp [Memory.wf]

/-- The smallest index after a write is the old one or the written one. -/
theorem Memory.head_write {m : Memory α} {a : Nat} {v : α} {c : Nat × α}
    (h : c ∈ (Memory.write m a v).head?) : c = (a, v) ∨ c ∈ m.head? := by
  cases m with
  | nil => simpa [Memory.write, eq_comm] using h
  | cons d rest =>
    obtain ⟨b, w⟩ := d
    simp only [Memory.write] at h
    split at h
    · exact .inl (by simpa [eq_comm] using h)
    · split at h
      · exact .inl (by simpa [eq_comm] using h)
      · exact .inr (by simpa using h)

/-- Writing keeps the canonical form. -/
theorem Memory.wf_write {m : Memory α} (a : Nat) (v : α) (h : Memory.wf m = true) :
    Memory.wf (Memory.write m a v) = true := by
  induction m with
  | nil => rfl
  | cons d rest ih =>
    obtain ⟨b, w⟩ := d
    obtain ⟨hb, hr⟩ := (Memory.wf_cons b w rest).mp h
    simp only [Memory.write]
    split
    · next hab => exact (Memory.wf_cons a v _).mpr ⟨by simpa using hab, h⟩
    · split
      · next hab => exact (Memory.wf_cons a v rest).mpr ⟨hab ▸ hb, hr⟩
      · next h1 h2 =>
        refine (Memory.wf_cons b w _).mpr ⟨fun c hc => ?_, ih hr⟩
        rcases Memory.head_write hc with rfl | hc
        · exact Nat.lt_of_le_of_ne (Nat.le_of_not_lt h1) (Ne.symm h2)
        · exact hb c hc

/-- Every memory of the state after reset is in canonical form. -/
theorem reset_memories_wf :
    Memory.wf State.reset.tree = true ∧ Memory.wf State.reset.data = true ∧ Memory.wf State.reset.out = true
      ∧ Memory.wf State.reset.node = true ∧ Memory.wf State.reset.stack = true :=
  ⟨rfl, rfl, rfl, rfl, rfl⟩

/-- A memory that lists nothing is within every size. -/
@[simp] theorem Memory.within_nil (size : Nat) (fits : α → Prop) : Memory.within ([] : Memory α) size fits :=
  ⟨rfl, by simp⟩

/-- Writing an element of the space that fits keeps a memory within its size and width. -/
theorem Memory.within_write {m : Memory α} {size : Nat} {fits : α → Prop} {a : Nat} {v : α}
    (h : Memory.within m size fits) (ha : a < size) (hv : fits v) :
    Memory.within (Memory.write m a v) size fits := by
  refine ⟨Memory.wf_write a v h.1, fun c hc => ?_⟩
  rcases Memory.mem_write hc with rfl | hc
  · exact ⟨ha, hv⟩
  · exact h.2 c hc

/-- A cut word fits the width it is cut to. -/
theorem cut_lt {w : Nat} (v : Word) : (cut w v).toNat < 2 ^ w := by
  have h : v.toNat % 2 ^ w < 2 ^ w := Nat.mod_lt _ (by positivity)
  simp only [cut, BitVec.toNat_ofNat]
  exact lt_of_le_of_lt (Nat.mod_le _ _) h

/-- A word that fits is not changed by cutting it. -/
theorem cut_of_lt {w : Nat} {v : Word} (h : v.toNat < 2 ^ w) : cut w v = v := by
  simp [cut, Nat.mod_eq_of_lt h]

/-! ### The accessors after a write -/

theorem State.nodeAt_setNode (i j : Nat) (r : NodeRec) (s : State) :
    (s.setNode i r).nodeAt j = if j = i then r else s.nodeAt j := by
  simp only [State.nodeAt, State.setNode_node, Memory.read_write]
  split <;> rfl

theorem State.frameAt_setFrame (i j : Nat) (f : Frame) (s : State) :
    (s.setFrame i f).frameAt j = if j = i then f else s.frameAt j := by
  simp only [State.frameAt, State.setFrame_stack, Memory.read_write]
  split <;> rfl

theorem State.entryAt_setTree (i j : Nat) (e : Word) (s : State) :
    (s.setTree i e).entryAt j = if j = i then cut s.params.entryW e else s.entryAt j := by
  simp only [State.entryAt, State.setTree_tree, State.setTree_params, State.setTree_hostStamp,
    Memory.read_write]
  split <;> rfl

theorem State.dataAt_setData (i j : Nat) (b : Byte) (s : State) :
    (s.setData i b).dataAt j = if j = i then b else s.dataAt j := by
  simp only [State.dataAt, State.setData_data, State.setData_hostStamp, Memory.read_write]
  split <;> rfl

theorem State.outAt_append (v : Word) (j : Nat) (s : State) :
    (s.append v).outAt j = if j = s.ocnt then cut s.params.symW v else s.outAt j := by
  simp only [State.outAt, State.append_out, State.append_params, State.append_hostStamp, Memory.read_write]
  split <;> rfl

end Sys2Proof.Machine
end

