-- ==== Sys2Proof/Laws/Ops.lean ====
section
/-!
SUPPORT. What each shared operation can do, said once: its inversion lemma, or the cases it has.
-/

namespace Sys2Proof.Machine

/-! ### Errors -/

/-- `raise e` does what R166 says and nothing more to the inputs, OUT and the host's side. -/
theorem raise_raised (e : Err) (s : State) : raised e s (raise e s) :=
  ⟨rfl, rfl, rfl, ⟨rfl, rfl, rfl, rfl, rfl, fun _ => rfl, fun _ => rfl⟩, fun _ => rfl, rfl, rfl⟩

/-- Everything `Emit` can do (R117). -/
theorem emit_cases {v : Word} {after : State → State} {s t : State} (h : emit v after s = .next t) :
    (s.ocnt = s.params.outMax ∧ t = raise .capacity s)
      ∨ (s.ocnt < s.params.outMax ∧ t = after (s.append v)) := by
  simp only [emit] at h
  split at h
  · next hf => exact .inl ⟨hf, by simpa using h.symm⟩
  · split at h
    · next hl => exact .inr ⟨hl, by simpa using h.symm⟩
    · cases h

/-- `Emit` never stops while OCNT is in range. -/
theorem emit_completes (v : Word) (after : State → State) {s : State} (h : s.ocnt ≤ s.params.outMax) :
    ∃ t, emit v after s = .next t := by
  simp only [emit]
  split
  · exact ⟨_, rfl⟩
  · next hne => exact ⟨_, by rw [if_pos (Nat.lt_of_le_of_ne h hne)]⟩

/-! ### Host writes -/

/-- The busy write lock (R149): a host write that lands finds the block not busy. -/
theorem whenFree_cases (write : State → State) (s : State) :
    (s.busy = true ∧ whenFree write s = s) ∨ (s.busy = false ∧ whenFree write s = write s) := by
  cases h : s.busy <;> simp [whenFree, h]

/-- What "busy" is, by the phase (R29). -/
theorem State.busy_iff (s : State) :
    s.busy = true ↔ s.phase = .unpack ∨ s.phase = .walk ∨ s.phase = .repeatLeaf := by
  cases h : s.phase <;> simp [State.busy, h]

/-- The two things `Start` can do (R143). -/
theorem startRun_cases (s : State) :
    ((s.params.treeMax < s.treeLen.toNat ∨ s.params.dataMax < s.dataBytes.toNat)
        ∧ startRun s = raise .capacity { s with err := .none, ocnt := 0 })
      ∨ (s.treeLen.toNat ≤ s.params.treeMax ∧ s.dataBytes.toNat ≤ s.params.dataMax
        ∧ startRun s = { s with err := .none, ocnt := 0, pos := 0, sp := 0, phase := .unpack }) := by
  simp only [startRun]
  split
  · next h => exact .inl ⟨h, rfl⟩
  · next h => exact .inr ⟨by omega, by omega, rfl⟩

/-- What a register write can do (R142). -/
theorem regWrite_cases (i v : Word) (s : State) :
    regWrite i v s = s ∨ regWrite i v s = startRun s ∨ regWrite i v s = { s with treeLen := v }
      ∨ regWrite i v s = { s with dataBytes := v } ∨ regWrite i v s = { s with dataLen := v }
      ∨ regWrite i v s = { s with repeatReg := v } := by
  simp only [regWrite]
  split
  · split <;> simp
  all_goals simp

/-! ### Tree entries -/

/-- A tree entry that answers a next state ran in phase UNPACK with its frames in range. -/
theorem inUnpack_next {s t : State} {body : Result} (h : inUnpack s body = .next t) :
    s.phase = .unpack ∧ s.stackInRange = true ∧ body = .next t := by
  simp only [inUnpack] at h
  split at h
  · cases h
  · next hp =>
    split at h
    · next hr => exact ⟨not_not.mp hp, hr, h⟩
    · cases h

/-- `inUnpack` passes its body on when the preconditions hold. -/
theorem inUnpack_eq {s : State} (body : Result) (hp : s.phase = .unpack) (hr : s.stackInRange = true) :
    inUnpack s body = body := by
  simp [inUnpack, hp, hr]

/-- `Open` that answers a next state wrote inside NODE and STACK. -/
theorem openNode_next {k : Kind} {sym : Word} {s t : State} (h : openNode k sym s = .next t) :
    s.pos < s.params.treeMax ∧ s.sp < s.params.treeMax
      ∧ t = pushFrame (linkParent (openRecord k sym s)) := by
  simp only [openNode] at h
  split at h
  · cases h
  · split at h
    · cases h
    · exact ⟨by omega, by omega, by simpa using h.symm⟩

/-- Everything a node marker can do (R91, R92). -/
theorem nodeMarker_next {k : Kind} {sym : Word} {s t : State} (h : nodeMarker k sym s = .next t) :
    (s.ctx = .under .leaf ∧ t = raise .malformedTree s)
      ∨ (s.ctx ≠ .under .leaf ∧ s.pos < s.params.treeMax ∧ s.sp < s.params.treeMax
        ∧ t = pushFrame (linkParent (openRecord k sym s))) := by
  obtain ⟨-, -, h⟩ := inUnpack_next h
  split at h
  · next hc => exact .inl ⟨hc, by simpa using h.symm⟩
  · next hc => exact .inr ⟨hc, openNode_next h⟩

/-! The record `linkParent` writes (R97): the parent's, with the link its frame's stage names. -/

@[simp] theorem linkedRecord_kind (s : State) : (linkedRecord s).kind = (s.nodeAt s.top.idx).kind := by
  simp only [linkedRecord]; split <;> rfl

@[simp] theorem linkedRecord_sym (s : State) : (linkedRecord s).sym = (s.nodeAt s.top.idx).sym := by
  simp only [linkedRecord]; split <;> rfl

theorem linkedRecord_left (s : State) :
    (linkedRecord s).left = if s.top.stage = .left then s.pos else (s.nodeAt s.top.idx).left := by
  simp only [linkedRecord]; split <;> simp_all

theorem linkedRecord_right (s : State) :
    (linkedRecord s).right = if s.top.stage = .right then s.pos else (s.nodeAt s.top.idx).right := by
  simp only [linkedRecord]; split <;> simp_all

/-- The two things `linkParent` can do. -/
theorem linkParent_cases (s : State) :
    (s.sp = 0 ∧ linkParent s = s) ∨ (0 < s.sp ∧ linkParent s = s.setNode s.top.idx (linkedRecord s)) := by
  simp only [linkParent]
  split
  · next h => exact .inl ⟨h, rfl⟩
  · next h => exact .inr ⟨by omega, rfl⟩

/-- `Open` changes NODE, STACK and the two pointers only. -/
theorem open_eq (k : Kind) (sym : Word) (s : State) :
    ∃ m f, pushFrame (linkParent (openRecord k sym s))
      = { s with node := m, stack := f, sp := s.sp + 1, pos := s.pos + 1 } := by
  rcases linkParent_cases (openRecord k sym s) with ⟨-, h⟩ | ⟨-, h⟩ <;> rw [h] <;> exact ⟨_, _, rfl⟩

/-- The records after `Open`. -/
theorem open_nodeAt (k : Kind) (sym : Word) (s : State) (a : Nat) :
    (pushFrame (linkParent (openRecord k sym s))).nodeAt a
      = if 0 < s.sp ∧ a = s.top.idx then linkedRecord (openRecord k sym s)
        else if a = s.pos then { s.nodeAt s.pos with kind := k, sym := sym } else s.nodeAt a := by
  have hp : ∀ t : State, (pushFrame t).nodeAt a = t.nodeAt a := fun _ => rfl
  have hn : (openRecord k sym s).nodeAt a
      = if a = s.pos then { s.nodeAt s.pos with kind := k, sym := sym } else s.nodeAt a :=
    State.nodeAt_setNode s.pos a _ s
  rw [hp]
  rcases linkParent_cases (openRecord k sym s) with ⟨h0, h⟩ | ⟨h0, h⟩
  · have h0 : s.sp = 0 := h0
    rw [h, hn, if_neg (by omega : ¬(0 < s.sp ∧ a = s.top.idx))]
  · have h0 : 0 < s.sp := h0
    have ht : (openRecord k sym s).top = s.top := rfl
    rw [h, State.nodeAt_setNode, ht, hn]
    by_cases ha : a = s.top.idx
    · rw [if_pos ha, if_pos ⟨h0, ha⟩]
    · rw [if_neg ha, if_neg (show ¬(0 < s.sp ∧ a = s.top.idx) from fun h => ha h.2)]

/-- The frames after `Open`. -/
theorem open_frameAt (k : Kind) (sym : Word) (s : State) (a : Nat) :
    (pushFrame (linkParent (openRecord k sym s))).frameAt a
      = if a = s.sp then { idx := s.pos, stage := .left } else s.frameAt a := by
  have hp : ∀ t : State, (pushFrame t).frameAt a
      = if a = t.sp then { idx := t.pos, stage := .left } else t.frameAt a :=
    fun t => State.frameAt_setFrame t.sp a _ t
  rw [hp]
  rcases linkParent_cases (openRecord k sym s) with ⟨-, h⟩ | ⟨-, h⟩ <;> rw [h] <;> rfl

/-- What `Open` does and leaves unchanged (R97). -/
theorem open_opened (k : Kind) (sym : Word) (s : State) :
    opened k sym s (pushFrame (linkParent (openRecord k sym s))) := by
  have ht : (openRecord k sym s).top = s.top := rfl
  have hp : (openRecord k sym s).pos = s.pos := rfl
  have hn : ∀ a, (openRecord k sym s).nodeAt a
      = if a = s.pos then { s.nodeAt s.pos with kind := k, sym := sym } else s.nodeAt a :=
    fun a => State.nodeAt_setNode s.pos a _ s
  have hk : ((openRecord k sym s).nodeAt s.pos).kind = k
      ∧ ((openRecord k sym s).nodeAt s.pos).sym = sym := by simp [hn]
  have hl : ∀ a, ((openRecord k sym s).nodeAt a).left = (s.nodeAt a).left := fun a => by
    rw [hn]; split <;> simp_all
  have hr : ∀ a, ((openRecord k sym s).nodeAt a).right = (s.nodeAt a).right := fun a => by
    rw [hn]; split <;> simp_all
  obtain ⟨m, f, he⟩ := open_eq k sym s
  have frame : ∀ t : State, t = { s with node := m, stack := f, sp := s.sp + 1, pos := s.pos + 1 } →
      t.pos = s.pos + 1 ∧ t.sp = s.sp + 1 ∧ sameInputs s t ∧ sameOut s t ∧ sameCursor s t ∧ sameFlags s t
        ∧ sameHost s t := by
    rintro t rfl
    exact ⟨rfl, rfl, ⟨rfl, rfl, rfl, rfl, rfl, fun _ => rfl, fun _ => rfl⟩, fun _ => rfl, ⟨rfl, rfl, rfl⟩,
      ⟨rfl, rfl, rfl⟩, ⟨rfl, rfl⟩⟩
  obtain ⟨h1, h2, h3, h4, h5, h6, h7⟩ := frame _ he
  refine ⟨h1, h2, ?_, ?_, ?_, ?_, ?_, ?_, ?_, ?_, h3, h4, h5, h6, h7⟩
  · rw [open_nodeAt]
    split
    · next h => rw [linkedRecord_kind, ht, ← h.2]; exact hk.1
    · simp
  · rw [open_nodeAt]
    split
    · next h => rw [linkedRecord_sym, ht, ← h.2]; exact hk.2
    · simp
  · rw [open_frameAt, if_pos rfl]
  · intro h hs
    rw [open_nodeAt, if_pos ⟨h, rfl⟩, linkedRecord_left, linkedRecord_right, ht, hp, hr]
    simp [hs]
  · intro h hs
    rw [open_nodeAt, if_pos ⟨h, rfl⟩, linkedRecord_left, linkedRecord_right, ht, hp, hl]
    simp [hs]
  · intro h hne
    rw [open_nodeAt, if_pos ⟨h, rfl⟩, linkedRecord_kind, linkedRecord_sym, ht, hn, if_neg hne]
    exact ⟨rfl, rfl⟩
  · intro a ha hb
    rw [open_nodeAt, if_neg (fun h => hb h.1 h.2), if_neg ha]
  · intro a ha
    rw [open_frameAt, if_neg ha]

/-- Everything the loop of `Complete` can do: it stops at a frame whose left position was read, or it
finishes the root. -/
theorem completeFrames_cases (s : State) (n : Nat) :
    completeFrames s n = finishRoot { s with sp := 0 }
      ∨ ∃ m, m < n ∧ (s.frameAt m).stage = .left
        ∧ completeFrames s n = { s.setFrame m { idx := (s.frameAt m).idx, stage := .right } with sp := m + 1 } := by
  induction n with
  | zero => exact .inl rfl
  | succ n ih =>
    simp only [completeFrames]
    split
    · next h => exact .inr ⟨n, by omega, h, rfl⟩
    · rcases ih with h | ⟨m, hm, hs, h⟩
      · exact .inl h
      · exact .inr ⟨m, by omega, hs, h⟩

/-- Everything `Finish` and `Dispatch` can do (R97, R99). -/
theorem finishRoot_cases (s : State) :
    (s.pos ≠ s.treeLen.toNat ∧ finishRoot s = raise .malformedTree s)
      ∨ (s.pos = s.treeLen.toNat ∧ 8 * s.dataBytes.toNat < s.dataLen.toNat
        ∧ finishRoot s = raise .truncatedStream s)
      ∨ (s.pos = s.treeLen.toNat ∧ (s.nodeAt 0).kind = .leaf ∧ s.dataLen ≠ 0#32
        ∧ finishRoot s = raise .truncatedStream s)
      ∨ (s.pos = s.treeLen.toNat ∧ (s.nodeAt 0).kind = .leaf ∧ s.dataLen = 0#32
        ∧ finishRoot s = { s with repcnt := 0, phase := .repeatLeaf })
      ∨ (s.pos = s.treeLen.toNat ∧ s.dataLen.toNat ≤ 8 * s.dataBytes.toNat ∧ (s.nodeAt 0).kind = .internal
        ∧ finishRoot s = { s with cur := 0, bitpos := 0, phase := .walk }) := by
  simp only [finishRoot, leaveUnpack]
  split
  · next hp =>
    split
    · next hb => exact .inr (.inl ⟨hp, hb, rfl⟩)
    · next hb =>
      split
      · next hk =>
        split
        · next hd => exact .inr (.inr (.inr (.inl ⟨hp, hk, hd, rfl⟩)))
        · next hd => exact .inr (.inr (.inl ⟨hp, hk, hd, rfl⟩))
      · next hk => exact .inr (.inr (.inr (.inr ⟨hp, by omega, hk, rfl⟩)))
  · next hp => exact .inl ⟨hp, rfl⟩

/-! ### Stream bits -/

/-- Everything arriving at a node can do (R114). -/
theorem arrive_next {nxt : Nat} {s t : State} (h : arrive nxt s = .next t) :
    nxt < s.params.treeMax ∧
      (((s.nodeAt nxt).kind = .leaf ∧ emit (s.nodeAt nxt).sym (fun u => { u with cur := 0 }) s = .next t)
        ∨ ((s.nodeAt nxt).kind = .internal ∧ t = { s with cur := nxt })) := by
  simp only [arrive] at h
  split at h
  · next hn =>
    split at h
    · next hk => exact ⟨hn, .inl ⟨hk, h⟩⟩
    · next hk => exact ⟨hn, .inr ⟨hk, by simpa using h.symm⟩⟩
  · cases h

/-- A consumed bit that answers a next state ran in phase WALK (R111). -/
theorem moveTo_next {child : NodeRec → Nat} {s t : State} (h : moveTo child s = .next t) :
    s.phase = .walk ∧ s.cur < s.params.treeMax
      ∧ arrive (child (s.nodeAt s.cur)) { s with bitpos := s.bitpos + 1 } = .next t := by
  simp only [moveTo] at h
  split at h
  · cases h
  · next hp =>
    split at h
    · cases h
    · exact ⟨not_not.mp hp, by omega, h⟩

/-- Everything the end of the stream can do (R115, R116). -/
theorem endStream_cases (s : State) :
    (s.cur = 0 ∧ endStream s = { s with phase := .done })
      ∨ (s.cur ≠ 0 ∧ endStream s = raise .truncatedStream s) := by
  simp only [endStream]
  split
  · next h => exact .inl ⟨h, rfl⟩
  · next h => exact .inr ⟨h, rfl⟩

/-! ### One step -/

/-- With the engine's turn next, a step is the engine's turn. -/
theorem fetch_engineNext {s : State} (h : s.engineNext) : fetch s = engineTurn s.rest := by
  obtain ⟨_, _, _, _, _, _, _, _, _, _, _, _, _, _, _, _, _, _, _, _, _, _, script⟩ := s
  rcases script with _ | ⟨_ | w | _, rest⟩
  · rfl
  · rfl
  · rcases h with h | h <;> simp at h
  · rcases h with h | h <;> simp at h

/-- Everything the next step can be (R11). -/
theorem fetch_cases (s : State) :
    (∃ w, s.script.head? = some (.host w) ∧ fetch s = .run (decodeHost w.toNat) s.rest)
      ∨ (s.script.head? = some .reset ∧ fetch s = .ended (.next s.rest.resetBlock))
      ∨ ((s.script = [] ∨ s.script.head? = some .engine) ∧ fetch s = engineTurn s.rest) := by
  obtain ⟨_, _, _, _, _, _, _, _, _, _, _, _, _, _, _, _, _, _, _, _, _, _, script⟩ := s
  rcases script with _ | ⟨_ | w | _, rest⟩
  · exact .inr (.inr ⟨.inl rfl, rfl⟩)
  · exact .inr (.inr ⟨.inr rfl, rfl⟩)
  · exact .inl ⟨w, rfl, rfl⟩
  · exact .inr (.inl ⟨rfl, rfl⟩)

/-- Everything an engine turn can be (R97, R111, R132, R12). -/
theorem engineTurn_cases (s : State) :
    (s.phase = .unpack ∧ s.treeLen.toNat ≤ s.pos ∧ engineTurn s = .ended (.next (raise .malformedTree s)))
      ∨ (s.phase = .unpack ∧ s.pos < s.treeLen.toNat ∧ s.pos < s.params.treeMax
        ∧ engineTurn s = .run (s.entryInstr s.pos) s)
      ∨ (s.phase = .unpack ∧ s.pos < s.treeLen.toNat ∧ s.params.treeMax ≤ s.pos
        ∧ engineTurn s = .ended (.fault (.outOfSpace .tree)))
      ∨ (s.phase = .walk ∧ s.bitpos = s.dataLen.toNat ∧ engineTurn s = .ended (.next (endStream s)))
      ∨ (s.phase = .walk ∧ s.bitpos ≠ s.dataLen.toNat ∧ s.bitpos / 8 < s.params.dataMax
        ∧ engineTurn s = .run (if s.streamBit s.bitpos then .right else .left) s)
      ∨ (s.phase = .walk ∧ s.bitpos ≠ s.dataLen.toNat ∧ s.params.dataMax ≤ s.bitpos / 8
        ∧ engineTurn s = .ended (.fault (.outOfSpace .data)))
      ∨ (s.phase = .repeatLeaf ∧ engineTurn s = .ended (repeatStep s))
      ∨ (s.busy = false ∧ engineTurn s = .ended (.next s)) := by
  cases hp : s.phase <;> simp only [engineTurn, hp, fetchEntry, fetchBit, State.busy, State.entryInstr]
  · simp
  · split
    · simp_all
    · split <;> simp_all
  · split
    · simp_all
    · split
      · cases s.streamBit s.bitpos <;> simp_all [decodeBit]
      · simp_all
  all_goals simp

end Sys2Proof.Machine
end

