-- ==== Sys2Proof/Laws/Runs.lean ====
section
/-!
SUPPORT. Several steps one after the other.
-/

namespace Sys2Proof.Machine

theorem steps_zero (s : State) : steps 0 s = .next s := rfl

/-- One step first, then the rest. -/
theorem steps_succ {k : Nat} {s t : State} (h : step s = .next t) : steps (k + 1) s = steps k t := by
  simp only [steps, h]

theorem steps_one {s t : State} (h : step s = .next t) : steps 1 s = .next t := by
  rw [steps_succ h, steps_zero]

/-- Runs compose. -/
theorem steps_add {j k : Nat} {s t : State} (h : steps j s = .next t) : steps (j + k) s = steps k t := by
  induction j generalizing s with
  | zero => cases h; rw [Nat.zero_add]
  | succ j ih =>
    rw [Nat.succ_add]
    simp only [steps] at h ⊢
    split at h
    · exact ih h
    · cases h
    · cases h

/-- A property every step keeps holds after any number of steps. -/
theorem steps_induct {P : State → Prop} (hP : ∀ s t, P s → step s = .next t → P t) {k : Nat} {s t : State}
    (h : P s) (hk : steps k s = .next t) : P t := by
  induction k generalizing s with
  | zero => cases hk; exact h
  | succ k ih =>
    simp only [steps] at hk
    split at hk
    · next u hu => exact ih (hP s u h hu) hk
    · cases hk
    · cases hk

/-- With nothing in the script, taking a move off it changes nothing. -/
theorem rest_of_nil {s : State} (h : s.script = []) : s.rest = s := by
  obtain ⟨_, _, _, _, _, _, _, _, _, _, _, _, _, _, _, _, _, _, _, _, _, _, script⟩ := s
  cases h
  rfl

end Sys2Proof.Machine
end

