-- ==== Sys2Proof/Laws/Interleave.lean ====
section
/-!
SUPPORT. Runs with host operations between the engine's turns (R11, R195): each step takes one move off the
script, a host operation leaves a busy block alone, and one induction over such a run.
-/

namespace Sys2Proof.Machine

/-! ### The script -/

theorem startRun_script (s : State) : (startRun s).script = s.script := by
  rcases startRun_cases s with ⟨-, h⟩ | ⟨-, -, h⟩ <;> simp [h]

theorem regWrite_script (i v : Word) (s : State) : (regWrite i v s).script = s.script := by
  rcases regWrite_cases i v s with h | h | h | h | h | h <;> rw [h]
  exact startRun_script s

theorem finishRoot_script (s : State) : (finishRoot s).script = s.script := by
  rcases finishRoot_cases s with ⟨-, h⟩ | ⟨-, -, h⟩ | ⟨-, -, -, h⟩ | ⟨-, -, -, h⟩ | ⟨-, -, -, h⟩ <;>
    simp [h]

theorem complete_script (s : State) : (complete s).script = s.script := by
  rcases completeFrames_cases { s with pos := s.pos + 1 } s.sp with h | ⟨m, -, -, h⟩
  · rw [complete, h, finishRoot_script]
  · rw [complete, h]; rfl

theorem endStream_script (s : State) : (endStream s).script = s.script := by
  rcases endStream_cases s with ⟨-, h⟩ | ⟨-, h⟩ <;> simp [h]

theorem whenFree_script {write : State → State} (hw : ∀ u, (write u).script = u.script) (s : State) :
    (whenFree write s).script = s.script := by
  rcases whenFree_cases write s with ⟨-, h⟩ | ⟨-, h⟩ <;> rw [h]
  exact hw s

theorem nodeMarker_script {k : Kind} {sym : Word} {s t : State} (h : nodeMarker k sym s = .next t) :
    t.script = s.script := by
  rcases nodeMarker_next h with ⟨-, rfl⟩ | ⟨-, -, -, rfl⟩
  · rfl
  · obtain ⟨m, f, he⟩ := open_eq k sym s
    rw [he]

theorem moveTo_script {child : NodeRec → Nat} {s t : State} (h : moveTo child s = .next t) :
    t.script = s.script := by
  obtain ⟨-, -, h⟩ := moveTo_next h
  obtain ⟨-, ⟨-, h⟩ | ⟨-, rfl⟩⟩ := arrive_next h
  · rcases emit_cases h with ⟨-, rfl⟩ | ⟨-, rfl⟩ <;> rfl
  · rfl

/-- No instruction touches the script. -/
theorem exec_script {i : Instr} {s t : State} (h : exec i s = .next t) : t.script = s.script := by
  cases i with
  | internal sym => exact nodeMarker_script h
  | leaf sym => exact nodeMarker_script h
  | absent sym =>
    obtain ⟨-, -, h⟩ := inUnpack_next h
    injection h with h
    rw [← h]
    split
    · exact complete_script s
    · rfl
  | rsvd sym =>
    simp only [exec, execRsvd] at h
    split at h
    · cases h
    · injection h with h; rw [← h]; rfl
  | left => exact moveTo_script h
  | right => exact moveTo_script h
  | wrreg i v => injection h with h; rw [← h]; exact whenFree_script (regWrite_script i v) s
  | start u => injection h with h; rw [← h]; exact whenFree_script startRun_script s
  | wrtree i v => injection h with h; rw [← h]; exact whenFree_script (fun u => by split <;> rfl) s
  | wrdata i v => injection h with h; rw [← h]; exact whenFree_script (fun u => by split <;> rfl) s
  | rdout i v =>
    injection h with h
    rw [← h]
    split
    · rfl
    · split <;> rfl
  | wrout i v => injection h with h; rw [← h]
  | _ => injection h with h; rw [← h, State.reply_script]

/-- Every step takes exactly one move off the script; an empty script stays empty. -/
theorem step_script {s t : State} (h : step s = .next t) : t.script = s.script.tail := by
  rcases fetch_cases s with ⟨w, -, hf⟩ | ⟨-, hf⟩ | ⟨-, hf⟩ <;> rw [step, hf] at h
  · exact exec_script h
  · injection h with h; rw [← h]; rfl
  · rcases engineTurn_cases s.rest with ⟨-, -, he⟩ | ⟨-, -, -, he⟩ | ⟨-, -, -, he⟩ | ⟨-, -, he⟩ | ⟨-, -, -, he⟩
      | ⟨-, -, -, he⟩ | ⟨-, he⟩ | ⟨-, he⟩ <;> rw [he] at h
    · injection h with h; rw [← h]; rfl
    · exact exec_script h
    · cases h
    · injection h with h; rw [← h]; exact endStream_script _
    · exact exec_script h
    · cases h
    · simp only [repeatStep] at h
      split at h
      · injection h with h; rw [← h]; rfl
      · rcases emit_cases h with ⟨-, rfl⟩ | ⟨-, rfl⟩ <;> rfl
    · injection h with h; rw [← h]; rfl

/-! ### Host operations on a busy block (R149) -/

/-- While busy, a decoded host operation changes nothing but the host's own side and the count of draws. -/
theorem exec_decodeHost_busy (w : Nat) {s : State} (hb : s.busy = true) :
    ∃ d r, exec (decodeHost w) s = .next { s with draws := d, hostRead := r } := by
  have drop : ∀ write, whenFree write s = s := fun write => by simp [whenFree, hb]
  simp only [decodeHost, hostOpOf]
  split
  · exact ⟨_, _, rfl⟩
  · exact ⟨_, _, rfl⟩
  · exact ⟨_, _, rfl⟩
  · simp only [exec, execRdout]
    split
    · exact ⟨_, _, rfl⟩
    · split <;> exact ⟨_, _, rfl⟩
  · split
    · exact ⟨s.draws, s.hostRead, congrArg _ (drop _)⟩
    · exact ⟨s.draws, s.hostRead, congrArg _ (drop _)⟩
  · exact ⟨s.draws, s.hostRead, congrArg _ (drop _)⟩
  · exact ⟨s.draws, s.hostRead, congrArg _ (drop _)⟩
  · exact ⟨s.draws, s.hostRead, rfl⟩

/-! ### Where a run ends (R12) -/

theorem runEnds_zero {s : State} (h : s.busy = false) : runEnds 0 s s :=
  ⟨rfl, h, fun _ hj => absurd hj (Nat.not_lt_zero _)⟩

theorem runEnds_succ {k : Nat} {s t e : State} (hb : s.busy = true) (h : step s = .next t) (he : runEnds k t e) :
    runEnds (k + 1) s e := by
  refine ⟨by rw [steps_succ h]; exact he.1, he.2.1, fun j hj => ?_⟩
  cases j with
  | zero => exact ⟨s, rfl, hb⟩
  | succ j => rw [steps_succ h]; exact he.2.2 j (by omega)

/-- A run has one end. -/
theorem runEnds_unique {k k' : Nat} {s t t' : State} (h : runEnds k s t) (h' : runEnds k' s t') :
    k = k' ∧ t = t' := by
  have hk : k = k' := by
    rcases Nat.lt_trichotomy k k' with hlt | heq | hlt
    · obtain ⟨b, hb, hbusy⟩ := h'.2.2 k hlt
      rw [h.1] at hb
      injection hb with hb
      rw [← hb, h.2.1] at hbusy
      cases hbusy
    · exact heq
    · obtain ⟨b, hb, hbusy⟩ := h.2.2 k' hlt
      rw [h'.1] at hb
      injection hb with hb
      rw [← hb, h'.2.1] at hbusy
      cases hbusy
  subst hk
  have := h.1.symm.trans h'.1
  injection this with this
  exact ⟨rfl, this⟩

/-- The induction over a run with host operations in it. `P n s` says what holds in `s` with at most `n`
engine turns to go: the engine's turn uses one up, a host operation none, and with none left the run is over.
If no RESET comes within `n` engine turns the run ends in a state with `P`. -/
theorem runEnds_of_measure {P : Nat → State → Prop}
    (hpos : ∀ n s, P n s → s.busy = true → 0 < n)
    (hengine : ∀ n s, P (n + 1) s → s.busy = true → s.engineNext → ∃ t, step s = .next t ∧ P n t)
    (hhost : ∀ n s w, P n s → s.busy = true → s.script.head? = some (.host w) → ∃ t, step s = .next t ∧ P n t)
    (n : Nat) (s : State) (h : P n s)
    (hs : .reset ∉ s.script ∨ n ≤ (s.script.takeWhile (· ≠ .reset)).count .engine) :
    ∃ k m t, runEnds k s t ∧ P m t
      ∧ k ≤ n + s.script.countP (fun m => decide (m ≠ .engine ∧ m ≠ .reset)) := by
  generalize hl : s.script = l at hs ⊢
  induction l generalizing n s with
  | nil =>
    induction n generalizing s with
    | zero =>
      have hb : s.busy = false := Bool.eq_false_iff.mpr fun hb => Nat.lt_irrefl 0 (hpos 0 s h hb)
      exact ⟨0, 0, s, runEnds_zero hb, h, Nat.zero_le _⟩
    | succ n ih =>
      cases hb : s.busy with
      | false => exact ⟨0, n + 1, s, runEnds_zero hb, h, Nat.zero_le _⟩
      | true =>
        obtain ⟨t, ht, hp⟩ := hengine n s h hb (.inl hl)
        obtain ⟨k, m, e, he, hm, hk⟩ := ih t hp (by rw [step_script ht, hl]; rfl) (.inl (by simp))
        exact ⟨k + 1, m, e, runEnds_succ hb ht he, hm, by omega⟩
  | cons a l ih =>
    cases hb : s.busy with
    | false => exact ⟨0, n, s, runEnds_zero hb, h, Nat.zero_le _⟩
    | true =>
      have hn := hpos n s h hb
      obtain ⟨n, rfl⟩ : ∃ m, n = m + 1 := ⟨n - 1, by omega⟩
      cases a with
      | engine =>
        obtain ⟨t, ht, hp⟩ := hengine n s h hb (.inr (by rw [hl]; rfl))
        obtain ⟨k, m, e, he, hm, hk⟩ := ih n t hp (by rw [step_script ht, hl]; rfl) (by
          rcases hs with hs | hs
          · exact .inl fun hr => hs (List.mem_cons_of_mem _ hr)
          · right; simpa using hs)
        refine ⟨k + 1, m, e, runEnds_succ hb ht he, hm, ?_⟩
        rw [List.countP_cons]
        omega
      | host w =>
        obtain ⟨t, ht, hp⟩ := hhost (n + 1) s w h hb (by rw [hl]; rfl)
        obtain ⟨k, m, e, he, hm, hk⟩ := ih (n + 1) t hp (by rw [step_script ht, hl]; rfl) (by
          rcases hs with hs | hs
          · exact .inl fun hr => hs (List.mem_cons_of_mem _ hr)
          · right; simpa using hs)
        refine ⟨k + 1, m, e, runEnds_succ hb ht he, hm, ?_⟩
        rw [List.countP_cons]
        simp only [ne_eq, reduceCtorEq, not_false_eq_true, and_self, decide_true, if_true]
        simp only [ne_eq] at hk
        omega
      | reset =>
        rcases hs with hs | hs
        · exact absurd (List.mem_cons_self ..) hs
        · simp at hs

end Sys2Proof.Machine
end

