-- ==== Sys2Proof/Laws/Inv.lean ====
section
/-!
SUPPORT. The shared operations keep the invariant of R44.
-/

namespace Sys2Proof

/-- TREE_MAX is not 0. -/
theorem Params.treeMax_pos (p : Params) : 0 < p.treeMax := Nat.two_pow_pos _

/-- TREE_MAX is within the range of POS and SP, which have one bit more. -/
theorem Params.treeMax_lt (p : Params) : p.treeMax < 2 ^ (p.treeAW + 1) := by
  simp only [Params.treeMax, Nat.pow_succ]
  have := Nat.two_pow_pos p.treeAW
  omega

end Sys2Proof

namespace Sys2Proof.Machine

/-! ### What is read fits -/

/-- A record of NODE fits its widths, listed or drawn. -/
theorem State.nodeAt_fits {s : State} (h : s.memoriesFit) (i : Nat) :
    (s.nodeAt i).sym.toNat < 2 ^ s.params.symW ∧ (s.nodeAt i).left < s.params.treeMax
      ∧ (s.nodeAt i).right < s.params.treeMax := by
  simp only [State.nodeAt]
  cases hr : Memory.read s.node i with
  | none => exact ⟨cut_lt _, Nat.mod_lt _ s.params.treeMax_pos, Nat.mod_lt _ s.params.treeMax_pos⟩
  | some r => exact (h.2.2.2.1.2 _ (Memory.mem_of_read hr)).2

/-- A frame of STACK fits its widths, listed or drawn. -/
theorem State.frameAt_fits {s : State} (h : s.memoriesFit) (i : Nat) : (s.frameAt i).idx < s.params.treeMax := by
  simp only [State.frameAt]
  cases hr : Memory.read s.stack i with
  | none => exact Nat.mod_lt _ s.params.treeMax_pos
  | some r => exact (h.2.2.2.2.2 _ (Memory.mem_of_read hr)).2

/-- An entry read from TREE has ENTRY_W bits. -/
theorem State.entryAt_lt (s : State) (i : Nat) : (s.entryAt i).toNat < 2 ^ s.params.entryW := cut_lt _

/-- A decoded entry is well formed: its SYM field has SYM_W bits. -/
theorem decodeEntry_wellFormed (p : Params) (e : Nat) : (decodeEntry p e).WellFormed p = true := by
  have h : (BitVec.ofNat 32 (e % 2 ^ p.symW)).toNat < 2 ^ p.symW := by
    simp only [BitVec.toNat_ofNat]
    exact lt_of_le_of_lt (Nat.mod_le _ _) (Nat.mod_lt _ (by positivity))
  simp only [decodeEntry, entryOfTag]
  split <;> simp only [Instr.WellFormed, decide_eq_true_eq] <;> exact h

/-! ### Errors and reset -/

theorem State.unspecify_registersFit {s : State} (h : s.ocnt ≤ s.params.outMax) : s.unspecify.registersFit :=
  ⟨Nat.mod_lt _ (by positivity), Nat.mod_lt _ (by positivity), Nat.mod_lt _ s.params.treeMax_pos,
    Nat.mod_lt _ (by positivity), Nat.mod_lt _ (by positivity), h⟩

/-- `raise` reaches a state of phase ERROR that satisfies the invariant. -/
theorem raise_inv {e : Err} {s : State} (he : e ≠ .none) (hm : s.memoriesFit) : (raise e s).Inv := by
  refine ⟨⟨Nat.mod_lt _ (by positivity), Nat.mod_lt _ (by positivity), Nat.mod_lt _ s.params.treeMax_pos,
    Nat.mod_lt _ (by positivity), Nat.mod_lt _ (by positivity), Nat.zero_le _⟩,
    ⟨hm.1, hm.2.1, hm.2.2.1, Memory.within_nil _ _, Memory.within_nil _ _⟩, ?_⟩
  simp [State.phaseFits, he]

/-- RESET reaches a state that satisfies the invariant, from every state (R190). -/
theorem resetBlock_inv (s : State) : s.resetBlock.Inv := by
  refine ⟨⟨Nat.mod_lt _ (by positivity), Nat.mod_lt _ (by positivity), Nat.mod_lt _ s.params.treeMax_pos,
    Nat.mod_lt _ (by positivity), Nat.mod_lt _ (by positivity), Nat.zero_le _⟩,
    ⟨Memory.within_nil _ _, Memory.within_nil _ _, Memory.within_nil _ _, Memory.within_nil _ _,
      Memory.within_nil _ _⟩, ?_⟩
  simp [State.phaseFits]

/-! ### The host -/

/-- Nothing the invariant speaks of changes when the host's side does. -/
theorem State.Inv.withHost {s : State} (h : s.Inv) (d : Nat) (r : Option Word) (m : List Move) :
    ({ s with draws := d, hostRead := r, script := m } : State).Inv := h

/-- `Start` keeps the invariant. -/
theorem startRun_inv {s : State} (h : s.Inv) : (startRun s).Inv := by
  obtain ⟨hr, hm, hp⟩ := h
  rcases startRun_cases s with ⟨-, h⟩ | ⟨ht, hd, h⟩ <;> rw [h]
  · exact raise_inv (by simp) hm
  · refine ⟨⟨by positivity, by positivity, hr.2.2.1, hr.2.2.2.1, hr.2.2.2.2.1, Nat.zero_le _⟩, hm, ?_⟩
    exact ⟨by simp, by simp, fun _ => ⟨ht, hd, by simp, by simp⟩, by simp, by simp⟩

/-- A register write that lands keeps the invariant. -/
theorem regWrite_inv {s : State} (i v : Word) (hb : s.busy = false) (h : s.Inv) : (regWrite i v s).Inv := by
  have hp : s.phase ≠ .unpack ∧ s.phase ≠ .walk ∧ s.phase ≠ .repeatLeaf := by
    rw [← Bool.not_eq_true, State.busy_iff] at hb
    tauto
  obtain ⟨hr, hm, hf⟩ := h
  have key : ∀ t : State, t.registersFit → t.memoriesFit → t.phase = s.phase → t.err = s.err →
      t.ocnt = s.ocnt → t.Inv := fun t h1 h2 h3 h4 h5 =>
    ⟨h1, h2, by rw [h3, h4]; exact hf.1, by rw [h3, h5]; exact hf.2.1, fun h => absurd (h3 ▸ h) hp.1,
      fun h => absurd (h3 ▸ h) hp.2.1, fun h => absurd (h3 ▸ h) hp.2.2⟩
  rcases regWrite_cases i v s with h | h | h | h | h | h <;> rw [h]
  · exact ⟨hr, hm, hf⟩
  · exact startRun_inv ⟨hr, hm, hf⟩
  all_goals exact key _ hr hm rfl rfl rfl

/-! ### Emit -/

/-- Appending a symbol that fits keeps widths and memories. -/
theorem append_fits {s : State} {v : Word} (hr : s.registersFit) (hm : s.memoriesFit)
    (ho : s.ocnt < s.params.outMax) (hv : v.toNat < 2 ^ s.params.symW) :
    (s.append v).registersFit ∧ (s.append v).memoriesFit :=
  ⟨⟨hr.1, hr.2.1, hr.2.2.1, hr.2.2.2.1, hr.2.2.2.2.1, ho⟩, hm.1, hm.2.1,
    Memory.within_write hm.2.2.1 ho hv, hm.2.2.2⟩

/-! ### The unpacker -/

/-- The loop of `Complete` keeps the invariant, started with at most POS frames. -/
theorem completeFrames_inv {s : State} {n : Nat} (hr : s.registersFit) (hm : s.memoriesFit)
    (hph : s.phase = .unpack) (herr : s.err = .none) (ho : s.ocnt = 0)
    (ht : s.treeLen.toNat ≤ s.params.treeMax) (hd : s.dataBytes.toNat ≤ s.params.dataMax)
    (hp : s.pos ≤ s.treeLen.toNat) (hn : n ≤ s.pos) : (completeFrames s n).Inv := by
  have hlt := s.params.treeMax_lt
  rcases completeFrames_cases s n with h | ⟨m, hmn, hst, h⟩ <;> rw [h]
  · rcases finishRoot_cases { s with sp := 0 } with h | h | h | h | h
    · rw [h.2]; exact raise_inv (by simp) hm
    · rw [h.2.2]; exact raise_inv (by simp) hm
    · rw [h.2.2.2]; exact raise_inv (by simp) hm
    · obtain ⟨-, hk, hz, h⟩ := h
      rw [h]
      refine ⟨⟨hr.1, by positivity, hr.2.2.1, hr.2.2.2.1, by positivity, hr.2.2.2.2.2⟩, hm, ?_⟩
      exact ⟨by simp [herr], by simp, by simp, by simp, fun _ => ⟨hk, hz, Nat.zero_le _, ho⟩⟩
    · obtain ⟨-, hb, hk, h⟩ := h
      rw [h]
      refine ⟨⟨hr.1, by positivity, s.params.treeMax_pos, by positivity, hr.2.2.2.2.1, hr.2.2.2.2.2⟩, hm, ?_⟩
      exact ⟨by simp [herr], by simp, by simp, fun _ => ⟨hk, hk, Nat.zero_le _, hb, hd⟩, by simp⟩
  · have hmT : m < s.params.treeMax := by omega
    refine ⟨⟨hr.1, ?_, hr.2.2.1, hr.2.2.2.1, hr.2.2.2.2.1, hr.2.2.2.2.2⟩, ?_, ?_⟩
    · show m + 1 < 2 ^ (s.params.treeAW + 1)
      omega
    · exact ⟨hm.1, hm.2.1, hm.2.2.1, hm.2.2.2.1,
        Memory.within_write hm.2.2.2.2 hmT (s.frameAt_fits hm m)⟩
    · exact ⟨by simp [herr, hph], fun _ => ho, fun _ => ⟨ht, hd, hp, by show m + 1 ≤ s.pos; omega⟩,
        by simp [hph], by simp [hph]⟩

/-- `Open` keeps the memories within their sizes and widths. -/
theorem open_memoriesFit {s : State} {k : Kind} {sym : Word} (hm : s.memoriesFit)
    (hp : s.pos < s.params.treeMax) (hs : s.sp < s.params.treeMax) (hv : sym.toNat < 2 ^ s.params.symW) :
    (pushFrame (linkParent (openRecord k sym s))).memoriesFit := by
  have h1 : (openRecord k sym s).memoriesFit :=
    ⟨hm.1, hm.2.1, hm.2.2.1, Memory.within_write hm.2.2.2.1 hp ⟨hv, (s.nodeAt_fits hm _).2⟩, hm.2.2.2.2⟩
  have h2 : (linkParent (openRecord k sym s)).memoriesFit := by
    rcases linkParent_cases (openRecord k sym s) with ⟨-, h⟩ | ⟨-, h⟩ <;> rw [h]
    · exact h1
    · have hf := State.nodeAt_fits h1 (openRecord k sym s).top.idx
      refine ⟨h1.1, h1.2.1, h1.2.2.1, Memory.within_write h1.2.2.2.1 (State.frameAt_fits h1 _) ⟨?_, ?_, ?_⟩,
        h1.2.2.2.2⟩
      · rw [linkedRecord_sym]; exact hf.1
      · rw [linkedRecord_left]; split
        · exact hp
        · exact hf.2.1
      · rw [linkedRecord_right]; split
        · exact hp
        · exact hf.2.2
  have hsp : (linkParent (openRecord k sym s)).sp = s.sp ∧ (linkParent (openRecord k sym s)).pos = s.pos
      ∧ (linkParent (openRecord k sym s)).params = s.params := by
    rcases linkParent_cases (openRecord k sym s) with ⟨-, h⟩ | ⟨-, h⟩ <;> rw [h] <;> exact ⟨rfl, rfl, rfl⟩
  refine ⟨h2.1, h2.2.1, h2.2.2.1, h2.2.2.2.1, Memory.within_write h2.2.2.2.2 ?_ ?_⟩
  · show (linkParent (openRecord k sym s)).sp < (linkParent (openRecord k sym s)).params.treeMax
    rw [hsp.1, hsp.2.2]; exact hs
  · show (linkParent (openRecord k sym s)).pos < (linkParent (openRecord k sym s)).params.treeMax
    rw [hsp.2.1, hsp.2.2]; exact hp

end Sys2Proof.Machine
end

