-- ==== Sys2Proof/Laws/PerInstr.lean ====
section
/-!
SUPPORT. The per-instruction family `EncodeFits`: the word of a well-formed instruction fits its format, for
all parameters (R71, R76, R83).
-/

namespace Sys2Proof.Laws

/-- A tree entry's word fits ENTRY_W bits (R71). -/
theorem entryWord_lt (p : Params) (tag : Nat) (sym : Word) (ht : tag < 4) (hs : sym.toNat < 2 ^ p.symW) :
    entryWord p tag sym < 2 ^ p.entryW := by
  have : (2 : Nat) ^ p.entryW = 4 * 2 ^ p.symW := by rw [Params.entryW, Nat.pow_add]; omega
  rw [this, entryWord]
  have : tag * 2 ^ p.symW ≤ 3 * 2 ^ p.symW := Nat.mul_le_mul_right _ (by omega)
  omega

/-- A host operation's word fits 67 bits (R83). -/
theorem hostWord_lt (h : Nat) (index value : Word) (hh : h < 8) : hostWord h index value < 2 ^ 67 := by
  have := index.isLt
  have := value.isLt
  unfold hostWord
  omega

namespace EncodeFits

/-- The word of a well-formed instruction fits its format. -/
def Statement (i : Instr) : Prop :=
  ∀ p : Params, i.WellFormed p = true → encode p i < 2 ^ i.format.width p

theorem internal (sym : Word) : Statement (.internal sym) :=
  fun p h => entryWord_lt p 0 sym (by decide) (of_decide_eq_true h)

theorem leaf (sym : Word) : Statement (.leaf sym) :=
  fun p h => entryWord_lt p 1 sym (by decide) (of_decide_eq_true h)

theorem absent (sym : Word) : Statement (.absent sym) :=
  fun p h => entryWord_lt p 2 sym (by decide) (of_decide_eq_true h)

theorem rsvd (sym : Word) : Statement (.rsvd sym) :=
  fun p h => entryWord_lt p 3 sym (by decide) (of_decide_eq_true h)

theorem left : Statement .left := fun _ _ => show (0 : Nat) < 2 ^ 1 by decide

theorem right : Statement .right := fun _ _ => show (1 : Nat) < 2 ^ 1 by decide

theorem rdreg (index value : Word) : Statement (.rdreg index value) :=
  fun _ _ => hostWord_lt 0 index value (by decide)

theorem wrreg (index value : Word) : Statement (.wrreg index value) :=
  fun _ _ => hostWord_lt 4 index value (by decide)

theorem start (upper : BitVec 31) : Statement (.start upper) :=
  fun _ _ => hostWord_lt 4 0#32 (upper ++ 1#1) (by decide)

theorem rdtree (index value : Word) : Statement (.rdtree index value) :=
  fun _ _ => hostWord_lt 1 index value (by decide)

theorem wrtree (index value : Word) : Statement (.wrtree index value) :=
  fun _ _ => hostWord_lt 5 index value (by decide)

theorem rddata (index value : Word) : Statement (.rddata index value) :=
  fun _ _ => hostWord_lt 2 index value (by decide)

theorem wrdata (index value : Word) : Statement (.wrdata index value) :=
  fun _ _ => hostWord_lt 6 index value (by decide)

theorem rdout (index value : Word) : Statement (.rdout index value) :=
  fun _ _ => hostWord_lt 3 index value (by decide)

theorem wrout (index value : Word) : Statement (.wrout index value) :=
  fun _ _ => hostWord_lt 7 index value (by decide)

end EncodeFits

end Sys2Proof.Laws
end

