-- ==== Sys2Proof/Tests/Slice0.lean ====
section
/-!
SUPPORT. Tests: each checks one step, one decoding or one reference function against a value written out in
the spec (named in its docstring), and for each statement with hypotheses a concrete state that meets them.
-/

namespace Sys2Proof.Tests

open Sys2Proof.Machine

/-! ### Well-formedness (R71, R83) -/

theorem test_wf_internal_wide : (Instr.internal 0x200000#32).WellFormed Params.default = false := by decide
theorem test_wf_leaf_wide : (Instr.leaf 0x200000#32).WellFormed Params.default = false := by decide
theorem test_wf_absent_wide : (Instr.absent 0xFFFFFFFF#32).WellFormed Params.default = false := by decide
theorem test_wf_rsvd_wide : (Instr.rsvd 0x200000#32).WellFormed Params.default = false := by decide
theorem test_wf_wrreg_start : (Instr.wrreg 0#32 0xFFFFFFFF#32).WellFormed Params.default = false := by decide

/-- The largest symbol (T6) and the write of an even value to CTRL (H4) are well formed. -/
theorem test_wf_accepts :
    (Instr.leaf 0x1FFFFF#32).WellFormed Params.default = true
      ∧ (Instr.wrreg 0#32 0xFFFFFFFE#32).WellFormed Params.default = true
      ∧ (Instr.wrreg 1#32 1#32).WellFormed Params.default = true := by decide

/-! ### Decoding: words of 95_test_vectors (parts 2.1 and 3), built from the fields of R71, R76, R83 -/

/-- T7, word 0: TAG 00, SYM ignored. -/
theorem test_decode_internal : decodeTableWord 24 0x012345 = some (.internal 0x12345#32) := by decide
/-- T6: the largest symbol, TAG 01. -/
theorem test_decode_leaf : decodeTableWord 24 0x3FFFFF = some (.leaf 0x1FFFFF#32) := by decide
/-- T7, word 2: TAG 10. -/
theorem test_decode_absent : decodeTableWord 24 0x5FFFFF = some (.absent 0x1FFFFF#32) := by decide
/-- H7: TAG 11. -/
theorem test_decode_rsvd : decodeTableWord 24 0x7FFFFF = some (.rsvd 0x1FFFFF#32) := by decide
theorem test_decode_left : decodeTableWord 8 0b0 = some .left := by decide
theorem test_decode_right : decodeTableWord 8 0b1 = some .right := by decide
/-- P1: RDREG OUT_COUNT, 0_00000006_00000000. -/
theorem test_decode_rdreg : decodeTableWord 72 0x0_00000006_00000000 = some (.rdreg 6#32 0#32) := by decide
/-- P3: WRREG DATA_LEN, 15, 4_00000004_0000000F; and H4's CTRL write with bit 0 clear is no START. -/
theorem test_decode_wrreg :
    decodeTableWord 72 0x4_00000004_0000000F = some (.wrreg 4#32 15#32)
      ∧ decodeTableWord 72 0x4_00000000_FFFFFFFE = some (.wrreg 0#32 0xFFFFFFFE#32) := by decide
/-- H5: a START with every other bit of VALUE set. -/
theorem test_decode_start : decodeTableWord 72 0x4_00000000_FFFFFFFF = some (.start 0x7FFFFFFF#31) := by decide
/-- P4: RDTREE 8. -/
theorem test_decode_rdtree : decodeTableWord 72 0x1_00000008_00000000 = some (.rdtree 8#32 0#32) := by decide
/-- P1: WRTREE 5, L'c'. -/
theorem test_decode_wrtree :
    decodeTableWord 72 0x5_00000005_00200063 = some (.wrtree 5#32 0x200063#32) := by decide
/-- W = 0, SPACE = 2 (R83). -/
theorem test_decode_rddata : decodeTableWord 72 0x2_00000001_00000000 = some (.rddata 1#32 0#32) := by decide
/-- P3: WRDATA 1, 0x9E. -/
theorem test_decode_wrdata :
    decodeTableWord 72 0x6_00000001_0000009E = some (.wrdata 1#32 0x9E#32) := by decide
/-- P1: RDOUT 3. -/
theorem test_decode_rdout : decodeTableWord 72 0x3_00000003_00000000 = some (.rdout 3#32 0#32) := by decide
/-- W = 1, SPACE = 3 (R83). -/
theorem test_decode_wrout : decodeTableWord 72 0x7_00000000_00000001 = some (.wrout 0#32 1#32) := by decide
/-- A number too wide for its format is refused. -/
theorem test_decode_wide :
    decodeTableWord 24 0x800000 = none ∧ decodeTableWord 8 2 = none
      ∧ decodeTableWord 72 0x8_00000000_00000000 = none := by decide
/-- The rows at another SYM_W (R71): with SYM_W = 1 an entry has 3 bits. -/
theorem test_decode_narrow :
    decode ⟨1, 1, 0, 0, by decide⟩ .entry 0b011 = .ok (.leaf 1#32)
      ∧ decode ⟨1, 1, 0, 0, by decide⟩ .entry 0b1000 = .error (.tooWide .entry) := by decide

/-! ### Small states -/

/-- The answer is a next state with the property `f`. -/
def gives (r : Result) (f : State → Bool) : Bool :=
  match r with
  | .next t => f t
  | .fault _ => false
  | .refused _ => false

/-- The value a host read returned is `v`. -/
def returns (v : Word) (t : State) : Bool := t.hostRead == some v

/-- The serialized tree T3 (R103). -/
def tree3 : Memory Word :=
  [(0, 0x000000#32), (1, 0x200061#32), (2, 0x400000#32), (3, 0x400000#32), (4, 0x000000#32), (5, 0x200063#32),
   (6, 0x400000#32), (7, 0x400000#32), (8, 0x200062#32), (9, 0x400000#32), (10, 0x400000#32)]

/-- An INTERNAL record. -/
def nodeI (l r : Nat) : NodeRec := { kind := .internal, sym := 0#32, left := l, right := r }

/-- A LEAF record. -/
def nodeL (sym : Word) : NodeRec := { kind := .leaf, sym := sym, left := 0, right := 0 }

/-- The NODE table of T3 (R103). -/
def node3 : Memory NodeRec :=
  [(0, nodeI 1 4), (1, nodeL 0x61#32), (4, nodeI 5 8), (5, nodeL 0x63#32), (8, nodeL 0x62#32)]

/-- T3 loaded with the stream of W1 (R122). -/
def loaded : State :=
  { State.reset with
    treeLen := 11#32, dataBytes := 2#32, dataLen := 9#32, tree := tree3, data := [(0, 0x1F#8), (1, 0x00#8)] }

/-- Unpacking T3 at entry `pos` with the live frames `frames` (R103). -/
def unpacking (pos : Nat) (node : Memory NodeRec) (frames : Memory Frame) : State :=
  { loaded with phase := .unpack, pos := pos, sp := frames.length, node := node, stack := frames }

/-- Walking T3 with the stream of W1, `bitpos` bits consumed (R122). -/
def walking (bitpos cur ocnt : Nat) : State :=
  { loaded with phase := .walk, node := node3, bitpos := bitpos, cur := cur, ocnt := ocnt }

/-- Repeating the sole leaf 'a' of T1 (P-R1). -/
def repeating (count done : Nat) : State :=
  { State.reset with
    phase := .repeatLeaf, treeLen := 3#32, repeatReg := BitVec.ofNat 32 count, repcnt := done, ocnt := done
    tree := [(0, 0x200061#32), (1, 0x400000#32), (2, 0x400000#32)], node := [(0, nodeL 0x61#32)] }

/-- The end of the run of P1. -/
def finished : State :=
  { loaded with
    phase := .done, ocnt := 6, node := node3
    out := [(0, 0x61#32), (1, 0x61#32), (2, 0x61#32), (3, 0x62#32), (4, 0x62#32), (5, 0x63#32)] }

/-- Default parameters but OUT_MAX = 4 (W16, P-R7). -/
def smallOut : Params := ⟨21, 12, 16, 2, by decide⟩

/-! ### Tree entries: the steps of R103 and the malformed trees M1 to M17 -/

/-- R103, step 5: INTERNAL at index 4, linked as the right child of node 0. -/
theorem test_internal_opens :
    gives (exec (.internal 0#32) (unpacking 4 [(0, nodeI 1 0), (1, nodeL 0x61#32)] [(0, ⟨0, .right⟩)]))
      (fun t => t.pos == 5 && t.sp == 2 && (t.nodeAt 4).kind == .internal && (t.nodeAt 0).right == 4
        && (t.nodeAt 0).left == 1 && t.frameAt 0 == ⟨0, .right⟩ && t.frameAt 1 == ⟨4, .left⟩
        && t.phase == .unpack) = true := by decide
/-- M7, step 3: INTERNAL in the second position of a leaf. -/
theorem test_internal_under_leaf :
    gives (exec (.internal 0#32) (unpacking 2 [(0, nodeL 0x61#32)] [(0, ⟨0, .right⟩)]))
      (fun t => t.status == 0x0D#32) = true := by decide
/-- R103, step 2: LEAF 'a' at index 1, linked as the left child of node 0. -/
theorem test_leaf_opens :
    gives (exec (.leaf 0x61#32) (unpacking 1 [(0, nodeI 0 9)] [(0, ⟨0, .left⟩)]))
      (fun t => t.pos == 2 && t.sp == 2 && (t.nodeAt 1).kind == .leaf && (t.nodeAt 1).sym == 0x61#32
        && (t.nodeAt 0).left == 1 && (t.nodeAt 0).right == 9 && t.frameAt 1 == ⟨1, .left⟩) = true := by decide
/-- M6, step 2: LEAF under a leaf. -/
theorem test_leaf_under_leaf :
    gives (exec (.leaf 0x62#32) (unpacking 1 [(0, nodeL 0x61#32)] [(0, ⟨0, .left⟩)]))
      (fun t => t.status == 0x0D#32) = true := by decide
/-- R103, step 8: ABSENT pops the leaf and sends frame 1 to its right position. -/
theorem test_absent_pops :
    gives (exec (.absent 0#32)
        (unpacking 7 [(0, nodeI 1 4), (1, nodeL 0x61#32), (4, nodeI 5 0), (5, nodeL 0x63#32)]
          [(0, ⟨0, .right⟩), (1, ⟨4, .left⟩), (2, ⟨5, .right⟩)]))
      (fun t => t.pos == 8 && t.sp == 2 && t.frameAt 0 == ⟨0, .right⟩ && t.frameAt 1 == ⟨4, .right⟩
        && t.phase == .unpack) = true := by decide
/-- R103, step 11: ABSENT finishes the root and `Dispatch` enters WALK. -/
theorem test_absent_finishes :
    gives (exec (.absent 0#32)
        (unpacking 10 node3 [(0, ⟨0, .right⟩), (1, ⟨4, .right⟩), (2, ⟨8, .right⟩)]))
      (fun t => t.pos == 11 && t.sp == 0 && t.phase == .walk && t.cur == 0 && t.bitpos == 0
        && t.err == .none) = true := by decide
/-- M17, step 5: a reserved tag in the root's right position. -/
theorem test_rsvd_malformed :
    gives (exec (.rsvd 0#32) (unpacking 4 [(0, nodeI 1 0), (1, nodeL 0x61#32)] [(0, ⟨0, .right⟩)]))
      (fun t => t.status == 0x0D#32 && t.outCount == 0#32) = true := by decide
/-- M1, M10: the entries are exhausted. M16, step 11: entries left over. M2, step 1: ABSENT in the root
position. M4, step 2: ABSENT under an internal node. -/
theorem test_unpack_malformed :
    gives (step { unpacking 0 [] [] with treeLen := 0#32 }) (fun t => t.status == 0x0D#32) = true
    ∧ gives (step (unpacking 11 node3 [(0, ⟨0, .right⟩)])) (fun t => t.status == 0x0D#32) = true
    ∧ gives (exec (.absent 0#32)
        { unpacking 10 node3 [(0, ⟨0, .right⟩), (1, ⟨4, .right⟩), (2, ⟨8, .right⟩)] with treeLen := 12#32 })
      (fun t => t.status == 0x0D#32) = true
    ∧ gives (exec (.absent 0#32) (unpacking 0 [] [])) (fun t => t.status == 0x0D#32) = true
    ∧ gives (exec (.absent 0#32) (unpacking 1 [(0, nodeI 0 0)] [(0, ⟨0, .left⟩)]))
      (fun t => t.status == 0x0D#32) = true := by decide

/-! ### Stream bits: the steps of R122, and W6, W16 -/

/-- R122, step 9: bit 0 at node 4 emits 'c'. -/
theorem test_left_emits :
    gives (step (walking 8 4 5))
      (fun t => t.bitpos == 9 && t.cur == 0 && t.ocnt == 6 && t.outAt 5 == 0x63#32) = true := by decide
/-- W16: with OUT_MAX = 4 the fifth emission raises Capacity. -/
theorem test_left_capacity :
    gives (exec .left { walking 0 0 4 with params := smallOut }) (fun t => t.status == 0x1D#32) = true := by
  decide
/-- R122, step 4: bit 1 at the root moves to node 4. -/
theorem test_right_moves :
    gives (step (walking 3 0 3)) (fun t => t.bitpos == 4 && t.cur == 4 && t.ocnt == 3) = true := by decide
/-- R122, step 5: bit 1 at node 4 emits 'b'. -/
theorem test_right_emits :
    gives (step (walking 4 4 3))
      (fun t => t.bitpos == 5 && t.cur == 0 && t.ocnt == 4 && t.outAt 3 == 0x62#32) = true := by decide
/-- R122, step 10, and W6: the stream ends at the root, or inside a code. -/
theorem test_walk_ends :
    gives (step (walking 9 0 6)) (fun t => t.status == 0x04#32 && t.outCount == 6#32) = true
      ∧ gives (step { walking 8 4 5 with dataLen := 8#32 })
        (fun t => t.status == 0x15#32 && t.outCount == 0#32) = true := by decide
/-- The example of R53. -/
theorem test_stream_bits :
    (List.range 9).map loaded.streamBit = [false, false, false, true, true, true, true, true, false] := by
  decide

/-! ### REPEAT: P-R1, P-R7 -/

/-- P-R1: the fourth copy, and the end. P-R7: the fifth copy with OUT_MAX = 4. -/
theorem test_repeat :
    gives (step (repeating 4 3)) (fun t => t.ocnt == 4 && t.repcnt == 4 && t.outAt 3 == 0x61#32) = true
      ∧ gives (step (repeating 4 4)) (fun t => t.status == 0x04#32 && t.outCount == 4#32) = true
      ∧ gives (step { repeating 5 4 with params := smallOut }) (fun t => t.status == 0x1D#32) = true := by
  decide

/-! ### Host operations: H1 to H18 and the examples of R141 to R147 -/

/-- R141: after a run that raised TruncatedStream, RDREG 1 returns 0x15. H12: OUT_COUNT then reads 0. -/
theorem test_rdreg_error :
    gives (exec (.rdreg 1#32 0#32) { loaded with phase := .error, err := .truncatedStream }) (returns 0x15#32)
        = true
      ∧ gives (exec (.rdreg 6#32 0#32) { loaded with phase := .error, err := .truncatedStream }) (returns 0#32)
        = true := by decide
/-- P1: RDREG OUT_COUNT returns 6. H14: DATA_LEN is readable while busy. -/
theorem test_rdreg_values :
    gives (exec (.rdreg 6#32 0#32) finished) (returns 6#32) = true
      ∧ gives (exec (.rdreg 4#32 0#32) (walking 3 0 3)) (returns 9#32) = true
      ∧ gives (exec (.rdreg 6#32 0#32) (walking 3 0 3)) (returns 0#32) = true := by decide
/-- H3: any 32-bit value is stored. H15: the result of the last run is undisturbed. -/
theorem test_wrreg_stores :
    gives (exec (.wrreg 4#32 0xFFFFFFFF#32) finished)
      (fun t => t.dataLen == 0xFFFFFFFF#32 && t.status == 0x04#32 && t.outCount == 6#32) = true := by decide
/-- H6, H4: writes to STATUS, OUT_COUNT, 7, 8 and to CTRL with bit 0 clear change nothing. -/
theorem test_wrreg_ignored :
    gives (exec (.wrreg 1#32 0x1F#32) finished) (fun t => t == finished) = true
      ∧ gives (exec (.wrreg 6#32 9#32) finished) (fun t => t == finished) = true
      ∧ gives (exec (.wrreg 7#32 1#32) finished) (fun t => t == finished) = true
      ∧ gives (exec (.wrreg 8#32 1#32) finished) (fun t => t == finished) = true
      ∧ gives (exec (.wrreg 0#32 0xFFFFFFFE#32) finished) (fun t => t == finished) = true := by decide
/-- R143: START from DONE enters UNPACK and discards the result. -/
theorem test_start_begins :
    gives (exec (.start 0#31) finished)
      (fun t => t.status == 0x01#32 && t.pos == 0 && t.sp == 0 && t.ocnt == 0) = true := by decide
/-- H17, H18: STATUS 0x1D at once; TREE_LEN = 4096 is no Capacity (H19). -/
theorem test_start_capacity :
    gives (exec (.start 0#31) { finished with treeLen := 4097#32 }) (fun t => t.status == 0x1D#32) = true
      ∧ gives (exec (.start 0#31) { finished with dataBytes := 65537#32 }) (fun t => t.status == 0x1D#32) = true
      ∧ gives (exec (.start 0#31) { finished with treeLen := 4096#32 }) (fun t => t.status == 0x01#32) = true := by
  decide
/-- P4: RDTREE returns the entry. H9: out of range returns 0. -/
theorem test_rdtree :
    gives (exec (.rdtree 8#32 0#32) finished) (returns 0x200062#32) = true
      ∧ gives (exec (.rdtree 4096#32 0#32) finished) (returns 0#32) = true := by decide
/-- H7: the value is cut to ENTRY_W bits. -/
theorem test_wrtree_cuts :
    gives (exec (.wrtree 5#32 0xFFFFFFFF#32) finished)
      (fun t => t.entryAt 5 == 0x7FFFFF#32 && t.entryAt 4 == 0#32 && t.entryAt 6 == 0x400000#32) = true := by
  decide
/-- H10 and P4 (H13): out of range, and while busy. -/
theorem test_wrtree_dropped :
    gives (exec (.wrtree 4096#32 1#32) finished) (fun t => t == finished) = true
      ∧ gives (exec (.wrtree 8#32 0x200062#32) (unpacking 3 [] [])) (fun t => t == unpacking 3 [] []) = true := by
  decide
/-- H9, and the first byte of W1. -/
theorem test_rddata :
    gives (exec (.rddata 0#32 0#32) finished) (returns 0x1F#32) = true
      ∧ gives (exec (.rddata 65536#32 0#32) finished) (returns 0#32) = true := by decide
/-- H8: the low 8 bits are stored. -/
theorem test_wrdata_cuts :
    gives (exec (.wrdata 0#32 0x123#32) finished) (fun t => t.dataAt 0 == 0x23#8 && t.dataAt 1 == 0x00#8)
      = true := by decide
/-- H10 and H13. -/
theorem test_wrdata_dropped :
    gives (exec (.wrdata 65536#32 1#32) finished) (fun t => t == finished) = true
      ∧ gives (exec (.wrdata 0#32 0#32) (walking 3 0 3)) (fun t => t == walking 3 0 3) = true := by decide
/-- R147: RDOUT 3 of the "aaabbc" run. H11: RDOUT 5. H9: out of range. -/
theorem test_rdout :
    gives (exec (.rdout 3#32 0#32) finished) (returns 0x62#32) = true
      ∧ gives (exec (.rdout 5#32 0#32) finished) (returns 0x63#32) = true
      ∧ gives (exec (.rdout 65536#32 0#32) finished) (returns 0#32) = true := by decide
/-- H11: at OUT_COUNT the value is the draw. -/
theorem test_rdout_draw :
    exec (.rdout 6#32 0#32) finished
      = .next { finished with hostRead := some (Config.freeRead 1), draws := 2 } := rfl
/-- H10: the write to OUT. -/
theorem test_wrout_ignored :
    gives (exec (.wrout 0#32 1#32) finished) (fun t => t == finished) = true := by decide

/-! ### RESET and fetching -/

/-- P5: RESET during WALK. -/
theorem test_reset_input :
    gives (step { walking 3 0 3 with script := [.reset] })
      (fun t => t.status == 0#32 && t.treeLen == 0#32 && t.dataLen == 0#32 && t.outCount == 0#32
        && t.tree == [] && t.script == []) = true := by decide
/-- The first instruction after reset is the one placed: an entry, a bit, a host operation. -/
theorem test_placed_first :
    gives (step (State.reset.withFetchWord 24 0x200061))
      (fun t => t.pos == 1 && (t.nodeAt 0).kind == .leaf && (t.nodeAt 0).sym == 0x61#32) = true
    ∧ gives (step (State.reset.withFetchWord 8 1)) (fun t => t.bitpos == 1 && t.ocnt == 1) = true
    ∧ gives (step (State.reset.withFetchWord 72 0x40000000200000005)) (fun t => t.treeLen == 5#32) = true := by
  decide

/-! ### The reference functions, against 95_test_vectors -/

/-- R103: `Parse` of T3. -/
theorem test_parse :
    loaded.parse
      = some (.internal (.leaf 0x61#32) (.internal (.leaf 0x63#32) (.leaf 0x62#32))) := by decide
/-- M4, M15: an absent marker under a node; an entry left over. -/
theorem test_parse_malformed :
    ({ loaded with tree := [(0, 0#32), (1, 0x400000#32), (2, 0x200061#32), (3, 0x400000#32), (4, 0x400000#32)]
                   treeLen := 5#32 } : State).parse = none
      ∧ ({ loaded with tree := [(0, 0x200061#32), (1, 0x400000#32), (2, 0x400000#32), (3, 0x400000#32)]
                       treeLen := 4#32 } : State).parse = none := by decide
/-- W1: the whole run. -/
theorem test_decode_run :
    loaded.decodeRun = .done [0x61#32, 0x61#32, 0x61#32, 0x62#32, 0x62#32, 0x63#32] := by decide
/-- W6, W8, W17: the three errors of a stream. -/
theorem test_decode_run_errors :
    ({ loaded with dataLen := 8#32 } : State).decodeRun = .error .truncatedStream
      ∧ ({ loaded with dataLen := 17#32 } : State).decodeRun = .error .truncatedStream
      ∧ ({ loaded with data := [(0, 0x00#8), (1, 0x80#8)], params := smallOut } : State).decodeRun
        = .error .capacity := by decide
/-- R77, R103: the codes a = 0, c = 10, b = 11. -/
theorem test_codes :
    (CodeTree.internal (.leaf 0x61#32) (.internal (.leaf 0x63#32) (.leaf 0x62#32))).symbolOf [true, false]
      = some 0x63#32 := by decide

/-! ### Witnesses: for every statement with hypotheses, states and operands that meet them -/

/-- T1 loaded, REPEAT = 4 (P-R1). -/
def loaded1 : State :=
  { State.reset with
    treeLen := 3#32, repeatReg := 4#32, tree := [(0, 0x200061#32), (1, 0x400000#32), (2, 0x400000#32)] }

/-- Unpacking T1 at its last entry. -/
def lastOf1 : State :=
  { loaded1 with
    phase := .unpack, pos := 2, sp := 1, node := [(0, nodeL 0x61#32)], stack := [(0, ⟨0, .right⟩)] }

/-- Unpacking T3 at its last entry (R103, step 11). -/
def lastOf3 : State := unpacking 10 node3 [(0, ⟨0, .right⟩), (1, ⟨4, .right⟩), (2, ⟨8, .right⟩)]

/-- Unpacking T3 at entry 7 (R103, step 8). -/
def eighth : State :=
  unpacking 7 [(0, nodeI 1 4), (1, nodeL 0x61#32), (4, nodeI 5 0), (5, nodeL 0x63#32)]
    [(0, ⟨0, .right⟩), (1, ⟨4, .left⟩), (2, ⟨5, .right⟩)]

/-- The tree of T3 (R103). -/
def codes3 : CodeTree := .internal (.leaf 0x61#32) (.internal (.leaf 0x63#32) (.leaf 0x62#32))

theorem witness_DecodeOfEncode :
    (Instr.rsvd 0x1FFFFF#32).WellFormed Params.default = true
      ∧ (Instr.wrreg 1#32 0xFFFFFFFF#32).WellFormed Params.default = true := by decide

theorem witness_EncodeOfDecode :
    decode Params.default .entry 0x7FFFFF = .ok (.rsvd 0x1FFFFF#32)
      ∧ decode Params.default .hostop (2 ^ 67 - 1) = .ok (.wrout 0xFFFFFFFF#32 0xFFFFFFFF#32) := by decide

theorem witness_EveryWord :
    0x7FFFFF < 2 ^ Format.entry.width Params.default ∧ 0x7FFFFF < 2 ^ Params.default.entryW
      ∧ 0x7FFFFF / 2 ^ Params.default.symW = 0b11 ∧ 0x600000 / 2 ^ Params.default.symW = 0b11
      ∧ 2 ^ Format.entry.width Params.default ≤ 0x800000 := by
  decide

theorem witness_TagOfAnEntry :
    (0x1FFFFF#32 : Word).toNat < 2 ^ Params.default.symW ∧ (0x1FFFFF#32 : Word).toNat < 2 ^ 21 := by decide

theorem witness_TagOfAnEntry_rsvd :
    let s := { unpacking 10 [] [] with tree := [(10, 0x600000#32)] }
    s.phase = .unpack ∧ s.engineNext ∧ s.pos < s.treeLen.toNat ∧ s.pos < s.params.treeMax
      ∧ (s.entryAt s.pos).toNat / 2 ^ s.params.symW = 0b11 :=
  ⟨rfl, .inl rfl, by decide⟩

theorem witness_HostOperation :
    ¬(0#32 = 0#32 ∧ (0xFFFFFFFE#32 : Word).getLsbD 0 = true)
      ∧ (0#32 = 0#32 ∧ (0xFFFFFFFF#32 : Word).getLsbD 0 = true)
      ∧ ¬(1#32 = 0#32 ∧ (1#32 : Word).getLsbD 0 = true) := by decide

theorem witness_StreamBits :
    8 * 65536 - 1 < 8 * loaded.params.dataMax ∧ 8 < loaded.dataLen.toNat ∧ loaded.dataAt 0 = 0x1F#8
      ∧ loaded.dataAt 1 = 0x00#8 := by decide

theorem witness_ResetInput : ({ walking 3 0 3 with script := [.reset] } : State).script.head? = some .reset :=
  rfl

theorem witness_StepRuns_host :
    let s := { walking 3 0 3 with script := [.host 0x40000000000000001#67] }
    s.script.head? = some (.host 0x40000000000000001#67)
      ∧ decode s.params .hostop (0x40000000000000001#67).toNat = .ok (.start 0#31) := by decide

theorem witness_StepRuns_entry :
    let s := { unpacking 10 [] [] with script := [.engine] }
    s.engineNext ∧ s.phase = .unpack ∧ s.pos < s.treeLen.toNat ∧ s.pos < s.params.treeMax
      ∧ decode s.params .entry (s.entryAt s.pos).toNat = .ok (.absent 0#32) :=
  ⟨.inr rfl, by decide⟩

theorem witness_StepRuns_bit :
    let s := walking 8 4 5
    s.engineNext ∧ s.phase = .walk ∧ s.bitpos ≠ s.dataLen.toNat ∧ s.bitpos / 8 < s.params.dataMax
      ∧ decode s.params .bit (s.streamBit s.bitpos).toNat = .ok .left :=
  ⟨.inl rfl, by decide⟩

theorem witness_EngineHolds : finished.engineNext ∧ finished.busy = false := ⟨.inl rfl, rfl⟩

theorem witness_UnpackPast :
    let s := unpacking 11 [] []
    s.engineNext ∧ s.phase = .unpack ∧ s.treeLen.toNat ≤ s.pos :=
  ⟨.inl rfl, by decide⟩

theorem witness_StreamEndingAtTheRoot :
    let s := walking 9 0 6
    s.engineNext ∧ s.phase = .walk ∧ s.bitpos = s.dataLen.toNat ∧ s.cur = 0
      ∧ (5#32 : Word).toNat < s.ocnt ∧ s.ocnt ≤ s.params.outMax :=
  ⟨.inl rfl, by decide⟩

theorem witness_StreamEndingInsideACode :
    let s := { walking 8 4 5 with dataLen := 8#32 }
    s.engineNext ∧ s.phase = .walk ∧ s.bitpos = s.dataLen.toNat ∧ s.cur ≠ 0 :=
  ⟨.inl rfl, by decide⟩

theorem witness_RepeatStep :
    (repeating 4 4).engineNext ∧ (repeating 4 4).phase = .repeatLeaf
      ∧ (repeating 4 4).repcnt = (repeating 4 4).repeatReg.toNat
      ∧ (repeating 4 3).repcnt ≠ (repeating 4 3).repeatReg.toNat
      ∧ (repeating 4 3).ocnt < (repeating 4 3).params.outMax
      ∧ ((repeating 4 3).nodeAt 0).sym.toNat < 2 ^ (repeating 4 3).params.symW
      ∧ (repeating 65537 65536).repcnt ≠ (repeating 65537 65536).repeatReg.toNat
      ∧ (repeating 65537 65536).ocnt = (repeating 65537 65536).params.outMax :=
  ⟨.inl rfl, by decide⟩

/-! States that satisfy the invariants, one for each phase. -/

theorem inv_of {s : State} (h1 : s.registersFit) (h2 : s.memoriesFit) (h3 : s.phaseFits) : s.Inv := ⟨h1, h2, h3⟩

theorem inv_loaded : loaded.Inv := by
  refine inv_of ?_ ?_ ?_
  · unfold State.registersFit; decide
  · unfold State.memoriesFit Memory.within; decide
  · unfold State.phaseFits; decide

theorem inv_unpack : eighth.Inv := by
  refine inv_of ?_ ?_ ?_
  · unfold State.registersFit; decide
  · unfold State.memoriesFit Memory.within; decide
  · unfold State.phaseFits; decide

theorem inv_walk : (walking 8 4 5).Inv := by
  refine inv_of ?_ ?_ ?_
  · unfold State.registersFit; decide
  · unfold State.memoriesFit Memory.within; decide
  · unfold State.phaseFits; decide

theorem inv_repeat : (repeating 4 3).Inv := by
  refine inv_of ?_ ?_ ?_
  · unfold State.registersFit; decide
  · unfold State.memoriesFit Memory.within; decide
  · unfold State.phaseFits; decide

theorem treeInv_unpack : eighth.TreeInv := by
  refine ⟨fun _ => ?_, fun h => by rcases h with h | h <;> cases h⟩
  rw [show eighth.live = [⟨0, .right⟩, ⟨4, .left⟩, ⟨5, .right⟩] by decide]
  simp only [State.openFrom, show (eighth.nodeAt 0).kind = .internal from rfl]
  refine ⟨trivial, by decide, .leaf 0x61#32, rfl, by unfold State.spells; decide, ⟨rfl, rfl⟩, fun _ => rfl, ?_⟩
  simp only [CodeTree.size, Nat.reduceAdd, show (eighth.nodeAt 4).kind = .internal from rfl,
    show (eighth.nodeAt 5).kind = .leaf from rfl]
  exact ⟨trivial, by decide, fun _ => rfl, trivial, trivial, by decide, rfl, by decide⟩

theorem holds_walk (s : State) (h : s = walking 8 4 5) : s.holdsTree codes3 := by
  subst h
  refine ⟨rfl, ?_, ?_⟩
  · unfold State.spells; decide
  · exact ⟨rfl, rfl, rfl, ⟨rfl, rfl⟩, rfl, rfl, rfl, ⟨rfl, rfl⟩, rfl, rfl⟩

theorem treeInv_walk : (walking 8 4 5).TreeInv :=
  ⟨(fun h => by cases h), fun _ => ⟨codes3, holds_walk _ rfl⟩⟩

theorem witness_StepKeepsTheInvariant : eighth.Inv ∧ ∃ t, step eighth = .next t := ⟨inv_unpack, _, rfl⟩

theorem witness_StepKeepsTheTreeValid :
    (eighth.Inv ∧ eighth.TreeInv ∧ ∃ t, step eighth = .next t)
      ∧ (walking 8 4 5).Inv ∧ (walking 8 4 5).TreeInv ∧ ∃ t, step (walking 8 4 5) = .next t :=
  ⟨⟨inv_unpack, treeInv_unpack, _, rfl⟩, inv_walk, treeInv_walk, _, rfl⟩

theorem witness_StepNeverStops : (repeating 4 3).Inv := inv_repeat

theorem witness_InputsDoNotChange :
    eighth.busy = true ∧ eighth.script.head? ≠ some .reset ∧ ∃ t, step eighth = .next t :=
  ⟨rfl, by decide, _, rfl⟩

theorem witness_HostOperationsLeaveABusyBlockAlone :
    let s := { eighth with script := [.host 0x50000000800200062#67] }
    s.busy = true ∧ s.script.head? = some (.host 0x50000000800200062#67) := by decide

theorem witness_EnteringError :
    (unpacking 11 [] []).phase ≠ .error
      ∧ ∃ t, step (unpacking 11 [] []) = .next t ∧ t.phase = .error :=
  ⟨by decide, _, rfl, rfl⟩

theorem witness_ResultIsHeld :
    let s := { finished with script := [.host 0x40000000400000003#67] }
    (s.phase = .done ∨ s.phase = .error) ∧ (∃ t, step s = .next t) ∧ s.script.head? ≠ some .reset
      ∧ ¬s.startNext := by
  refine ⟨.inl rfl, ⟨_, rfl⟩, by decide, ?_⟩
  rintro ⟨w, u, h, h'⟩
  injection h with h
  injection h with h
  subst h
  have hw : decodeHost (0x40000000400000003#67).toNat = .wrreg 4#32 3#32 := by decide
  rw [hw] at h'
  cases h'

theorem witness_StepKeepsTheParameters : ∃ t, step eighth = .next t := ⟨_, rfl⟩

theorem witness_NodeMarkersOpen_root :
    let s := unpacking 0 [] []
    s.phase = .unpack ∧ s.stackInRange = true ∧ s.ctx ≠ .under .leaf ∧ s.pos < s.params.treeMax
      ∧ s.sp < s.params.treeMax := by decide

theorem witness_NodeMarkersOpen_children :
    let s := unpacking 1 [(0, nodeI 0 0)] [(0, ⟨0, .left⟩)]
    let t := unpacking 4 [(0, nodeI 1 0)] [(0, ⟨0, .right⟩)]
    (s.phase = .unpack ∧ s.stackInRange = true ∧ s.ctx ≠ .under .leaf ∧ s.pos < s.params.treeMax
        ∧ s.sp < s.params.treeMax ∧ 0 < s.sp ∧ s.top.stage = .left ∧ s.top.idx ≠ s.pos)
      ∧ t.phase = .unpack ∧ t.stackInRange = true ∧ t.ctx ≠ .under .leaf ∧ t.pos < t.params.treeMax
        ∧ t.sp < t.params.treeMax ∧ 0 < t.sp ∧ t.top.stage = .right ∧ t.top.idx ≠ t.pos := by decide

theorem witness_NodeMarkersUnderALeaf :
    let s := unpacking 2 [(0, nodeL 0x61#32)] [(0, ⟨0, .right⟩)]
    s.phase = .unpack ∧ s.stackInRange = true ∧ s.ctx = .under .leaf := by decide

theorem witness_AbsentFinishesPositions :
    eighth.phase = .unpack ∧ eighth.stackInRange = true ∧ eighth.ctx = .under .leaf ∧ 1 < eighth.sp
      ∧ (eighth.frameAt 1).stage = .left
      ∧ (∀ k, 1 < k → k < eighth.sp → (eighth.frameAt k).stage = .right) := by
  refine ⟨rfl, by decide, by decide, by decide, rfl, fun k h1 h2 => ?_⟩
  have h2 : k < 3 := h2
  obtain rfl : k = 2 := by omega
  rfl

theorem witness_AbsentFinishingTheRoot :
    lastOf3.phase = .unpack ∧ lastOf3.stackInRange = true ∧ lastOf3.ctx = .under .leaf
      ∧ (∀ k, k < lastOf3.sp → (lastOf3.frameAt k).stage = .right)
      ∧ lastOf1.phase = .unpack ∧ lastOf1.stackInRange = true ∧ lastOf1.ctx = .under .leaf
      ∧ (∀ k, k < lastOf1.sp → (lastOf1.frameAt k).stage = .right) := by decide

/-- The branches: entries left over (M16), the bit count at and past the bytes (W8), a leaf with and without
bits (P-R4, P-R1), a walk. -/
theorem witness_AbsentFinishingTheRoot_branches :
    ({ lastOf3 with treeLen := 12#32 } : State).pos + 1 ≠ 12
      ∧ lastOf3.pos + 1 = lastOf3.treeLen.toNat
      ∧ 8 * lastOf3.dataBytes.toNat < (17#32 : Word).toNat
      ∧ ¬8 * lastOf3.dataBytes.toNat < (16#32 : Word).toNat
      ∧ (lastOf3.nodeAt 0).kind = .internal
      ∧ lastOf1.pos + 1 = lastOf1.treeLen.toNat ∧ (lastOf1.nodeAt 0).kind = .leaf ∧ lastOf1.dataLen = 0#32
      ∧ ({ lastOf1 with dataBytes := 1#32, dataLen := 1#32 } : State).dataLen ≠ 0#32 := by decide

theorem witness_AbsentOutsideALeaf :
    let s := unpacking 0 [] []
    let t := unpacking 1 [(0, nodeI 0 0)] [(0, ⟨0, .left⟩)]
    (s.phase = .unpack ∧ s.stackInRange = true ∧ s.ctx ≠ .under .leaf)
      ∧ t.phase = .unpack ∧ t.stackInRange = true ∧ t.ctx ≠ .under .leaf := by decide

theorem witness_ReservedTag : (unpacking 0 [] []).phase = .unpack := rfl

theorem witness_BitsMove :
    let s := walking 3 0 3
    s.phase = .walk ∧ s.cur < s.params.treeMax ∧ 4 = (s.nodeAt s.cur).right ∧ 4 < s.params.treeMax
      ∧ (s.nodeAt 4).kind = .internal := by decide

/-- The left child of the root is internal: the tree T4. -/
theorem witness_BitsMove_left :
    let s := { walking 0 0 0 with node := [(0, nodeI 1 8), (1, nodeI 2 5)] }
    s.phase = .walk ∧ s.cur < s.params.treeMax ∧ 1 = (s.nodeAt s.cur).left ∧ 1 < s.params.treeMax
      ∧ (s.nodeAt 1).kind = .internal := by decide

theorem witness_BitsEmit :
    let s := walking 8 4 5
    s.phase = .walk ∧ s.cur < s.params.treeMax ∧ 5 = (s.nodeAt s.cur).left ∧ 8 = (s.nodeAt s.cur).right
      ∧ 8 < s.params.treeMax ∧ (s.nodeAt 5).kind = .leaf ∧ (s.nodeAt 8).kind = .leaf
      ∧ (s.nodeAt 5).sym.toNat < 2 ^ s.params.symW ∧ (s.nodeAt 8).sym.toNat < 2 ^ s.params.symW
      ∧ s.ocnt < s.params.outMax := by decide

theorem witness_EmittingIntoAFullOut :
    let s := walking 8 4 65536
    s.phase = .walk ∧ s.cur < s.params.treeMax ∧ 5 = (s.nodeAt s.cur).left ∧ 8 = (s.nodeAt s.cur).right
      ∧ 8 < s.params.treeMax ∧ (s.nodeAt 5).kind = .leaf ∧ (s.nodeAt 8).kind = .leaf
      ∧ s.ocnt = s.params.outMax := by decide

/-- W2: other pad bits, at the last bit and at the end of the stream. -/
theorem witness_PadBits :
    let d : Memory Byte := [(0, 0x1F#8), (1, 0x7F#8)]
    (walking 8 4 5).engineNext ∧ (walking 8 4 5).phase = .walk
      ∧ (walking 8 4 5).bitpos ≤ (walking 8 4 5).dataLen.toNat
      ∧ (walking 9 0 6).bitpos ≤ (walking 9 0 6).dataLen.toNat
      ∧ (∀ k, k < (walking 8 4 5).dataLen.toNat →
        ({ walking 8 4 5 with data := d } : State).streamBit k = (walking 8 4 5).streamBit k)
      ∧ (∃ t, step (walking 8 4 5) = .next t) ∧ ∃ t, step (walking 9 0 6) = .next t :=
  ⟨.inl rfl, rfl, by decide, by decide, by decide, ⟨_, rfl⟩, _, rfl⟩

theorem witness_StatusIsOneOf :
    (loaded.Inv ∧ loaded.status = 0x00#32) ∧ (eighth.Inv ∧ eighth.status = 0x01#32)
      ∧ ((walking 8 4 5).Inv ∧ (walking 8 4 5).status = 0x02#32)
      ∧ (repeating 4 3).Inv ∧ (repeating 4 3).status = 0x03#32 :=
  ⟨⟨inv_loaded, by decide⟩, ⟨inv_unpack, by decide⟩, ⟨inv_walk, by decide⟩, inv_repeat, by decide⟩

theorem witness_Wrreg :
    eighth.busy = true ∧ finished.busy = false ∧ ¬(0#32 = 0#32 ∧ (0xFFFFFFFE#32 : Word).getLsbD 0 = true)
      ∧ ¬(2#32 = 0#32 ∧ (0xFFFFFFFF#32 : Word).getLsbD 0 = true)
      ∧ 0#32 = 0#32 ∧ (1#32 : Word).getLsbD 0 = true := by decide

theorem witness_StartBegins :
    finished.busy = false
      ∧ ¬(finished.params.treeMax < (4096#32 : Word).toNat ∨ finished.params.dataMax < (65536#32 : Word).toNat)
      ∧ finished.params.treeMax < (4097#32 : Word).toNat
      ∧ finished.params.dataMax < (65537#32 : Word).toNat := by decide

theorem witness_WritesAreDropped :
    eighth.busy = true ∧ (walking 8 4 5).busy = true ∧ (repeating 4 3).busy = true := by decide

theorem witness_TreeWrite : finished.busy = false ∧ (4095#32 : Word).toNat < finished.params.treeMax := by decide

theorem witness_DataWrite : finished.busy = false ∧ (65535#32 : Word).toNat < finished.params.dataMax := by decide

/-- The clauses of RDOUT meet at OCNT and at OUT_MAX. -/
theorem witness_OutRead :
    finished.params.outMax ≤ (65536#32 : Word).toNat ∧ ¬finished.params.outMax ≤ (65535#32 : Word).toNat
      ∧ (finished.phase = .done ∧ (5#32 : Word).toNat < finished.ocnt)
      ∧ ¬(finished.phase = .done ∧ (6#32 : Word).toNat < finished.ocnt) := by decide

theorem witness_OutOfRange :
    8 ≤ (8#32 : Word).toNat ∧ finished.params.treeMax ≤ (4096#32 : Word).toNat
      ∧ finished.params.dataMax ≤ (65536#32 : Word).toNat ∧ finished.params.outMax ≤ (65536#32 : Word).toNat := by
  decide

theorem witness_StartWithNothingLoaded :
    State.reset.busy = false ∧ State.reset.treeLen = 0#32
      ∧ State.reset.dataBytes.toNat ≤ State.reset.params.dataMax ∧ State.reset.engineNext :=
  ⟨rfl, rfl, by decide, .inl rfl⟩

theorem witness_Parse : loaded.parse = some codes3 ∧ loaded.serialized = codes3.entries := by decide

theorem witness_NodeTable :
    (walking 8 4 5).nodesAt 0 codes3 ∧ (walking 8 4 5).treeOf 0 codes3 :=
  ⟨(holds_walk _ rfl).2.2, ⟨rfl, ⟨rfl, rfl⟩, rfl, ⟨rfl, rfl⟩, rfl, rfl⟩⟩

theorem witness_Codes :
    codes3.symbolOf [true, false] = some 0x63#32 ∧ codes3.symbolOf ([true, false] ++ []) = some 0x63#32
      ∧ codes3 = .internal (.leaf 0x61#32) (.internal (.leaf 0x63#32) (.leaf 0x62#32)) := by decide

/-! Scripts: reads and dropped writes between engine turns (P4), and a RESET behind the bound of R198. -/

/-- WRTREE 8, START, engine, RDREG STATUS, engine. -/
def mixed : List Move :=
  [.host 0x50000000800200062#67, .host 0x40000000000000001#67, .engine, .host 0x00000000100000000#67, .engine]

theorem undisturbed_empty {s : State} (h : s.script = []) : s.undisturbed := .inl (by rw [h]; exact List.not_mem_nil)

theorem undisturbed_mixed : ({ loaded with script := mixed } : State).undisturbed := .inl (by decide)

/-- T1 with REPEAT = 4 takes at most 9 engine turns (R198). -/
theorem undisturbed_reset :
    ({ loaded1 with script := mixed ++ List.replicate 7 .engine ++ [.reset] } : State).undisturbed :=
  .inr (by decide)

/-- W1 and W3: a surplus byte, another entry behind the tree, an ignored SYM field (T7), an old result in OUT,
and other host operations. -/
def loaded' : State :=
  { loaded with
    tree := (0, 0x012345#32) :: tree3.tail ++ [(11, 0x600000#32)]
    data := [(0, 0x1F#8), (1, 0x7F#8), (2, 0xFF#8)], out := [(0, 0x7A#32)], script := mixed }

theorem inv_loaded' : loaded'.Inv := by
  refine inv_of ?_ ?_ ?_
  · unfold State.registersFit; decide
  · unfold State.memoriesFit Memory.within; decide
  · unfold State.phaseFits; decide

theorem witness_ResultDepends :
    loaded.Inv ∧ loaded'.Inv ∧ loaded.busy = false ∧ loaded'.busy = false ∧ loaded.undisturbed
      ∧ loaded'.undisturbed ∧ loaded'.params = loaded.params ∧ loaded'.treeLen = loaded.treeLen
      ∧ loaded'.dataBytes = loaded.dataBytes ∧ loaded'.dataLen = loaded.dataLen
      ∧ loaded'.repeatReg = loaded.repeatReg
      ∧ (∀ i, i < loaded.treeLen.toNat → i < loaded.params.treeMax →
          plainEntry (loaded'.entryInstr i) = plainEntry (loaded.entryInstr i))
      ∧ (∀ k, k < loaded.dataLen.toNat → k < 8 * loaded.params.dataMax →
          loaded'.streamBit k = loaded.streamBit k) :=
  ⟨inv_loaded, inv_loaded', rfl, rfl, undisturbed_empty rfl, undisturbed_mixed, rfl, rfl, rfl, rfl, rfl,
    by decide, by decide⟩

theorem inv_start3 : (unpacking 0 [] []).Inv := by
  refine inv_of ?_ ?_ ?_
  · unfold State.registersFit; decide
  · unfold State.memoriesFit Memory.within; decide
  · unfold State.phaseFits; decide

theorem inv_start1 : ({ loaded1 with phase := .unpack } : State).Inv := by
  refine inv_of ?_ ?_ ?_
  · unfold State.registersFit; decide
  · unfold State.memoriesFit Memory.within; decide
  · unfold State.phaseFits; decide

/-- M14 with the stream of W1, T3 and T1. -/
theorem witness_UnpackAgrees :
    let m := { unpacking 0 [] [] with treeLen := 10#32 }
    let s := unpacking 0 [] []
    let s1 := { loaded1 with phase := .unpack }
    m.Inv ∧ s.Inv ∧ s1.Inv ∧ m.phase = .unpack ∧ m.pos = 0 ∧ m.sp = 0 ∧ m.script = [] ∧ m.parse = none
      ∧ s.phase = .unpack ∧ s.pos = 0 ∧ s.sp = 0 ∧ s.script = [] ∧ s.parse = some codes3
      ∧ s1.phase = .unpack ∧ s1.pos = 0 ∧ s1.sp = 0 ∧ s1.script = [] ∧ s1.parse = some (.leaf 0x61#32) := by
  refine ⟨?_, inv_start3, inv_start1, by decide⟩
  refine inv_of ?_ ?_ ?_
  · unfold State.registersFit; decide
  · unfold State.memoriesFit Memory.within; decide
  · unfold State.phaseFits; decide

theorem inv_walk0 : (walking 0 0 0).Inv := by
  refine inv_of ?_ ?_ ?_
  · unfold State.registersFit; decide
  · unfold State.memoriesFit Memory.within; decide
  · unfold State.phaseFits; decide

/-- W1, and W16 with OUT_MAX = 4. -/
theorem witness_WalkPhase :
    let s := walking 0 0 0
    let c := { walking 0 0 0 with params := smallOut }
    s.Inv ∧ s.phase = .walk ∧ s.cur = 0 ∧ s.bitpos = 0 ∧ s.ocnt = 0 ∧ s.script = [] ∧ s.nodesAt 0 codes3
      ∧ (walkFrom codes3 codes3 true s.bits).1.length ≤ s.params.outMax
      ∧ c.Inv ∧ c.nodesAt 0 codes3 ∧ c.params.outMax < (walkFrom codes3 codes3 true c.bits).1.length := by
  have hn : ∀ s : State, s.node = node3 → s.nodesAt 0 codes3 := by
    intro s h
    have ha : ∀ i, s.nodeAt i = (Memory.read node3 i).getD (s.freeNode i) := fun i => by
      unfold State.nodeAt; rw [h]
    simp only [codes3, State.nodesAt, ha]
    exact ⟨rfl, rfl, rfl, ⟨rfl, rfl⟩, rfl, rfl, rfl, ⟨rfl, rfl⟩, rfl, rfl⟩
  refine ⟨inv_walk0, rfl, rfl, rfl, rfl, rfl, hn _ rfl, by decide, ?_, hn _ rfl, by decide⟩
  refine inv_of ?_ ?_ ?_
  · unfold State.registersFit; decide
  · unfold State.memoriesFit Memory.within; decide
  · unfold State.phaseFits; decide

theorem inv_repeat0_full : ({ repeating 0 0 with repeatReg := 65536#32 } : State).Inv := by
  refine inv_of ?_ ?_ ?_
  · unfold State.registersFit; decide
  · unfold State.memoriesFit Memory.within; decide
  · unfold State.phaseFits; decide

theorem inv_repeat0_over : ({ repeating 0 0 with repeatReg := 65537#32 } : State).Inv := by
  refine inv_of ?_ ?_ ?_
  · unfold State.registersFit; decide
  · unfold State.memoriesFit Memory.within; decide
  · unfold State.phaseFits; decide

/-- REPEAT at OUT_MAX and one above it. -/
theorem witness_RepeatPhase :
    let s := { repeating 0 0 with repeatReg := 65536#32 }
    let c := { repeating 0 0 with repeatReg := 65537#32 }
    s.Inv ∧ c.Inv ∧ s.phase = .repeatLeaf ∧ s.repcnt = 0 ∧ s.script = []
      ∧ s.repeatReg.toNat ≤ s.params.outMax ∧ c.params.outMax < c.repeatReg.toNat :=
  ⟨inv_repeat0_full, inv_repeat0_over, by decide⟩

theorem witness_EveryRunEnds :
    (eighth.Inv ∧ eighth.busy = true ∧ eighth.undisturbed)
      ∧ ((walking 8 4 5).Inv ∧ (walking 8 4 5).busy = true ∧ (walking 8 4 5).undisturbed)
      ∧ (repeating 4 3).Inv ∧ (repeating 4 3).busy = true ∧ (repeating 4 3).undisturbed :=
  ⟨⟨inv_unpack, rfl, undisturbed_empty rfl⟩, ⟨inv_walk, rfl, undisturbed_empty rfl⟩, inv_repeat, rfl,
    undisturbed_empty rfl⟩

/-- With an empty script, and with host operations during the run. -/
theorem witness_RunComputesDecode :
    (loaded.Inv ∧ loaded.busy = false ∧ loaded.undisturbed)
      ∧ loaded'.Inv ∧ loaded'.busy = false ∧ loaded'.undisturbed :=
  ⟨⟨inv_loaded, rfl, undisturbed_empty rfl⟩, inv_loaded', rfl, undisturbed_mixed⟩

/-- The scenario S1: "aaabbc" over T3. -/
theorem witness_WellFormedStream :
    let codes := [[false], [false], [false], [true, true], [true, true], [true, false]]
    let text := [0x61#32, 0x61#32, 0x61#32, 0x62#32, 0x62#32, 0x63#32]
    loaded.Inv ∧ loaded.busy = false ∧ loaded.undisturbed ∧ loaded.treeLen.toNat ≤ loaded.params.treeMax
      ∧ loaded.dataBytes.toNat ≤ loaded.params.dataMax ∧ loaded.serialized = codes3.entries
      ∧ loaded.wellFormedStream codes ∧ codes.map codes3.symbolOf = text.map some
      ∧ text.length ≤ loaded.params.outMax := by
  have hp : ∀ k, k < 16 → 9 ≤ k → loaded.streamBit k = false := by decide
  exact ⟨inv_loaded, rfl, undisturbed_empty rfl, by decide, by decide, by decide,
    ⟨by decide, by decide, fun k h1 h2 => hp k h2 h1⟩, by decide, by decide⟩

/-- P-R1, and REPEAT at OUT_MAX. -/
theorem witness_SingleLeaf :
    loaded1.Inv ∧ loaded1.busy = false ∧ loaded1.undisturbed
      ∧ loaded1.serialized = (CodeTree.leaf 0x61#32).entries ∧ loaded1.treeLen.toNat ≤ loaded1.params.treeMax
      ∧ loaded1.dataBytes = 0#32 ∧ loaded1.dataLen = 0#32
      ∧ loaded1.repeatReg.toNat ≤ loaded1.params.outMax
      ∧ (65536#32 : Word).toNat ≤ loaded1.params.outMax := by
  refine ⟨?_, rfl, undisturbed_empty rfl, by decide⟩
  refine inv_of ?_ ?_ ?_
  · unfold State.registersFit; decide
  · unfold State.memoriesFit Memory.within; decide
  · unfold State.phaseFits; decide

/-- The same with a RESET behind the run's bound. -/
theorem witness_SingleLeaf_reset :
    let s := ({ loaded1 with script := mixed ++ List.replicate 7 .engine ++ [.reset] } : State)
    s.Inv ∧ s.busy = false ∧ s.undisturbed := by
  refine ⟨?_, rfl, undisturbed_reset⟩
  refine inv_of ?_ ?_ ?_
  · unfold State.registersFit; decide
  · unfold State.memoriesFit Memory.within; decide
  · unfold State.phaseFits; decide

end Sys2Proof.Tests
end

section
/-!
SUPPORT. What a step is when the next move is known (R11): a host operation, the engine's turn in each busy phase,
the engine's turn when the block holds its state.
-/

namespace Sys2Proof.Machine

theorem step_of_fetch_run {i : Instr} {s t : State} (h : fetch s = .run i t) : step s = exec i t := by
  rw [step, h]

theorem step_of_fetch_ended {o : Result} {s : State} (h : fetch s = .ended o) : step s = o := by
  rw [step, h]

theorem fetch_host {s : State} {w : BitVec 67} (h : s.script.head? = some (.host w)) :
    fetch s = .run (decodeHost w.toNat) s.rest := by
  rcases fetch_cases s with ⟨v, hv, hf⟩ | ⟨hr, -⟩ | ⟨hn | he, -⟩
  · have hvw : v = w := by simpa [h] using hv.symm
    rw [hf, hvw]
  · simp [h] at hr
  · simp [hn] at h
  · simp [h] at he

/-- A host operation at the head of the script is run on the state with the script's head taken (R83). -/
theorem step_host {s : State} {w : BitVec 67} (h : s.script.head? = some (.host w)) :
    step s = exec (decodeHost w.toNat) s.rest :=
  step_of_fetch_run (fetch_host h)

/-- In UNPACK the engine's turn fetches `TREE[POS]` (R97). -/
theorem engineTurn_entry {s : State} (hp : s.phase = .unpack) (hl : s.pos < s.treeLen.toNat)
    (hm : s.pos < s.params.treeMax) : engineTurn s = .run (s.entryInstr s.pos) s := by
  simp [engineTurn, fetchEntry, State.entryInstr, hp, Nat.not_le.mpr hl, hm]

/-- In WALK the engine's turn fetches `Bit(BITPOS)` (R111). -/
theorem engineTurn_bit {s : State} (hp : s.phase = .walk) (hl : s.bitpos ≠ s.dataLen.toNat)
    (hm : s.bitpos / 8 < s.params.dataMax) :
    engineTurn s = .run (decodeBit (s.streamBit s.bitpos).toNat) s := by
  simp [engineTurn, fetchBit, hp, hl, hm]

/-- When the block is not busy the engine's turn holds the state (R12, R177). -/
theorem engineTurn_not_busy {s : State} (hb : s.busy = false) : engineTurn s = .ended (.next s) := by
  cases hp : s.phase with
  | idle | done | error => simp [engineTurn, hp]
  | unpack | walk | repeatLeaf => simp [State.busy, hp] at hb

theorem step_engine_not_busy {s : State} (he : s.engineNext) (hb : s.busy = false) : step s = .next s.rest :=
  step_of_fetch_ended ((fetch_engineNext he).trans (engineTurn_not_busy (by simpa using hb)))

end Sys2Proof.Machine
end

section
/-!
SUPPORT. Host operations and the result of a run (R151, R169): START is the only one that touches PHASE, ERR, OCNT
or OUT.
-/

namespace Sys2Proof.Machine

/-- What a record decodes to is a host operation. -/
theorem decodeHost_format (w : Nat) : (decodeHost w).format = .hostop := by
  simp only [decodeHost, hostOpOf]
  split
  case h_5 => split <;> rfl
  all_goals rfl

/-- What a record decodes to is well formed: the write that is START does not decode to WRREG (R83). -/
theorem decodeHost_wellFormed (p : Params) (w : Nat) : (decodeHost w).WellFormed p = true := by
  simp only [decodeHost, hostOpOf]
  split
  case h_5 =>
    split
    · rfl
    · next h => simpa [Instr.WellFormed] using h
  all_goals rfl

/-- The result a run leaves is unchanged: PHASE, ERR, OCNT and OUT (R151). -/
def sameResult (s t : State) : Prop := sameFlags s t ∧ sameOut s t

theorem sameResult_refl (s : State) : sameResult s s := ⟨⟨rfl, rfl, rfl⟩, fun _ => rfl⟩

/-- Under the write lock a write leaves the result alone if it does so when it lands (R149). -/
theorem whenFree_sameResult {write : State → State} {s : State} (h : sameResult s (write s)) :
    sameResult s (whenFree write s) := by
  rcases whenFree_cases write s with ⟨-, he⟩ | ⟨-, he⟩ <;> rw [he]
  · exact sameResult_refl s
  · exact h

/-- A register write that is not START leaves the result alone (R142). -/
theorem regWrite_sameResult {i v : Word} (h : isStart i v = false) (s : State) :
    sameResult s (regWrite i v s) := by
  simp only [regWrite]
  split
  case h_1 hi =>
    have hi : i = 0#32 := BitVec.eq_of_toNat_eq hi
    have hv : v.getLsbD 0 = false := by simpa [isStart, hi] using h
    rw [hv]
    exact sameResult_refl s
  all_goals exact ⟨⟨rfl, rfl, rfl⟩, fun _ => rfl⟩

/-- Every host operation but START leaves the result alone, in every phase (R142, R145 to R147). -/
theorem exec_hostop_sameResult {i : Instr} {s t : State} (hf : i.format = .hostop)
    (hw : i.WellFormed s.params = true) (hs : ∀ u, i ≠ .start u) (h : exec i s = .next t) :
    sameResult s t := by
  cases i with
  | internal | leaf | absent | rsvd | left | right => cases hf
  | start u => exact absurd rfl (hs u)
  | rdreg | rdtree | rddata | wrout =>
    injection h with h
    rw [← h]
    exact sameResult_refl s
  | rdout i v =>
    injection h with h
    rw [← h]
    split
    · exact sameResult_refl s
    · split <;> exact sameResult_refl s
  | wrreg i v =>
    injection h with h
    rw [← h]
    exact whenFree_sameResult (regWrite_sameResult (by simpa [Instr.WellFormed] using hw) s)
  | wrtree i v | wrdata i v =>
    injection h with h
    rw [← h]
    exact whenFree_sameResult (by split <;> exact sameResult_refl s)

end Sys2Proof.Machine
end

section
/-!
The statements of 00_scope.md.
-/

namespace Sys2Proof.Machine

/-- Settles O21: under the write lock a decoded host operation changes only the host's own side. -/
theorem hostOperationsLeaveABusyBlockAlone : Obligations.HostOperationsLeaveABusyBlockAlone := by
  intro s w hb hw
  obtain ⟨d, r, he⟩ := exec_decodeHost_busy w.toNat (s := s.rest) (by simpa using hb)
  have hstep := (step_host hw).trans he
  refine ⟨_, hstep, ?_, step_script hstep⟩
  exact ⟨⟨rfl, rfl, rfl, rfl, rfl, fun _ => rfl, fun _ => rfl⟩, fun _ => rfl, fun _ => rfl, fun _ => rfl,
    ⟨rfl, rfl⟩, ⟨rfl, rfl, rfl⟩, ⟨rfl, rfl, rfl⟩⟩

/-- Settles O23, by the next move: a host operation is not START, RESET is excluded, and the engine holds its
state. -/
theorem resultIsHeldUntilStartOrReset : Obligations.ResultIsHeldUntilStartOrReset := by
  intro s t hp hstep hreset hstart
  change sameResult s.rest t
  rcases fetch_cases s with ⟨w, hw, -⟩ | ⟨hr, -⟩ | ⟨he, -⟩
  · rw [step_host hw] at hstep
    exact exec_hostop_sameResult (decodeHost_format _) (decodeHost_wellFormed _ _)
      (fun u hu => hstart ⟨w, u, hw, hu⟩) hstep
  · exact absurd hr hreset
  · have hb : s.busy = false := by rcases hp with hp | hp <;> simp [State.busy, hp]
    rw [step_engine_not_busy he hb] at hstep
    injection hstep with hstep
    exact hstep ▸ sameResult_refl _

/-- Settles O10: the record, the entry and the bit decode to what the step's fetch names. -/
theorem stepRunsTheDecodedInstruction : Obligations.StepRunsTheDecodedInstruction := by
  intro s i
  refine ⟨fun w hw hd => ?_, fun he hp hl hm hd => ?_, fun he hp hl hm hd => ?_⟩
  · rw [decode_hostop w.isLt] at hd
    injection hd with hd
    rw [← hd, step_host hw]
  · rw [decode_entry (s.entryAt_lt s.pos)] at hd
    injection hd with hd
    rw [← hd]
    exact step_of_fetch_run ((fetch_engineNext he).trans (engineTurn_entry hp hl hm))
  · rw [decode_bit (s.streamBit s.bitpos).toNat_lt] at hd
    injection hd with hd
    rw [← hd]
    exact step_of_fetch_run ((fetch_engineNext he).trans (engineTurn_bit hp hl hm))

/-- Settles O11: an engine turn outside the busy phases fetches the state itself. -/
theorem engineHoldsItsStateWhenNotBusy : Obligations.EngineHoldsItsStateWhenNotBusy :=
  fun _ => step_engine_not_busy

end Sys2Proof.Machine
end

section
/-!
SUPPORT. What a step can do (R11), said once: the effect of a host operation, the effect of an engine turn, and
the inversion of `step` into one of them or RESET.
-/

namespace Sys2Proof.Machine

/-! ### Host operations -/

/-- What a host operation can do to the block (R141 to R147): nothing but answer the host, or one write, which
finds the block not busy (R149). -/
inductive HostEffect (s : State) : State → Prop where
  | answer (d : Nat) (r : Option Word) : HostEffect s { s with draws := d, hostRead := r }
  | register (i v : Word) (hb : s.busy = false) : HostEffect s (regWrite i v s)
  | start (hb : s.busy = false) : HostEffect s (startRun s)
  | entry (i : Nat) (e : Word) (hb : s.busy = false) (hi : i < s.params.treeMax)
      (he : e.toNat < 2 ^ s.params.entryW) : HostEffect s (s.setTree i e)
  | byte (i : Nat) (b : Byte) (hb : s.busy = false) (hi : i < s.params.dataMax) : HostEffect s (s.setData i b)

theorem HostEffect.refl (s : State) : HostEffect s s := .answer s.draws s.hostRead

/-- The write lock (R149): a write has an effect only where the block is not busy. -/
theorem HostEffect.whenFree {write : State → State} {s : State}
    (h : s.busy = false → HostEffect s (write s)) : HostEffect s (whenFree write s) := by
  rcases whenFree_cases write s with ⟨-, he⟩ | ⟨hb, he⟩ <;> rw [he]
  · exact .refl s
  · exact h hb

/-- Every host operation has one of these effects. -/
theorem exec_hostop_effect {i : Instr} {s t : State} (hf : i.format = .hostop) (h : exec i s = .next t) :
    HostEffect s t := by
  cases i with
  | internal | leaf | absent | rsvd | left | right => cases hf
  | rdreg | rdtree | rddata =>
    injection h with h
    exact h ▸ .answer s.draws _
  | wrout =>
    injection h with h
    exact h ▸ .refl s
  | rdout i v =>
    injection h with h
    rw [← h]
    split
    · exact .answer s.draws _
    · split
      · exact .answer s.draws _
      · exact .answer (s.draws + 1) _
  | wrreg i v =>
    injection h with h
    exact h ▸ .whenFree (.register i v)
  | start u =>
    injection h with h
    exact h ▸ .whenFree .start
  | wrtree i v =>
    injection h with h
    refine h ▸ .whenFree fun hb => ?_
    split
    · next hi => exact .entry _ _ hb hi (cut_lt v)
    · exact .refl s
  | wrdata i v =>
    injection h with h
    refine h ▸ .whenFree fun hb => ?_
    split
    · next hi => exact .byte _ _ hb hi
    · exact .refl s

/-! ### Engine turns -/

/-- The tree entry that opens a node of a kind (R91, R92). -/
def nodeEntry : Kind → Word → Instr
  | .internal, sym => .internal sym
  | .leaf, sym => .leaf sym

/-- What an engine turn can do: one effect per rule of R97, R111 to R117, R132, the entry into ERROR (R166), and
none when the block is not busy (R12). -/
inductive EngineEffect (s : State) : State → Prop where
  | error (e : Err) (he : e ≠ .none) : EngineEffect s (raise e s)
  | opens (k : Kind) (sym : Word) (hp : s.phase = .unpack) (hl : s.pos < s.treeLen.toNat)
      (he : s.entryInstr s.pos = nodeEntry k sym) (hc : s.ctx ≠ .under .leaf)
      (hpos : s.pos < s.params.treeMax) (hsp : s.sp < s.params.treeMax) :
      EngineEffect s (pushFrame (linkParent (openRecord k sym s)))
  | completes (sym : Word) (hp : s.phase = .unpack) (hl : s.pos < s.treeLen.toNat)
      (he : s.entryInstr s.pos = .absent sym) (hc : s.ctx = .under .leaf) : EngineEffect s (complete s)
  | moves (nxt : Nat) (hp : s.phase = .walk) (hb : s.bitpos ≠ s.dataLen.toNat) (hn : nxt < s.params.treeMax)
      (hk : (s.nodeAt nxt).kind = .internal) : EngineEffect s { s with bitpos := s.bitpos + 1, cur := nxt }
  | emits (nxt : Nat) (hp : s.phase = .walk) (hb : s.bitpos ≠ s.dataLen.toNat) (ho : s.ocnt < s.params.outMax) :
      EngineEffect s { s.append (s.nodeAt nxt).sym with bitpos := s.bitpos + 1, cur := 0 }
  | copies (hp : s.phase = .repeatLeaf) (hr : s.repcnt ≠ s.repeatReg.toNat) (ho : s.ocnt < s.params.outMax) :
      EngineEffect s { s.append (s.nodeAt 0).sym with repcnt := s.repcnt + 1 }
  | ends (hp : s.phase = .walk ∨ s.phase = .repeatLeaf) : EngineEffect s { s with phase := .done }
  | holds (hb : s.busy = false) : EngineEffect s s

/-- What an entry decodes to is a tree entry (R72). -/
theorem decodeEntry_format (p : Params) (e : Nat) : (decodeEntry p e).format = .entry := by
  simp only [decodeEntry, entryOfTag]
  split <;> rfl

/-- The symbol of a node marker read from TREE has SYM_W bits (R71). -/
theorem nodeEntry_sym_lt {s : State} {i : Nat} {k : Kind} {sym : Word} (h : s.entryInstr i = nodeEntry k sym) :
    sym.toNat < 2 ^ s.params.symW := by
  have hw : (nodeEntry k sym).WellFormed s.params = true := h ▸ decodeEntry_wellFormed _ _
  cases k <;> exact of_decide_eq_true hw

/-- The UNPACK step on a fetched node marker (R91, R92). -/
theorem nodeMarker_effect {k : Kind} {sym : Word} {s t : State} (hp : s.phase = .unpack)
    (hl : s.pos < s.treeLen.toNat) (he : s.entryInstr s.pos = nodeEntry k sym)
    (h : nodeMarker k sym s = .next t) : EngineEffect s t := by
  rcases nodeMarker_next h with ⟨-, rfl⟩ | ⟨hc, hpos, hsp, rfl⟩
  · exact .error _ (by decide)
  · exact .opens k sym hp hl he hc hpos hsp

/-- The UNPACK step on a fetched entry (R91 to R94). -/
theorem exec_entry_effect {s t : State} (hp : s.phase = .unpack) (hl : s.pos < s.treeLen.toNat)
    (h : exec (s.entryInstr s.pos) s = .next t) : EngineEffect s t := by
  have hf : (s.entryInstr s.pos).format = .entry := decodeEntry_format _ _
  cases hi : s.entryInstr s.pos with
  | internal sym => rw [hi] at h; exact nodeMarker_effect (k := .internal) hp hl hi h
  | leaf sym => rw [hi] at h; exact nodeMarker_effect (k := .leaf) hp hl hi h
  | absent sym =>
    rw [hi] at h
    obtain ⟨-, -, h⟩ := inUnpack_next h
    injection h with h
    rw [← h]
    split
    · next hc => exact .completes sym hp hl hi hc
    · exact .error _ (by decide)
  | rsvd sym =>
    rw [hi] at h
    simp only [exec, execRsvd, hp, ne_eq, not_true_eq_false, if_false] at h
    injection h with h
    exact h ▸ .error _ (by decide)
  | _ => rw [hi] at hf; cases hf

/-- The WALK step on a fetched bit (R111 to R114). -/
theorem moveTo_effect {child : NodeRec → Nat} {s t : State} (hb : s.bitpos ≠ s.dataLen.toNat)
    (h : moveTo child s = .next t) : EngineEffect s t := by
  obtain ⟨hp, -, h⟩ := moveTo_next h
  obtain ⟨hn, ⟨-, h⟩ | ⟨hk, rfl⟩⟩ := arrive_next h
  · rcases emit_cases h with ⟨-, rfl⟩ | ⟨ho, rfl⟩
    · exact .error .capacity (by decide)
    · exact .emits _ hp hb ho
  · exact .moves _ hp hb hn hk

/-- The end of the stream (R115, R116). -/
theorem endStream_effect {s : State} (hp : s.phase = .walk) : EngineEffect s (endStream s) := by
  rcases endStream_cases s with ⟨-, h⟩ | ⟨-, h⟩ <;> rw [h]
  · exact .ends (.inl hp)
  · exact .error _ (by decide)

/-- The REPEAT step (R132). -/
theorem repeatStep_effect {s t : State} (hp : s.phase = .repeatLeaf) (h : repeatStep s = .next t) :
    EngineEffect s t := by
  simp only [repeatStep] at h
  split at h
  · injection h with h
    exact h ▸ .ends (.inr hp)
  · next hr =>
    rcases emit_cases h with ⟨-, rfl⟩ | ⟨ho, rfl⟩
    · exact .error _ (by decide)
    · exact .copies hp hr ho

/-! ### Steps -/

/-- Everything a step can do (R11): a host operation, RESET or an engine turn, on the state with the move taken off
the script. -/
theorem step_effect {s t : State} (h : step s = .next t) :
    HostEffect s.rest t ∨ (s.script.head? = some .reset ∧ t = s.rest.resetBlock) ∨ EngineEffect s.rest t := by
  rcases fetch_cases s with ⟨w, -, hf⟩ | ⟨hr, hf⟩ | ⟨-, hf⟩ <;> rw [step, hf] at h
  · exact .inl (exec_hostop_effect (decodeHost_format _) h)
  · injection h with h
    exact .inr (.inl ⟨hr, h.symm⟩)
  · refine .inr (.inr ?_)
    rcases engineTurn_cases s.rest with ⟨-, -, he⟩ | ⟨hp, hl, -, he⟩ | ⟨-, -, -, he⟩ | ⟨hp, -, he⟩
      | ⟨-, hb, -, he⟩ | ⟨-, -, -, he⟩ | ⟨hp, he⟩ | ⟨hb, he⟩ <;> rw [he] at h
    · injection h with h
      exact h ▸ .error _ (by decide)
    · exact exec_entry_effect hp hl h
    · cases h
    · injection h with h
      exact h ▸ endStream_effect hp
    · cases hbit : s.rest.streamBit s.rest.bitpos <;> rw [hbit] at h
      · exact moveTo_effect (child := NodeRec.left) hb h
      · exact moveTo_effect (child := NodeRec.right) hb h
    · cases h
    · exact repeatStep_effect hp h
    · injection h with h
      exact h ▸ .holds hb

end Sys2Proof.Machine
end

section
/-!
SUPPORT. `Complete` with the frames it pops (R97, R99), and the inputs of a run under each effect (R44 (g), R64).
-/

namespace Sys2Proof.Machine

/-- Everything the loop of `Complete` can do, with the frames it pops: those above the one it stops at have read
their right position. -/
theorem completeFrames_pops (s : State) (n : Nat) :
    ((∀ k < n, (s.frameAt k).stage = .right) ∧ completeFrames s n = finishRoot { s with sp := 0 })
      ∨ ∃ m < n, (s.frameAt m).stage = .left ∧ (∀ k, m < k → k < n → (s.frameAt k).stage = .right)
        ∧ completeFrames s n = { s.setFrame m { idx := (s.frameAt m).idx, stage := .right } with sp := m + 1 } := by
  induction n with
  | zero => exact .inl ⟨by simp, rfl⟩
  | succ n ih =>
    simp only [completeFrames]
    split
    · next hst => exact .inr ⟨n, by omega, hst, by omega, rfl⟩
    · next hst =>
      have popped : ∀ m, (∀ k, m < k → k < n → (s.frameAt k).stage = .right) →
          ∀ k, m < k → k < n + 1 → (s.frameAt k).stage = .right := fun m h k hk hkn => by
        rcases Nat.lt_or_eq_of_le (Nat.le_of_lt_succ hkn) with hlt | rfl
        · exact h k hk hlt
        · exact hst
      rcases ih with ⟨hall, h⟩ | ⟨m, hm, hs, hall, h⟩
      · refine .inl ⟨fun k hk => ?_, h⟩
        rcases Nat.lt_or_eq_of_le (Nat.le_of_lt_succ hk) with hlt | rfl
        · exact hall k hlt
        · exact hst
      · exact .inr ⟨m, by omega, hs, popped m hall, h⟩

/-- Everything `Complete` can do (R97, R99): a frame goes on to its right position, or the root is finished, which
is an error or the entry into REPEAT or WALK. -/
theorem complete_cases (s : State) :
    (∃ m < s.sp, (s.frameAt m).stage = .left ∧ (∀ k, m < k → k < s.sp → (s.frameAt k).stage = .right)
        ∧ complete s = { s.setFrame m { idx := (s.frameAt m).idx, stage := .right } with
            pos := s.pos + 1, sp := m + 1 })
      ∨ (∃ e, e ≠ .none ∧ complete s = raise e s)
      ∨ ((∀ k < s.sp, (s.frameAt k).stage = .right) ∧ s.pos + 1 = s.treeLen.toNat
        ∧ (complete s = { s with pos := s.pos + 1, sp := 0, repcnt := 0, phase := .repeatLeaf }
          ∨ complete s = { s with pos := s.pos + 1, sp := 0, cur := 0, bitpos := 0, phase := .walk })) := by
  rcases completeFrames_pops { s with pos := s.pos + 1 } s.sp with ⟨hall, h⟩ | h
  · have hc : complete s = finishRoot { s with pos := s.pos + 1, sp := 0 } := h
    rcases finishRoot_cases { s with pos := s.pos + 1, sp := 0 } with ⟨-, hf⟩ | ⟨-, -, hf⟩ | ⟨-, -, -, hf⟩
      | ⟨hp, -, -, hf⟩ | ⟨hp, -, -, hf⟩
    · exact .inr (.inl ⟨_, by decide, hc.trans hf⟩)
    · exact .inr (.inl ⟨_, by decide, hc.trans hf⟩)
    · exact .inr (.inl ⟨_, by decide, hc.trans hf⟩)
    · exact .inr (.inr ⟨hall, hp, .inl (hc.trans hf)⟩)
    · exact .inr (.inr ⟨hall, hp, .inr (hc.trans hf)⟩)
  · exact .inl h

/-! ### The inputs of a run -/

/-- The inputs are TREE, DATA, four registers and the parameters (R86). -/
theorem sameInputs_of_fields {s t : State} (hp : t.params = s.params) (htl : t.treeLen = s.treeLen)
    (hdb : t.dataBytes = s.dataBytes) (hdl : t.dataLen = s.dataLen) (hr : t.repeatReg = s.repeatReg)
    (ht : t.tree = s.tree) (hd : t.data = s.data) (hs : t.hostStamp = s.hostStamp) : sameInputs s t := by
  refine ⟨hp, htl, hdb, hdl, hr, fun a => ?_, fun a => ?_⟩
  · rw [State.entryAt, State.entryAt, hp, ht, hs]
  · rw [State.dataAt, State.dataAt, hd, hs]

theorem complete_sameInputs (s : State) : sameInputs s (complete s) := by
  rcases complete_cases s with ⟨m, -, -, -, h⟩ | ⟨e, -, h⟩ | ⟨-, -, h | h⟩ <;> rw [h] <;>
    exact sameInputs_of_fields rfl rfl rfl rfl rfl rfl rfl rfl

/-- The engine writes no input (R64). -/
theorem EngineEffect.sameInputs {s t : State} (h : EngineEffect s t) : sameInputs s t := by
  cases h with
  | opens k sym =>
    obtain ⟨m, f, he⟩ := open_eq k sym s
    rw [he]
    exact sameInputs_of_fields rfl rfl rfl rfl rfl rfl rfl rfl
  | completes => exact complete_sameInputs s
  | _ => exact sameInputs_of_fields rfl rfl rfl rfl rfl rfl rfl rfl

theorem startRun_params (s : State) : (startRun s).params = s.params := by
  rcases startRun_cases s with ⟨-, h⟩ | ⟨-, -, h⟩ <;> simp [h]

theorem regWrite_params (i v : Word) (s : State) : (regWrite i v s).params = s.params := by
  rcases regWrite_cases i v s with h | h | h | h | h | h <;> rw [h]
  exact startRun_params s

theorem HostEffect.params {s t : State} (h : HostEffect s t) : t.params = s.params := by
  cases h with
  | register i v => exact regWrite_params i v s
  | start => exact startRun_params s
  | _ => rfl

end Sys2Proof.Machine
end

section
/-!
SUPPORT. Every effect of a step keeps the invariant of widths and of R44.
-/

namespace Sys2Proof.Machine

/-- Outside the busy phases the invariant speaks of the memories, the working registers and the flags only. -/
theorem State.Inv.of_not_busy {s t : State} (h : s.Inv) (hb : s.busy = false) (hr : t.registersFit)
    (hm : t.memoriesFit) (hp : t.phase = s.phase) (he : t.err = s.err) (ho : t.ocnt = s.ocnt) : t.Inv := by
  obtain ⟨hu, hw, hl⟩ : s.phase ≠ .unpack ∧ s.phase ≠ .walk ∧ s.phase ≠ .repeatLeaf := by
    rw [← Bool.not_eq_true, State.busy_iff] at hb
    tauto
  obtain ⟨-, -, herr, hocnt, -⟩ := h
  refine ⟨hr, hm, ?_⟩
  unfold State.phaseFits
  rw [hp, he, ho]
  exact ⟨herr, hocnt, fun h => absurd h hu, fun h => absurd h hw, fun h => absurd h hl⟩

/-- A host operation keeps the invariant. -/
theorem HostEffect.inv {s t : State} (h : HostEffect s t) (hi : s.Inv) : t.Inv := by
  obtain ⟨hr, htree, hdata, hrest⟩ := hi.imp_right And.left
  cases h with
  | answer d r => exact hi.withHost d r s.script
  | register i v hb => exact regWrite_inv i v hb hi
  | start => exact startRun_inv hi
  | entry i e hb ha he =>
    exact hi.of_not_busy hb hr ⟨Memory.within_write htree ha he, hdata, hrest⟩ rfl rfl rfl
  | byte i b hb ha =>
    exact hi.of_not_busy hb hr ⟨htree, Memory.within_write hdata ha trivial, hrest⟩ rfl rfl rfl

/-- In a phase other than ERROR no error is recorded (R44 (a)). -/
theorem State.phaseFits.err_none {s : State} (h : s.phaseFits) (hp : s.phase ≠ .error) : s.err = .none := by
  by_contra he
  exact hp (h.1.mp he)

/-- `Open` keeps the invariant: one frame and one entry more, within TREE_LEN (R44 (b)). -/
theorem open_inv {k : Kind} {sym : Word} {s : State} (hi : s.Inv) (hp : s.phase = .unpack)
    (hl : s.pos < s.treeLen.toNat) (hpos : s.pos < s.params.treeMax) (hsp : s.sp < s.params.treeMax)
    (hsym : sym.toNat < 2 ^ s.params.symW) : (pushFrame (linkParent (openRecord k sym s))).Inv := by
  obtain ⟨⟨-, -, hcur, hbit, hrep, hocnt⟩, hm, hf⟩ := hi
  have herr := hf.err_none (by simp [hp])
  obtain ⟨-, hout, hu, -⟩ := hf
  obtain ⟨htl, hdb, -, hspos⟩ := hu hp
  have hlt := s.params.treeMax_lt
  have hm' := open_memoriesFit (k := k) hm hpos hsp hsym
  obtain ⟨n, f, he⟩ := open_eq k sym s
  rw [he] at hm' ⊢
  refine ⟨⟨?_, ?_, hcur, hbit, hrep, hocnt⟩, hm', by simp [hp, herr], fun _ => hout (by simp [hp]),
    fun _ => ⟨htl, hdb, hl, Nat.succ_le_succ hspos⟩, by simp [hp], by simp [hp]⟩
  · show s.pos + 1 < 2 ^ (s.params.treeAW + 1)
    omega
  · show s.sp + 1 < 2 ^ (s.params.treeAW + 1)
    omega

/-- `Complete` keeps the invariant. -/
theorem complete_inv {s : State} (hi : s.Inv) (hp : s.phase = .unpack) (hl : s.pos < s.treeLen.toNat) :
    (complete s).Inv := by
  obtain ⟨⟨-, hsp, hreg⟩, hm, hf⟩ := hi
  obtain ⟨htl, hdb, -, hspos⟩ := hf.2.2.1 hp
  have hlt := s.params.treeMax_lt
  have hpos : s.pos + 1 < 2 ^ (s.params.treeAW + 1) := by omega
  exact completeFrames_inv (s := { s with pos := s.pos + 1 }) ⟨hpos, hsp, hreg⟩ hm hp
    (hf.err_none (by simp [hp])) (hf.2.1 (by simp [hp])) htl hdb hl (Nat.le_succ_of_le hspos)

/-- An engine turn keeps the invariant. -/
theorem EngineEffect.inv {s t : State} (h : EngineEffect s t) (hi : s.Inv) : t.Inv := by
  have ⟨hreg, hm, hf⟩ := hi
  have hlen := s.dataLen.isLt
  have hcount := s.repeatReg.isLt
  have ⟨hpos, hsp, hcur, hbit, hrep, hocnt⟩ := hreg
  have ⟨_, _, _, hw, hl⟩ := hf
  cases h with
  | error e he => exact raise_inv he hm
  | opens k sym hp hlt he hc hpos hsp => exact open_inv hi hp hlt hpos hsp (nodeEntry_sym_lt he)
  | completes sym hp hlt => exact complete_inv hi hp hlt
  | moves nxt hp hb hn hk =>
    obtain ⟨hroot, -, hle, hbytes, hdb⟩ := hw hp
    refine ⟨⟨hpos, hsp, hn, ?_, hrep, hocnt⟩, hm, ?_⟩
    · show s.bitpos + 1 < 2 ^ 32
      omega
    · refine ⟨hf.1, hf.2.1, by simp [hp], fun _ => ⟨hroot, hk, ?_, hbytes, hdb⟩, by simp [hp]⟩
      show s.bitpos + 1 ≤ s.dataLen.toNat
      omega
  | emits nxt hp hb ho =>
    obtain ⟨hroot, -, hle, hbytes, hdb⟩ := hw hp
    obtain ⟨⟨-, -, -, -, -, hout⟩, hm'⟩ := append_fits hreg hm ho (s.nodeAt_fits hm nxt).1
    refine ⟨⟨hpos, hsp, s.params.treeMax_pos, ?_, hrep, hout⟩, hm', ?_⟩
    · show s.bitpos + 1 < 2 ^ 32
      omega
    · refine ⟨hf.1, by simp [hp], by simp [hp], fun _ => ⟨hroot, hroot, ?_, hbytes, hdb⟩, by simp [hp]⟩
      show s.bitpos + 1 ≤ s.dataLen.toNat
      omega
  | copies hp hne ho =>
    obtain ⟨hroot, hz, hle, heq⟩ := hl hp
    obtain ⟨⟨-, -, -, -, -, hout⟩, hm'⟩ := append_fits hreg hm ho (s.nodeAt_fits hm 0).1
    refine ⟨⟨hpos, hsp, hcur, hbit, ?_, hout⟩, hm', ?_⟩
    · show s.repcnt + 1 < 2 ^ 32
      omega
    · refine ⟨hf.1, by simp [hp], by simp [hp], by simp [hp], fun _ => ⟨hroot, hz, ?_, congrArg (· + 1) heq⟩⟩
      show s.repcnt + 1 ≤ s.repeatReg.toNat
      omega
  | ends hp =>
    have herr : s.err = .none := hf.err_none (by rcases hp with hp | hp <;> simp [hp])
    exact ⟨hreg, hm, by simp [herr], by simp, by simp, by simp, by simp⟩
  | holds => exact ⟨hreg, hm, hf⟩

end Sys2Proof.Machine
end

section
/-!
SUPPORT. The terms of the tree invariant (R96, R97), case by case, and what leaves them unchanged.
-/

namespace Sys2Proof.Machine

/-! ### Entries and records of a subtree -/

theorem sameInputs.entryInstr {s t : State} (h : sameInputs s t) (a : Nat) : t.entryInstr a = s.entryInstr a := by
  rw [State.entryInstr, State.entryInstr, h.1, h.2.2.2.2.2.1 a]

theorem State.spells_congr {s t : State} {i : Nat} {c : CodeTree}
    (he : ∀ a, t.entryInstr a = s.entryInstr a) : t.spells i c ↔ s.spells i c := by
  simp only [State.spells, he]

/-- The entries of a leaf (R74). -/
theorem State.spells_leaf {s : State} {i : Nat} {sym : Word} (h0 : s.entryInstr i = .leaf sym)
    (h1 : plainEntry (s.entryInstr (i + 1)) = .absent 0#32)
    (h2 : plainEntry (s.entryInstr (i + 2)) = .absent 0#32) : s.spells i (.leaf sym) := by
  have hm : plainEntry (.leaf sym) = .leaf sym := rfl
  simp [State.spells, CodeTree.size, CodeTree.entries, List.range_succ, h0, h1, h2, hm]

/-- The entries of an internal node: its marker, its left subtree, its right subtree (R74). -/
theorem State.spells_internal {s : State} {i : Nat} {l r : CodeTree}
    (h0 : plainEntry (s.entryInstr i) = .internal 0#32) (hl : s.spells (i + 1) l)
    (hr : s.spells (i + 1 + l.size) r) : s.spells i (.internal l r) := by
  unfold State.spells at hl hr ⊢
  rw [CodeTree.entries, ← hl, ← hr, ← h0]
  simp [CodeTree.size, List.range_add, Nat.add_assoc, Function.comp_def]

/-- The records of a subtree lie within its entries (R96). -/
theorem State.nodesAt_congr {s t : State} {c : CodeTree} {i : Nat}
    (hn : ∀ a, i ≤ a → a < i + c.size → t.nodeAt a = s.nodeAt a) : t.nodesAt i c ↔ s.nodesAt i c := by
  induction c generalizing i with
  | leaf sym => simp only [State.nodesAt, hn i (Nat.le_refl i) (by simp [CodeTree.size])]
  | internal l r ihl ihr =>
    have hs : (CodeTree.internal l r).size = 1 + l.size + r.size := rfl
    have hl := ihl (i := i + 1) fun a ha hb => hn a (by omega) (by omega)
    have hr := ihr (i := i + 1 + l.size) fun a ha hb => hn a (by omega) (by omega)
    simp only [State.nodesAt, hn i (Nat.le_refl i) (by omega), hl, hr]

/-- What NODE and TREE say of the whole tree is unchanged with their contents and TREE_LEN. -/
theorem State.holdsTree_congr {s t : State} {c : CodeTree} (hi : sameInputs s t) (hn : sameNodes s t) :
    t.holdsTree c ↔ s.holdsTree c := by
  rw [State.holdsTree, State.holdsTree, hi.2.1, State.spells_congr hi.entryInstr,
    State.nodesAt_congr fun a _ _ => hn a]

/-! ### Open nodes -/

/-- The link a frame's stage names (R97). -/
def NodeRec.link (r : NodeRec) : Stage → Nat
  | .left => r.left
  | .right => r.right

/-- The child that the stage names of the open node `i` begins at entry `j`: the left child right behind the
marker, the right child behind the left subtree, which has been read (R96). -/
def State.childAt (s : State) (i : Nat) : Stage → Nat → Prop
  | .left, j => j = i + 1
  | .right, j =>
    ∃ l : CodeTree, (s.nodeAt i).left = i + 1 ∧ s.spells (i + 1) l ∧ s.nodesAt (i + 1) l ∧ j = i + 1 + l.size

theorem State.childAt_lt {s : State} {i j : Nat} {st : Stage} (h : s.childAt i st j) : i < j := by
  cases st with
  | left => obtain rfl := h; omega
  | right => obtain ⟨l, -, -, -, rfl⟩ := h; omega

/-- Where a child begins rests on the marker's left link and on what stands between the two. -/
theorem State.childAt_of_same {s t : State} {i j : Nat} {st : Stage} (h : s.childAt i st j)
    (he : ∀ a, t.entryInstr a = s.entryInstr a) (hl : st = .right → (t.nodeAt i).left = (s.nodeAt i).left)
    (hn : ∀ a, i < a → a < j → t.nodeAt a = s.nodeAt a) : t.childAt i st j := by
  cases st with
  | left => exact h
  | right =>
    obtain ⟨l, hleft, hsp, hno, rfl⟩ := h
    exact ⟨l, (hl rfl).trans hleft, (State.spells_congr he).mpr hsp,
      (State.nodesAt_congr fun a ha hb => hn a ha hb).mpr hno, rfl⟩

/-- An open internal node (R97). -/
theorem State.openFrom_internal {s : State} {i : Nat} {f : Frame} {rest : List Frame}
    (hk : (s.nodeAt i).kind = .internal) :
    s.openFrom i (f :: rest) ↔ f.idx = i ∧ plainEntry (s.entryInstr i) = .internal 0#32
      ∧ ∃ j, s.childAt i f.stage j ∧ (rest ≠ [] → (s.nodeAt i).link f.stage = j) ∧ s.openFrom j rest := by
  obtain ⟨idx, stage⟩ := f
  cases stage with
  | left => simp only [State.openFrom, hk, State.childAt, NodeRec.link, exists_eq_left]
  | right =>
    simp only [State.openFrom, hk, State.childAt, NodeRec.link]
    constructor
    · rintro ⟨hi, he, l, hl, hs, hn, hr, ho⟩
      exact ⟨hi, he, _, ⟨l, hl, hs, hn, rfl⟩, hr, ho⟩
    · rintro ⟨hi, he, _, ⟨l, hl, hs, hn, rfl⟩, hr, ho⟩
      exact ⟨hi, he, l, hl, hs, hn, hr, ho⟩

/-- An open leaf is the innermost open node, and only ABSENT entries stand behind its marker (R97). -/
theorem State.openFrom_leaf {s : State} {i : Nat} {f : Frame} {rest : List Frame}
    (hk : (s.nodeAt i).kind = .leaf) :
    s.openFrom i (f :: rest) ↔ f.idx = i ∧ rest = [] ∧ s.entryInstr i = .leaf (s.nodeAt i).sym
      ∧ ((f.stage = .left ∧ s.pos = i + 1)
        ∨ (f.stage = .right ∧ s.pos = i + 2 ∧ plainEntry (s.entryInstr (i + 1)) = .absent 0#32)) := by
  obtain ⟨idx, stage⟩ := f
  cases stage <;> simp [State.openFrom, hk]

/-- A node below the innermost open one is internal. -/
theorem State.openFrom_cons_internal {s : State} {i : Nat} {f : Frame} {rest : List Frame} (hne : rest ≠ [])
    (h : s.openFrom i (f :: rest)) : (s.nodeAt i).kind = .internal := by
  cases hk : (s.nodeAt i).kind with
  | internal => rfl
  | leaf => exact absurd ((State.openFrom_leaf hk).mp h).2.1 hne

/-- The open nodes stand one behind the other, from `i` on. -/
theorem State.openFrom_le {s : State} {l : List Frame} {i : Nat} (h : s.openFrom i l) : ∀ f ∈ l, i ≤ f.idx := by
  induction l generalizing i with
  | nil => simp
  | cons g rest ih =>
    intro f hf
    rcases List.mem_cons.mp hf with rfl | hf
    · exact Nat.le_of_eq h.1.symm
    · have hk := State.openFrom_cons_internal (List.ne_nil_of_mem hf) h
      obtain ⟨-, -, j, hj, -, ho⟩ := (State.openFrom_internal hk).mp h
      exact Nat.le_trans (Nat.le_of_lt (State.childAt_lt hj)) (ih ho f hf)

/-- The innermost of the open nodes, from the frame `f` on. -/
theorem State.openFrom_suffix {s : State} {f : Frame} {b l : List Frame} {i : Nat}
    (h : s.openFrom i (l ++ f :: b)) : s.openFrom f.idx (f :: b) := by
  induction l generalizing i with
  | nil =>
    obtain rfl : f.idx = i := h.1
    exact h
  | cons g rest ih =>
    have hk := State.openFrom_cons_internal (by simp) h
    obtain ⟨-, -, j, -, -, ho⟩ := (State.openFrom_internal hk).mp h
    exact ih ho

/-- Replacing the open nodes from the frame `f` on, with what stands before `f` unchanged. -/
theorem State.openFrom_append {s t : State} {f : Frame} {b b' : List Frame}
    (he : ∀ a, t.entryInstr a = s.entryInstr a) (hn : ∀ a, a < f.idx → t.nodeAt a = s.nodeAt a)
    (hf : t.openFrom f.idx b') {l : List Frame} {i : Nat} (h : s.openFrom i (l ++ f :: b)) :
    t.openFrom i (l ++ b') := by
  induction l generalizing i with
  | nil =>
    obtain rfl : f.idx = i := h.1
    exact hf
  | cons g rest ih =>
    have hne : rest ++ f :: b ≠ [] := by simp
    have hk := State.openFrom_cons_internal hne h
    obtain ⟨hi, hm, j, hj, hlink, ho⟩ := (State.openFrom_internal hk).mp h
    have hjf : j ≤ f.idx := State.openFrom_le ho f (by simp)
    have hij := State.childAt_lt hj
    have hsame : t.nodeAt i = s.nodeAt i := hn i (by omega)
    refine (State.openFrom_internal (hsame ▸ hk)).mpr ⟨hi, he i ▸ hm, j, ?_, fun _ => ?_, ih ho⟩
    · exact State.childAt_of_same hj he (fun _ => by rw [hsame]) fun a _ ha => hn a (by omega)
    · rw [hsame]; exact hlink hne

/-- What is open is unchanged with POS, the entries and the records. -/
theorem State.openFrom_congr {s t : State} (hp : t.pos = s.pos) (he : ∀ a, t.entryInstr a = s.entryInstr a)
    (hn : sameNodes s t) {l : List Frame} {i : Nat} (h : s.openFrom i l) : t.openFrom i l := by
  induction l generalizing i with
  | nil => exact Eq.trans h hp.symm
  | cons f rest ih =>
    cases hk : (s.nodeAt i).kind with
    | leaf =>
      rw [State.openFrom_leaf ((hn i).symm ▸ hk), hp, he, he, hn i]
      exact (State.openFrom_leaf hk).mp h
    | internal =>
      obtain ⟨hi, hm, j, hj, hlink, ho⟩ := (State.openFrom_internal hk).mp h
      refine (State.openFrom_internal ((hn i).symm ▸ hk)).mpr ⟨hi, he i ▸ hm, j, ?_, ?_, ih ho⟩
      · exact State.childAt_of_same hj he (fun _ => by rw [hn i]) fun a _ _ => hn a
      · rw [hn i]; exact hlink

/-- The tree invariant rests on the phase, the inputs, NODE and STACK with POS and SP. -/
theorem State.treeInv_congr {s t : State} (hph : t.phase = s.phase) (hi : sameInputs s t) (hn : sameNodes s t)
    (hf : sameFrames s t) (hp : samePointers s t) (h : s.TreeInv) : t.TreeInv := by
  obtain ⟨hu, hw⟩ := h
  have hlive : t.live = s.live := by
    rw [State.live, State.live, hp.2]
    exact List.map_congr_left fun a _ => hf a
  refine ⟨fun h => ?_, fun h => ?_⟩
  · rw [hlive]
    exact State.openFrom_congr hp.1 hi.entryInstr hn (hu (hph ▸ h))
  · obtain ⟨c, hc⟩ := hw (hph ▸ h)
    exact ⟨c, (State.holdsTree_congr hi hn).mpr hc⟩

/-- Nothing the tree invariant speaks of changes when the host's side does. -/
theorem State.TreeInv.withHost {s : State} (h : s.TreeInv) (d : Nat) (r : Option Word) (m : List Move) :
    ({ s with draws := d, hostRead := r, script := m } : State).TreeInv :=
  State.treeInv_congr (s := s) rfl (sameInputs_of_fields rfl rfl rfl rfl rfl rfl rfl rfl) (fun _ => rfl)
    (fun _ => rfl) ⟨rfl, rfl⟩ h

/-- A block that is not busy meets the tree invariant, which speaks of the busy phases only. -/
theorem State.treeInv_of_not_busy {s : State} (hb : s.busy = false) : s.TreeInv := by
  rw [← Bool.not_eq_true, State.busy_iff] at hb
  exact ⟨fun h => absurd (.inl h) hb, fun h => absurd (.inr h) hb⟩

/-! ### Live frames -/

/-- The live frames around frame `m`. -/
theorem State.live_eq_append {s : State} {m n : Nat} (h : s.sp = m + (n + 1)) :
    s.live = (List.range m).map s.frameAt
      ++ s.frameAt m :: (List.range n).map (fun k => s.frameAt (m + (k + 1))) := by
  simp [State.live, h, List.range_add, List.range_succ_eq_map]

/-- The innermost open node's frame is the last live one. -/
theorem State.live_getLast? {s : State} (h : s.sp ≠ 0) : s.live.getLast? = some s.top := by
  rw [State.live_eq_append (show s.sp = (s.sp - 1) + (0 + 1) by omega)]
  simp [State.top]

theorem State.live_of_sp_zero {s : State} (h : s.sp = 0) : s.live = [] := by simp [State.live, h]

/-- Under a leaf there is an open node, and the innermost one is a leaf (R97). -/
theorem State.ctx_eq_under_iff {s : State} {k : Kind} :
    s.ctx = .under k ↔ s.sp ≠ 0 ∧ (s.nodeAt s.top.idx).kind = k := by
  simp only [State.ctx]
  split <;> simp_all

end Sys2Proof.Machine
end

section
/-!
SUPPORT. What `Open` and `Complete` do to the open nodes (R97), and that every effect of a step keeps NODE a faithful
reading of the serialized tree (R44 (c)).
-/

namespace Sys2Proof.Machine

/-! ### `Open` -/

/-- A node just opened, with nothing behind its marker read yet. -/
theorem State.openFrom_opened {s : State} {i : Nat} {k : Kind} {sym : Word} (hk : (s.nodeAt i).kind = k)
    (hs : (s.nodeAt i).sym = sym) (he : s.entryInstr i = nodeEntry k sym) (hp : s.pos = i + 1) :
    s.openFrom i [{ idx := i, stage := .left }] := by
  cases k with
  | leaf => exact (State.openFrom_leaf hk).mpr ⟨rfl, rfl, hs ▸ he, .inl ⟨rfl, hp⟩⟩
  | internal =>
    exact (State.openFrom_internal hk).mpr
      ⟨rfl, congrArg plainEntry he, i + 1, rfl, fun h => absurd rfl h, hp.symm⟩

/-- `Open` pushes a frame on the live ones. -/
theorem open_live (k : Kind) (sym : Word) (s : State) :
    (pushFrame (linkParent (openRecord k sym s))).live = s.live ++ [{ idx := s.pos, stage := .left }] := by
  obtain ⟨-, hsp, -, -, hnew, -, -, -, -, hframes, -⟩ := open_opened k sym s
  simp only [State.live, hsp, List.range_succ, List.map_append, List.map_cons, List.map_nil, hnew]
  congr 1
  refine List.map_congr_left fun a ha => hframes a ?_
  have := List.mem_range.mp ha
  omega

/-- The link that `Open` sets in the parent is the one the parent's frame names. -/
theorem open_link {k : Kind} {sym : Word} {s t : State} (h : opened k sym s t) (hsp : 0 < s.sp) :
    (t.nodeAt s.top.idx).link s.top.stage = s.pos := by
  obtain ⟨-, -, -, -, -, hleft, hright, -⟩ := h
  cases hst : s.top.stage with
  | left => exact (hleft hsp hst).1
  | right => exact (hright hsp hst).1

/-- Under an internal node `Open` makes the entry just read the node's next child. -/
theorem open_openFrom {k : Kind} {sym : Word} {s : State} (hc : s.ctx ≠ .under .leaf)
    (he : s.entryInstr s.pos = nodeEntry k sym) (h : s.openFrom 0 s.live) :
    (pushFrame (linkParent (openRecord k sym s))).openFrom 0
      (pushFrame (linkParent (openRecord k sym s))).live := by
  have ho := open_opened k sym s
  rw [open_live]
  generalize pushFrame (linkParent (openRecord k sym s)) = t at ho ⊢
  have hlink := open_link ho
  obtain ⟨hpos, -, hk, hs, -, -, hright, hkind, hother, -, hin, -⟩ := ho
  have hent := sameInputs.entryInstr hin
  have hnew : t.openFrom s.pos [{ idx := s.pos, stage := .left }] :=
    State.openFrom_opened hk hs ((hent _).trans he) hpos
  rcases Nat.eq_zero_or_pos s.sp with hsp | hsp
  · rw [State.live_of_sp_zero hsp] at h ⊢
    have h : 0 = s.pos := h
    rw [h]
    exact hnew
  · have hlive : s.live = (List.range (s.sp - 1)).map s.frameAt ++ [s.top] :=
      State.live_eq_append (show s.sp = (s.sp - 1) + (0 + 1) by omega)
    rw [hlive] at h
    rw [hlive, List.append_assoc]
    have htop : (s.nodeAt s.top.idx).kind = .internal := by
      cases hkt : (s.nodeAt s.top.idx).kind with
      | internal => rfl
      | leaf => exact absurd (State.ctx_eq_under_iff.mpr ⟨by omega, hkt⟩) hc
    obtain ⟨-, hm, j, hj, -, hjp⟩ := (State.openFrom_internal htop).mp (State.openFrom_suffix h)
    obtain rfl : j = s.pos := hjp
    have hlt := State.childAt_lt hj
    have hchild : t.childAt s.top.idx s.top.stage s.pos :=
      State.childAt_of_same hj hent (fun hst => (hright hsp hst).2)
        fun a ha hb => hother a (by omega) fun _ => by omega
    refine State.openFrom_append hent (fun a ha => hother a (by omega) fun _ => by omega) ?_ h
    exact (State.openFrom_internal ((hkind hsp (by omega)).1.trans htop)).mpr
      ⟨rfl, (congrArg plainEntry (hent _)).trans hm, s.pos, hchild, fun _ => hlink hsp, hnew⟩

/-! ### `Complete` -/

/-- The open nodes are finished by an ABSENT when the innermost one is a leaf and each has read its left position:
the entries from the outermost on spell its subtree (R97). -/
theorem State.openFrom_finished {s : State} (ha : plainEntry (s.entryInstr s.pos) = .absent 0#32)
    {f : Frame} {l : List Frame} {i : Nat} (h : s.openFrom i (f :: l)) (hr : ∀ g ∈ f :: l, g.stage = .right)
    (hk : ∀ g ∈ (f :: l).getLast?, (s.nodeAt g.idx).kind = .leaf) :
    ∃ c : CodeTree, s.spells i c ∧ s.nodesAt i c ∧ i + c.size = s.pos + 1 := by
  induction l generalizing f i with
  | nil =>
    obtain rfl : f.idx = i := h.1
    have hleaf := hk f rfl
    obtain ⟨-, -, he, ⟨hst, -⟩ | ⟨-, hp, h1⟩⟩ := (State.openFrom_leaf hleaf).mp h
    · rw [hr f (by simp)] at hst; cases hst
    · rw [hp] at ha
      exact ⟨.leaf _, State.spells_leaf he h1 ha, ⟨hleaf, rfl⟩, by rw [hp]; rfl⟩
  | cons g rest ih =>
    have hint := State.openFrom_cons_internal (by simp) h
    obtain ⟨-, hm, j, hj, hlink, ho⟩ := (State.openFrom_internal hint).mp h
    rw [hr f (by simp)] at hj hlink
    obtain ⟨cl, hleft, hsl, hnl, rfl⟩ := hj
    obtain ⟨cr, hsr, hnr, hend⟩ := ih ho (fun g' hg => hr g' (List.mem_cons_of_mem _ hg)) (by simpa using hk)
    refine ⟨.internal cl cr, State.spells_internal hm hsl hsr, ⟨hint, hleft, hlink (by simp), hnl, hnr⟩, ?_⟩
    rw [← hend]
    simp only [CodeTree.size]
    omega

/-- The ABSENT that finishes the left position of frame `f`: the nodes above it are finished, and `f` goes on to its
right position (R97). -/
theorem State.openFrom_turned {s t : State} (ha : plainEntry (s.entryInstr s.pos) = .absent 0#32)
    (hp : t.pos = s.pos + 1) (he : ∀ a, t.entryInstr a = s.entryInstr a) (hn : sameNodes s t)
    {f : Frame} {l : List Frame} {i : Nat} (h : s.openFrom i (f :: l)) (hst : f.stage = .left)
    (hr : ∀ g ∈ l, g.stage = .right) (hk : ∀ g ∈ (f :: l).getLast?, (s.nodeAt g.idx).kind = .leaf) :
    t.openFrom i [{ idx := f.idx, stage := .right }] := by
  cases l with
  | nil =>
    obtain rfl : f.idx = i := h.1
    have hleaf := hk f rfl
    obtain ⟨-, -, hm, ⟨-, hpos⟩ | ⟨hst', -⟩⟩ := (State.openFrom_leaf hleaf).mp h
    · rw [hpos] at ha
      refine (State.openFrom_leaf ((hn _).symm ▸ hleaf)).mpr ⟨rfl, rfl, ?_, .inr ⟨rfl, ?_, ?_⟩⟩
      · rw [he, hn]; exact hm
      · rw [hp, hpos]
      · rw [he]; exact ha
    · rw [hst] at hst'; cases hst'
  | cons g rest =>
    have hint := State.openFrom_cons_internal (by simp) h
    obtain ⟨hi, hm, j, hj, hlink, ho⟩ := (State.openFrom_internal hint).mp h
    rw [hst] at hj hlink
    obtain rfl : j = i + 1 := hj
    obtain ⟨c, hs, hc, hend⟩ := State.openFrom_finished ha ho hr (by simpa using hk)
    have hleft : (t.nodeAt i).left = i + 1 := by rw [hn]; exact hlink (by simp)
    exact (State.openFrom_internal ((hn _).symm ▸ hint)).mpr
      ⟨hi, he i ▸ hm, t.pos, ⟨c, hleft, (State.spells_congr he).mpr hs,
        (State.nodesAt_congr fun a _ _ => hn a).mpr hc, hp.trans hend.symm⟩, fun h => absurd rfl h, rfl⟩

/-- The live frames when a frame has gone on to its right position and those above it are popped. -/
theorem turned_live (m p : Nat) (f : Frame) (s : State) :
    ({ s.setFrame m f with pos := p, sp := m + 1 } : State).live = (List.range m).map s.frameAt ++ [f] := by
  have hf : ∀ a, ({ s.setFrame m f with pos := p, sp := m + 1 } : State).frameAt a
      = if a = m then f else s.frameAt a := fun a => State.frameAt_setFrame m a f s
  simp only [State.live, List.range_succ, List.map_append, List.map_cons, List.map_nil, hf, if_true]
  congr 1
  exact List.map_congr_left fun a ha => (hf a).trans (if_neg (Nat.ne_of_lt (List.mem_range.mp ha)))

/-- In the child position of a leaf the innermost open node is that leaf. -/
theorem State.live_last_leaf {s : State} (hc : s.ctx = .under .leaf) :
    ∀ g ∈ s.live.getLast?, (s.nodeAt g.idx).kind = .leaf := by
  obtain ⟨hsp, hleaf⟩ := State.ctx_eq_under_iff.mp hc
  rw [State.live_getLast? hsp]
  rintro _ ⟨⟩
  exact hleaf

/-- Frame `m` goes on to its right position, with the nodes above it finished. -/
theorem State.openFrom_live_turned {s t : State} {m : Nat} (ha : plainEntry (s.entryInstr s.pos) = .absent 0#32)
    (hp : t.pos = s.pos + 1) (he : ∀ a, t.entryInstr a = s.entryInstr a) (hn : sameNodes s t)
    (hc : s.ctx = .under .leaf) (hm : m < s.sp) (hst : (s.frameAt m).stage = .left)
    (hall : ∀ k, m < k → k < s.sp → (s.frameAt k).stage = .right) (hopen : s.openFrom 0 s.live) :
    t.openFrom 0 ((List.range m).map s.frameAt ++ [{ idx := (s.frameAt m).idx, stage := .right }]) := by
  have hlast := State.live_last_leaf hc
  rw [State.live_eq_append (show s.sp = m + ((s.sp - (m + 1)) + 1) by omega)] at hopen hlast
  rw [List.getLast?_append_of_ne_nil _ (by simp)] at hlast
  have hright : ∀ g ∈ (List.range (s.sp - (m + 1))).map (fun k => s.frameAt (m + (k + 1))),
      g.stage = .right := fun g hg => by
    obtain ⟨k, hk, rfl⟩ := List.mem_map.mp hg
    have := List.mem_range.mp hk
    exact hall _ (by omega) (by omega)
  exact State.openFrom_append he (fun a _ => hn a)
    (State.openFrom_turned ha hp he hn (State.openFrom_suffix hopen) hst hright hlast) hopen

/-- When every open node has read its left position, NODE holds the whole tree. -/
theorem State.holdsTree_of_finished {s : State} (ha : plainEntry (s.entryInstr s.pos) = .absent 0#32)
    (hc : s.ctx = .under .leaf) (hall : ∀ k < s.sp, (s.frameAt k).stage = .right)
    (hlen : s.pos + 1 = s.treeLen.toNat) (hopen : s.openFrom 0 s.live) : ∃ c : CodeTree, s.holdsTree c := by
  have hsp := (State.ctx_eq_under_iff.mp hc).1
  have hlast := State.live_last_leaf hc
  have hright : ∀ g ∈ s.live, g.stage = .right := fun g hg => by
    obtain ⟨k, hk, rfl⟩ := List.mem_map.mp hg
    exact hall k (List.mem_range.mp hk)
  rw [State.live_eq_append (show s.sp = 0 + ((s.sp - 1) + 1) by omega)] at hopen hlast hright
  obtain ⟨c, hs, hn, hsize⟩ := State.openFrom_finished ha hopen hright hlast
  exact ⟨c, by omega, hs, hn⟩

/-- `Complete` keeps the tree invariant. -/
theorem complete_treeInv {s : State} {sym : Word} (hp : s.phase = .unpack) (he : s.entryInstr s.pos = .absent sym)
    (hc : s.ctx = .under .leaf) (h : s.TreeInv) : (complete s).TreeInv := by
  have ha : plainEntry (s.entryInstr s.pos) = .absent 0#32 := congrArg plainEntry he
  have hopen := h.1 hp
  rcases complete_cases s with ⟨m, hm, hst, hall, hcomp⟩ | ⟨e, -, hcomp⟩ | ⟨hall, hlen, hcomp⟩
  · rw [hcomp]
    refine ⟨fun _ => ?_, by simp [hp]⟩
    rw [turned_live]
    exact State.openFrom_live_turned (s := s) ha rfl (fun _ => rfl) (fun _ => rfl) hc hm hst hall hopen
  · rw [hcomp]
    exact State.treeInv_of_not_busy rfl
  · obtain ⟨c, hold⟩ := State.holdsTree_of_finished ha hc hall hlen hopen
    have hnodes : sameNodes s (complete s) := by rcases hcomp with h | h <;> rw [h] <;> exact fun _ => rfl
    have hph : (complete s).phase ≠ .unpack := by rcases hcomp with h | h <;> rw [h] <;> simp
    exact ⟨fun h => absurd h hph, fun _ => ⟨c, (State.holdsTree_congr (complete_sameInputs s) hnodes).mpr hold⟩⟩

/-! ### Steps -/

/-- `Start` begins with no node open (R143). -/
theorem startRun_treeInv (s : State) : (startRun s).TreeInv := by
  rcases startRun_cases s with ⟨-, h⟩ | ⟨-, -, h⟩ <;> rw [h]
  · exact State.treeInv_of_not_busy rfl
  · exact ⟨fun _ => rfl, by simp⟩

/-- A register write to a block that is not busy leaves it so, or is START. -/
theorem regWrite_treeInv {s : State} (i v : Word) (hb : s.busy = false) : (regWrite i v s).TreeInv := by
  rcases regWrite_cases i v s with h | h | h | h | h | h <;> rw [h]
  case inr.inl => exact startRun_treeInv s
  all_goals exact State.treeInv_of_not_busy hb

/-- A host operation keeps the tree invariant. -/
theorem HostEffect.treeInv {s t : State} (h : HostEffect s t) (hi : s.TreeInv) : t.TreeInv := by
  cases h with
  | answer d r => exact hi.withHost d r s.script
  | register i v hb => exact regWrite_treeInv i v hb
  | start => exact startRun_treeInv s
  | entry _ _ hb | byte _ _ hb => exact State.treeInv_of_not_busy hb

/-- An engine turn in WALK or REPEAT leaves NODE alone. -/
theorem State.TreeInv.of_decoding {s t : State} (hi : s.TreeInv) (hp : s.phase = .walk ∨ s.phase = .repeatLeaf)
    (hph : t.phase ≠ .unpack) (hin : sameInputs s t) (hn : sameNodes s t) : t.TreeInv := by
  obtain ⟨c, hc⟩ := hi.2 hp
  exact ⟨fun h => absurd h hph, fun _ => ⟨c, (State.holdsTree_congr hin hn).mpr hc⟩⟩

/-- An engine turn keeps the tree invariant. -/
theorem EngineEffect.treeInv {s t : State} (h : EngineEffect s t) (hi : s.TreeInv) : t.TreeInv := by
  have hin := h.sameInputs
  cases h with
  | error => exact State.treeInv_of_not_busy rfl
  | opens k sym hp hl he hc =>
    have hopen := open_openFrom hc he (hi.1 hp)
    have hph : (pushFrame (linkParent (openRecord k sym s))).phase = .unpack := by
      obtain ⟨m, f, h⟩ := open_eq k sym s
      rw [h]; exact hp
    exact ⟨fun _ => hopen, by simp [hph]⟩
  | completes sym hp hl he hc => exact complete_treeInv hp he hc hi
  | moves nxt hp | emits nxt hp => exact hi.of_decoding (.inl hp) (by simp [hp]) hin fun _ => rfl
  | copies hp => exact hi.of_decoding (.inr hp) (by simp [hp]) hin fun _ => rfl
  | ends => exact State.treeInv_of_not_busy rfl
  | holds => exact hi

end Sys2Proof.Machine
end

section
/-!
The statements of 10_state.md.
-/

namespace Sys2Proof.Machine

/-- Settles O17: each effect of a step keeps the invariant. -/
theorem stepKeepsTheInvariant : Obligations.StepKeepsTheInvariant := by
  intro s t hi hstep
  have hrest : s.rest.Inv := hi.withHost s.draws s.hostRead s.script.tail
  rcases step_effect hstep with h | ⟨-, rfl⟩ | h
  · exact h.inv hrest
  · exact resetBlock_inv _
  · exact h.inv hrest

/-- Settles O18: each effect of a step keeps the tree invariant. -/
theorem stepKeepsTheTreeValid : Obligations.StepKeepsTheTreeValid := by
  intro s t _ hi hstep
  have hrest : s.rest.TreeInv := hi.withHost s.draws s.hostRead s.script.tail
  rcases step_effect hstep with h | ⟨-, rfl⟩ | h
  · exact h.treeInv hrest
  · exact State.treeInv_of_not_busy rfl
  · exact h.treeInv hrest

/-- Settles O20: a busy block drops the host's writes (R149), and the engine writes no input. -/
theorem inputsDoNotChangeWhileBusy : Obligations.InputsDoNotChangeWhileBusy := by
  intro s t hb hr hstep
  rcases step_effect hstep with h | ⟨hreset, -⟩ | h
  · cases h with
    | answer => exact sameInputs_of_fields rfl rfl rfl rfl rfl rfl rfl rfl
    | register _ _ hf | start hf | entry _ _ hf | byte _ _ hf =>
      rw [State.rest_busy, hb] at hf
      cases hf
  · exact absurd hreset hr
  · exact h.sameInputs

/-- Settles O24: no effect of a step writes the parameters. -/
theorem stepKeepsTheParameters : Obligations.StepKeepsTheParameters := by
  intro s t hstep
  rcases step_effect hstep with h | ⟨-, rfl⟩ | h
  · exact h.params
  · rfl
  · exact h.sameInputs.1

/-- Every host register of the state after reset reads 0 (R22 to R27, R43). -/
theorem regRead_reset (i : Word) : State.reset.regRead i = 0#32 := by
  simp only [State.regRead]
  split <;> decide

/-- Settles O8: the fields of State.reset, and what its registers read. -/
theorem resetLeavesTheSpecifiedValues : Obligations.ResetLeavesTheSpecifiedValues :=
  ⟨rfl, rfl, by decide, rfl, rfl, rfl, rfl, rfl, rfl,
    fun i _ => ⟨_, rfl, congrArg some (regRead_reset i)⟩, rfl, rfl, rfl, rfl, rfl⟩

/-- Settles O16: at reset the registers are 0, the memories list nothing, and the block is idle. -/
theorem resetStateSatisfiesTheInvariants : Obligations.ResetStateSatisfiesTheInvariants := by
  have hr : State.reset.registersFit := by unfold State.registersFit; decide
  have hm : State.reset.memoriesFit :=
    ⟨Memory.within_nil _ _, Memory.within_nil _ _, Memory.within_nil _ _, Memory.within_nil _ _,
      Memory.within_nil _ _⟩
  have hp : State.reset.phaseFits := by unfold State.phaseFits; decide
  exact ⟨⟨hr, hm, hp⟩, State.treeInv_of_not_busy rfl⟩

end Sys2Proof.Machine
end

section
/-!
SUPPORT. Under the invariant every access of the engine is in range and every instruction runs in its phase (R58, R97,
R111), so nothing a step runs stops the machine.
-/

namespace Sys2Proof.Machine

/-- No host operation stops, in any state (R57, R140, R149). -/
theorem exec_hostop_completes {i : Instr} (hf : i.format = .hostop) (s : State) : ∃ t, exec i s = .next t := by
  cases i with
  | internal | leaf | absent | rsvd | left | right => cases hf
  | _ => exact ⟨_, rfl⟩

/-! ### What the invariant says of the accesses -/

/-- OCNT is at most OUT_MAX (R44 (f)). -/
theorem State.Inv.ocnt_le {s : State} (hi : s.Inv) : s.ocnt ≤ s.params.outMax := by
  obtain ⟨⟨-, -, -, -, -, ho⟩, -⟩ := hi
  exact ho

/-- In UNPACK the pointers and TREE_LEN stay within TREE_MAX (R44 (b)). -/
theorem State.Inv.unpack_pointers {s : State} (hi : s.Inv) (hp : s.phase = .unpack) :
    s.sp ≤ s.pos ∧ s.pos ≤ s.treeLen.toNat ∧ s.treeLen.toNat ≤ s.params.treeMax := by
  obtain ⟨-, -, -, -, hu, -⟩ := hi
  obtain ⟨htl, -, hpos, hsp⟩ := hu hp
  exact ⟨hsp, hpos, htl⟩

/-- In UNPACK the frames an entry reads exist: at most POS of them are open, and each names a record of NODE (R58). -/
theorem State.Inv.stackInRange {s : State} (hi : s.Inv) (hp : s.phase = .unpack) : s.stackInRange = true := by
  obtain ⟨hsp, hpos, htl⟩ := hi.unpack_pointers hp
  obtain ⟨-, hm, -⟩ := hi
  exact decide_eq_true (.inr ⟨hsp.trans (hpos.trans htl), s.frameAt_fits hm _⟩)

/-- In WALK a bit before the end of the stream lies in DATA (R44 (d), R58). -/
theorem State.Inv.bit_in_range {s : State} (hi : s.Inv) (hp : s.phase = .walk) (hb : s.bitpos ≠ s.dataLen.toNat) :
    s.bitpos / 8 < s.params.dataMax := by
  obtain ⟨-, -, -, -, -, hw, -⟩ := hi
  obtain ⟨-, -, hle, hbytes, hdb⟩ := hw hp
  omega

/-! ### Tree entries -/

/-- A node marker with entries left finds room in NODE and STACK (R58). -/
theorem nodeMarker_completes {s : State} (hi : s.Inv) (hp : s.phase = .unpack) (hl : s.pos < s.treeLen.toNat)
    (k : Kind) (sym : Word) : ∃ t, nodeMarker k sym s = .next t := by
  rw [nodeMarker, inUnpack_eq _ hp (hi.stackInRange hp)]
  split
  · exact ⟨_, rfl⟩
  · obtain ⟨hsp, -, htl⟩ := hi.unpack_pointers hp
    rw [openNode, if_neg (by omega), if_neg (by omega)]
    exact ⟨_, rfl⟩

/-- A fetched entry does not stop (R91 to R94). -/
theorem exec_entry_completes {s : State} (hi : s.Inv) (hp : s.phase = .unpack) (hl : s.pos < s.treeLen.toNat)
    {i : Instr} (hf : i.format = .entry) : ∃ t, exec i s = .next t := by
  cases i with
  | internal sym | leaf sym => exact nodeMarker_completes hi hp hl _ sym
  | absent => exact ⟨_, inUnpack_eq _ hp (hi.stackInRange hp)⟩
  | rsvd => exact ⟨_, if_neg (not_not.mpr hp)⟩
  | _ => cases hf

/-! ### Stream bits and the REPEAT step -/

/-- Arriving at a record of NODE does not stop while OCNT is in range (R114, R117). -/
theorem arrive_completes {nxt : Nat} {s : State} (hn : nxt < s.params.treeMax) (ho : s.ocnt ≤ s.params.outMax) :
    ∃ t, arrive nxt s = .next t := by
  rw [arrive, if_pos hn]
  split
  · exact emit_completes _ _ ho
  · exact ⟨_, rfl⟩

/-- A consumed bit does not stop: the current record and the child it names lie in NODE (R111, R58). -/
theorem moveTo_completes {child : NodeRec → Nat} {s : State} (hi : s.Inv) (hp : s.phase = .walk)
    (hc : child (s.nodeAt s.cur) < s.params.treeMax) : ∃ t, moveTo child s = .next t := by
  have ho := hi.ocnt_le
  obtain ⟨⟨-, -, hcur, -⟩, -⟩ := hi
  rw [moveTo, if_neg (not_not.mpr hp), if_neg (not_le.mpr hcur)]
  exact arrive_completes hc ho

/-- A fetched bit does not stop (R112, R113). -/
theorem exec_bit_completes {s : State} (hi : s.Inv) (hp : s.phase = .walk) {i : Instr} (hf : i.format = .bit) :
    ∃ t, exec i s = .next t := by
  have ⟨_, hm, _⟩ := hi
  obtain ⟨-, hleft, hright⟩ := s.nodeAt_fits hm s.cur
  cases i with
  | left => exact moveTo_completes hi hp hleft
  | right => exact moveTo_completes hi hp hright
  | _ => cases hf

/-- The REPEAT step does not stop while OCNT is in range (R132, R117). -/
theorem repeatStep_completes {s : State} (ho : s.ocnt ≤ s.params.outMax) : ∃ t, repeatStep s = .next t := by
  rw [repeatStep]
  split
  · exact ⟨_, rfl⟩
  · exact emit_completes _ _ ho

/-! ### Steps -/

/-- Under the invariant an engine turn is an instruction that completes, or a step without one that does (R97, R111,
R132, R12). -/
theorem engineTurn_completes {s : State} (hi : s.Inv) :
    (∃ i t, engineTurn s = .run i s ∧ exec i s = .next t) ∨ ∃ t, engineTurn s = .ended (.next t) := by
  rcases engineTurn_cases s with ⟨-, -, he⟩ | ⟨hp, hl, -, he⟩ | ⟨hp, hl, hm, -⟩ | ⟨-, -, he⟩ | ⟨hp, -, -, he⟩
    | ⟨hp, hb, hm, -⟩ | ⟨-, he⟩ | ⟨-, he⟩
  · exact .inr ⟨_, he⟩
  · obtain ⟨t, ht⟩ := exec_entry_completes hi hp hl (decodeEntry_format _ _)
    exact .inl ⟨_, t, he, ht⟩
  · obtain ⟨-, -, htl⟩ := hi.unpack_pointers hp
    omega
  · exact .inr ⟨_, he⟩
  · obtain ⟨t, ht⟩ := exec_bit_completes hi hp (i := if s.streamBit s.bitpos then .right else .left) (by split <;> rfl)
    exact .inl ⟨_, t, he, ht⟩
  · exact absurd (hi.bit_in_range hp hb) (not_lt.mpr hm)
  · obtain ⟨t, ht⟩ := repeatStep_completes hi.ocnt_le
    exact .inr ⟨t, ht ▸ he⟩
  · exact .inr ⟨s, he⟩

end Sys2Proof.Machine
end

section
/-!
SUPPORT. Host operations with an index outside the space (R57), and what a reply changes (R140).
-/

namespace Sys2Proof.Machine

/-- A host read changes nothing in the block (R56, R140). -/
theorem reply_sameBlock (v : Word) (s : State) : sameBlock s (s.reply v) :=
  ⟨sameInputs_of_fields rfl rfl rfl rfl rfl rfl rfl rfl, fun _ => rfl, fun _ => rfl, fun _ => rfl, ⟨rfl, rfl⟩,
    ⟨rfl, rfl, rfl⟩, ⟨rfl, rfl, rfl⟩⟩

/-- A host read whose reply is 0 returns 0 and leaves the block alone. -/
theorem reads_zero {v : Word} (hv : v = 0#32) (s : State) :
    ∃ t, (.next (s.reply v) : Result) = .next t ∧ sameBlock s t ∧ t.hostRead = some 0#32 :=
  ⟨_, rfl, reply_sameBlock v s, congrArg some hv⟩

/-- A write that changes nothing is ignored under the write lock too (R149). -/
theorem whenFree_of_ignored {write : State → State} {s : State} (h : write s = s) : whenFree write s = s := by
  rcases whenFree_cases write s with ⟨-, he⟩ | ⟨-, he⟩
  · exact he
  · exact he.trans h

/-- A register number at or above 8 reads 0 (R57, R141). -/
theorem regRead_out_of_range {i : Word} (h : 8 ≤ i.toNat) (s : State) : s.regRead i = 0#32 := by
  simp only [State.regRead]
  split
  case h_7 => rfl
  all_goals omega

/-- A write to a register number at or above 8 is ignored (R57, R142). -/
theorem regWrite_out_of_range {i : Word} (h : 8 ≤ i.toNat) (v : Word) (s : State) : regWrite i v s = s := by
  simp only [regWrite]
  split
  case h_6 => rfl
  all_goals omega

end Sys2Proof.Machine
end

section
/-!
SUPPORT. The forms of the stream bit (R53).
-/

namespace Sys2Proof.Machine

/-- The stream bit with its byte index as a shift (R53). -/
theorem State.streamBit_eq_shift (s : State) (k : Nat) :
    s.streamBit k = (s.dataAt (k >>> 3)).getLsbD (7 - k % 8) := by
  rw [Nat.shiftRight_eq_div_pow]
  rfl

/-- The stream bit as a digit of its byte (R53). -/
theorem State.streamBit_toNat (s : State) (k : Nat) :
    (s.streamBit k).toNat = ((s.dataAt (k >>> 3)).toNat >>> (7 - k % 8)) % 2 := by
  rw [s.streamBit_eq_shift, BitVec.getLsbD, Nat.toNat_testBit, Nat.shiftRight_eq_div_pow _ (7 - k % 8)]

end Sys2Proof.Machine
end

section
/-!
The statements of 20_memory.md.
-/

namespace Sys2Proof.Machine

/-- Settles O19, by the next move: a host operation and RESET complete in every state, an engine turn under the
invariant. -/
theorem stepNeverStopsUnderTheInvariant : Obligations.StepNeverStopsUnderTheInvariant := by
  intro s hi
  have hrest : s.rest.Inv := hi.withHost s.draws s.hostRead s.script.tail
  rcases fetch_cases s with ⟨w, hw, -⟩ | ⟨-, hf⟩ | ⟨-, hf⟩
  · rw [step_host hw]
    exact exec_hostop_completes (decodeHost_format _) _
  · exact ⟨_, step_of_fetch_ended hf⟩
  · rcases engineTurn_completes hrest with ⟨i, t, he, ht⟩ | ⟨t, he⟩
    · exact ⟨t, (step_of_fetch_run (hf.trans he)).trans ht⟩
    · exact ⟨t, step_of_fetch_ended (hf.trans he)⟩

/-- Settles O43: out of range the value a read returns is 0, and a write answers the state itself. -/
theorem outOfRangeIndexHasNoEffect : Obligations.OutOfRangeIndexHasNoEffect := by
  intro s i v
  refine ⟨fun h => ⟨?_, ?_⟩, fun h => ⟨?_, ?_⟩, fun h => ⟨?_, ?_⟩, fun h => ⟨?_, rfl⟩⟩
  · exact reads_zero (regRead_out_of_range h s) s
  · exact congrArg _ (whenFree_of_ignored (regWrite_out_of_range h v s))
  · exact reads_zero (if_neg (not_lt.mpr h)) s
  · exact congrArg _ (whenFree_of_ignored (if_neg (not_lt.mpr h)))
  · exact reads_zero (if_neg (not_lt.mpr h)) s
  · exact congrArg _ (whenFree_of_ignored (if_neg (not_lt.mpr h)))
  · rw [exec, execRdout, if_pos h]
    exact reads_zero rfl s

/-- Settles O7: both forms of the bit, the stream as their list, and the example. -/
theorem streamBitsAreMostSignificantFirst : Obligations.StreamBitsAreMostSignificantFirst := by
  intro s
  refine ⟨fun k _ => ⟨s.streamBit_eq_shift k, s.streamBit_toNat k⟩, ?_, fun k hk => ?_, fun h0 h1 => ?_⟩
  · rw [State.bits, List.length_map, List.length_range]
  · rw [State.bits, List.getElem?_map, List.getElem?_range hk]
    rfl
  · simp [List.range_succ, State.streamBit, h0, h1]

end Sys2Proof.Machine
end

section
/-!
SUPPORT. The words of tree entries and host operations, field by field and in both directions (R71, R72, R83), and
the reserved tag.
-/

namespace Sys2Proof.Machine

/-! ### From fields to instructions -/

/-- The entry with a 2-bit TAG and a SYM field of SYM_W bits decodes to what the tag names (R71, R72). -/
theorem decode_entryWord (p : Params) {tag : Nat} (ht : tag < 4) {sym : Word} (hs : sym.toNat < 2 ^ p.symW) :
    decode p .entry (entryWord p tag sym) = .ok (entryOfTag tag sym) := by
  rw [decode_entry (Laws.entryWord_lt p tag sym ht hs), decodeEntry_entryWord p tag hs]

/-- The record of three opcode bits, INDEX and VALUE decodes to what the opcode bits name (R83). -/
theorem decode_hostWord (p : Params) {h : Nat} (hh : h < 8) (index value : Word) :
    decode p .hostop (hostWord h index value) = .ok (hostOpOf h index value) := by
  rw [decode_hostop (Laws.hostWord_lt h index value hh), decodeHost_hostWord]

/-- A record written as W ++ SPACE ++ INDEX ++ VALUE decodes to what W ++ SPACE names (R83). -/
theorem decode_record (p : Params) (w : BitVec 1) (space : BitVec 2) (index value : Word) :
    decode p .hostop (w ++ space ++ index ++ value).toNat = .ok (hostOpOf (w ++ space).toNat index value) := by
  rw [record_toNat, decode_hostWord p (w ++ space).isLt]

theorem isStart_iff {index value : Word} : isStart index value = true ↔ index = 0#32 ∧ value.getLsbD 0 = true := by
  simp [isStart]

/-- A register write that is not START is WRREG (R83). -/
theorem hostOpOf_wrreg {index value : Word} (h : isStart index value = false) :
    hostOpOf 4 index value = .wrreg index value :=
  if_neg (by simp [h])

/-- A VALUE with bit 0 set is VALUE[31:1] followed by a 1. -/
theorem extract_append_one {value : Word} (h : value.getLsbD 0 = true) :
    value.extractLsb' 1 31 ++ 1#1 = value := by
  apply BitVec.eq_of_getLsbD_eq
  intro k hk
  rw [BitVec.getLsbD_append]
  rcases k with _ | k
  · simpa using h.symm
  · simp [Nat.add_comm 1 k, show k < 31 by omega]

/-! ### From words to fields -/

/-- Only a word below two to the format's width decodes. -/
theorem lt_of_decode_ok {p : Params} {f : Format} {w : Nat} {i : Instr} (h : decode p f w = .ok i) :
    w < 2 ^ f.width p := by
  by_contra hw
  rw [decode_of_le (not_lt.mp hw)] at h
  cases h

/-- The SYM field of an entry, at most 30 bits wide, loses nothing as a word (R6, R71). -/
theorem symField_toNat (p : Params) (e : Nat) : (BitVec.ofNat 32 (e % 2 ^ p.symW)).toNat = e % 2 ^ p.symW := by
  obtain ⟨⟨-, hs⟩, -⟩ := p.legal
  have hlt : e % 2 ^ p.symW < 2 ^ p.symW := Nat.mod_lt _ p.symPos
  have hle : 2 ^ p.symW ≤ 2 ^ 32 := Nat.pow_le_pow_right (by decide) (by omega)
  rw [BitVec.toNat_ofNat, Nat.mod_eq_of_lt (hlt.trans_le hle)]

/-- An entry is the word of its TAG and its SYM field (R71). -/
theorem entryWord_fields (p : Params) (e : Nat) :
    entryWord p (e / 2 ^ p.symW) (BitVec.ofNat 32 (e % 2 ^ p.symW)) = e := by
  rw [entryWord, symField_toNat, Nat.div_add_mod']

/-- A record is the word of its opcode bits, INDEX and VALUE (R83). -/
theorem hostWord_fields (w : Nat) :
    hostWord (w / 2 ^ 64) (BitVec.ofNat 32 (w / 2 ^ 32)) (BitVec.ofNat 32 w) = w := by
  simp only [hostWord, BitVec.toNat_ofNat]
  omega

/-! ### From instructions to words -/

theorem encode_entryOfTag (p : Params) {tag : Nat} (ht : tag < 4) (sym : Word) :
    encode p (entryOfTag tag sym) = entryWord p tag sym := by
  match tag with
  | 0 | 1 | 2 | 3 => rfl

/-- The encoder gives the opcode bits, INDEX and VALUE back; START has INDEX 0 and VALUE[0] = 1 (R83). -/
theorem encode_hostOpOf (p : Params) {h : Nat} (hh : h < 8) (index value : Word) :
    encode p (hostOpOf h index value) = hostWord h index value := by
  match h with
  | 4 =>
    cases hs : isStart index value with
    | false => rw [hostOpOf_wrreg hs]; rfl
    | true =>
      obtain ⟨rfl, hv⟩ := isStart_iff.mp hs
      rw [hostOpOf, if_pos hs, encode, extract_append_one hv]
  | 0 | 1 | 2 | 3 | 5 | 6 | 7 => rfl

theorem encode_decodeEntry {p : Params} {w : Nat} (h : w < 2 ^ p.entryW) : encode p (decodeEntry p w) = w := by
  rw [p.entry_pow] at h
  rw [decodeEntry, encode_entryOfTag p (Nat.div_lt_of_lt_mul (by rwa [Nat.mul_comm])), entryWord_fields]

theorem encode_decodeHost (p : Params) {w : Nat} (h : w < 2 ^ 67) : encode p (decodeHost w) = w := by
  rw [decodeHost, encode_hostOpOf p (by omega), hostWord_fields]

/-! ### The reserved tag -/

/-- TAG 11 is RSVD, with the SYM field it stands over (R72). -/
theorem decodeEntry_reserved {p : Params} {e : Nat} (h : e / 2 ^ p.symW = 0b11) :
    decodeEntry p e = .rsvd (BitVec.ofNat 32 (e % 2 ^ p.symW)) := by
  rw [decodeEntry, h]
  rfl

/-- In phase UNPACK RSVD raises MalformedTree, whatever the context (R94). -/
theorem exec_rsvd {s : State} (hp : s.phase = .unpack) (sym : Word) :
    exec (.rsvd sym) s = .next (raise .malformedTree s) :=
  if_neg (not_not.mpr hp)

/-- An engine's turn in UNPACK with entries left runs the entry `TREE[POS]` (R97). -/
theorem step_entry {s : State} (he : s.engineNext) (hp : s.phase = .unpack) (hl : s.pos < s.treeLen.toNat)
    (hm : s.pos < s.params.treeMax) : step s = exec (s.entryInstr s.pos) s.rest :=
  step_of_fetch_run ((fetch_engineNext he).trans (engineTurn_entry hp hl hm))

end Sys2Proof.Machine
end

section
/-!
SUPPORT. The WALK step and the contents of DATA: the one thing it reads there is `Bit(BITPOS)` (R111, R119).
-/

namespace Sys2Proof.Machine

/-! ### The WALK step -/

/-- At the end of the stream the WALK step ends the run (R115, R116). -/
theorem step_streamEnd {s : State} (he : s.engineNext) (hp : s.phase = .walk) (hb : s.bitpos = s.dataLen.toNat) :
    step s = .next (endStream s.rest) :=
  step_of_fetch_ended ((fetch_engineNext he).trans (by simp [engineTurn, fetchBit, hp, hb]))

/-- Before the end of the stream the WALK step runs the bit `Bit(BITPOS)` (R111). -/
theorem step_bit {s : State} (he : s.engineNext) (hp : s.phase = .walk) (hb : s.bitpos ≠ s.dataLen.toNat)
    (hm : s.bitpos / 8 < s.params.dataMax) :
    step s = exec (decodeBit (s.streamBit s.bitpos).toNat) s.rest :=
  step_of_fetch_run ((fetch_engineNext he).trans (engineTurn_bit hp hb hm))

/-- A WALK step that answers a next state read its bit inside DATA (R58). -/
theorem bit_in_range_of_step {s t : State} (he : s.engineNext) (hp : s.phase = .walk)
    (hb : s.bitpos ≠ s.dataLen.toNat) (h : step s = .next t) : s.bitpos / 8 < s.params.dataMax := by
  by_contra hm
  have hf : engineTurn s.rest = .ended (.fault (.outOfSpace .data)) := by simp [engineTurn, fetchBit, hp, hb, hm]
  rw [step_of_fetch_ended ((fetch_engineNext he).trans hf)] at h
  cases h

/-- Arriving at a leaf emits its symbol and returns to the root (R114). -/
theorem arrive_leaf {nxt : Nat} {s : State} (hn : nxt < s.params.treeMax) (hk : (s.nodeAt nxt).kind = .leaf) :
    arrive nxt s = emit (s.nodeAt nxt).sym (fun t => { t with cur := 0 }) s := by
  simp [arrive, hn, hk]

/-- Arriving at an internal node moves the cursor to it (R114). -/
theorem arrive_internal {nxt : Nat} {s : State} (hn : nxt < s.params.treeMax)
    (hk : (s.nodeAt nxt).kind = .internal) : arrive nxt s = .next { s with cur := nxt } := by
  simp [arrive, hn, hk]

/-- In phase WALK a consumed bit advances BITPOS and arrives at the child it names (R111). -/
theorem moveTo_walk {s : State} (hp : s.phase = .walk) (hc : s.cur < s.params.treeMax) (child : NodeRec → Nat) :
    moveTo child s = arrive (child (s.nodeAt s.cur)) { s with bitpos := s.bitpos + 1 } := by
  rw [moveTo, if_neg (not_not.mpr hp), if_neg (not_le.mpr hc)]

/-! ### The same state with other contents of DATA -/

/-- The state with the contents of DATA replaced. -/
def State.withData (d : Memory Byte) (s : State) : State := { s with data := d }

/-- `Emit` neither reads nor writes DATA (R117). -/
theorem emit_withData (d : Memory Byte) {v : Word} {after : State → State} {s t : State}
    (ha : ∀ u, after (u.withData d) = (after u).withData d) (h : emit v after s = .next t) :
    emit v after (s.withData d) = .next (t.withData d) := by
  rcases emit_cases h with ⟨ho, rfl⟩ | ⟨ho, rfl⟩
  · exact if_pos ho
  · calc emit v after (s.withData d)
      _ = .next (after ((s.append v).withData d)) := (if_neg ho.ne).trans (if_pos ho)
      _ = .next ((after (s.append v)).withData d) := by rw [ha]

theorem arrive_withData (d : Memory Byte) {nxt : Nat} {s t : State} (h : arrive nxt s = .next t) :
    arrive nxt (s.withData d) = .next (t.withData d) := by
  obtain ⟨hn, ⟨hk, h⟩ | ⟨hk, rfl⟩⟩ := arrive_next h
  · exact (arrive_leaf (s := s.withData d) hn hk).trans (emit_withData d (fun _ => rfl) h)
  · exact arrive_internal (s := s.withData d) hn hk

/-- A consumed bit moves in NODE alone (R111 to R113). -/
theorem moveTo_withData (d : Memory Byte) {child : NodeRec → Nat} {s t : State} (h : moveTo child s = .next t) :
    moveTo child (s.withData d) = .next (t.withData d) := by
  obtain ⟨hp, hc, h⟩ := moveTo_next h
  exact (moveTo_walk (s := s.withData d) hp hc child).trans (arrive_withData d h)

theorem exec_bit_withData (d : Memory Byte) {b : Bool} {s t : State}
    (h : exec (decodeBit b.toNat) s = .next t) :
    exec (decodeBit b.toNat) (s.withData d) = .next (t.withData d) := by
  cases b with
  | false => exact moveTo_withData d (child := NodeRec.left) h
  | true => exact moveTo_withData d (child := NodeRec.right) h

theorem endStream_withData (d : Memory Byte) (s : State) : endStream (s.withData d) = (endStream s).withData d := by
  rcases endStream_cases s with ⟨hc, h⟩ | ⟨hc, h⟩ <;> rw [h]
  · exact if_pos hc
  · exact if_neg hc

end Sys2Proof.Machine
end

section
/-!
SUPPORT. The size of a serialized tree (R75) and the lengths of its codes (R77).
-/

namespace Sys2Proof.Machine

/-! ### Sizes -/

theorem CodeTree.one_le_leaves (t : CodeTree) : 1 ≤ t.leaves := by
  induction t with
  | leaf => exact le_refl 1
  | internal l r ihl ihr => simp only [CodeTree.leaves]; omega

theorem CodeTree.length_entries (t : CodeTree) : t.entries.length = t.size := by
  induction t with
  | leaf => rfl
  | internal l r ihl ihr =>
    simp only [CodeTree.entries, CodeTree.size, List.length_cons, List.length_append, ihl, ihr]
    omega

theorem CodeTree.size_add_one (t : CodeTree) : t.size + 1 = 4 * t.leaves := by
  induction t with
  | leaf => rfl
  | internal l r ihl ihr => simp only [CodeTree.size, CodeTree.leaves]; omega

/-- The INTERNAL entries are one fewer than the leaves. -/
theorem CodeTree.countP_internal_add_one (t : CodeTree) :
    t.entries.countP (· == .internal 0#32) + 1 = t.leaves := by
  induction t with
  | leaf => simp [CodeTree.entries, CodeTree.leaves]
  | internal l r ihl ihr =>
    simp only [CodeTree.entries, CodeTree.leaves, List.countP_cons, List.countP_append, BEq.rfl, if_true]
    omega

/-- A serialization begins with a node marker (R74). -/
theorem CodeTree.head_entries_ne_absent (t : CodeTree) (sym : Word) : t.entries.head? ≠ some (.absent sym) := by
  cases t <;> simp [CodeTree.entries]

/-! ### Codes -/

theorem CodeTree.symbolOf_leaf {sym v : Word} {p : List Bool} :
    (CodeTree.leaf sym).symbolOf p = some v ↔ p = [] ∧ sym = v := by
  cases p <;> simp [CodeTree.symbolOf]

/-- A code in an internal node is a bit and a code in the child that the bit names (R76, R77). -/
theorem CodeTree.symbolOf_internal {l r : CodeTree} {v : Word} {p : List Bool} :
    (CodeTree.internal l r).symbolOf p = some v
      ↔ ∃ b path, p = b :: path ∧ ((CodeTree.internal l r).child b).symbolOf path = some v := by
  rcases p with _ | ⟨_ | _, path⟩ <;> simp [CodeTree.symbolOf, CodeTree.child]

/-- A code that extends another is that code and has its symbol (R77). -/
theorem CodeTree.symbolOf_append {t : CodeTree} {p q : List Bool} {v w : Word} (hp : t.symbolOf p = some v)
    (hq : t.symbolOf (p ++ q) = some w) : q = [] ∧ v = w := by
  induction t generalizing p with
  | leaf sym =>
    obtain ⟨rfl, rfl⟩ := symbolOf_leaf.mp hp
    exact symbolOf_leaf.mp hq
  | internal l r ihl ihr =>
    obtain ⟨b, path, rfl, hp⟩ := symbolOf_internal.mp hp
    obtain ⟨_, _, he, hq⟩ := symbolOf_internal.mp hq
    obtain ⟨rfl, rfl⟩ := List.cons.inj he
    cases b with
    | false => exact ihl hp hq
    | true => exact ihr hp hq

/-- A code is shorter than the number of leaves: every bit leaves a subtree aside (R77). -/
theorem CodeTree.length_lt_leaves {t : CodeTree} {p : List Bool} {v : Word} (h : t.symbolOf p = some v) :
    p.length < t.leaves := by
  induction t generalizing p with
  | leaf sym =>
    obtain ⟨rfl, -⟩ := symbolOf_leaf.mp h
    exact Nat.one_pos
  | internal l r ihl ihr =>
    obtain ⟨b, path, rfl, h⟩ := symbolOf_internal.mp h
    have hl := l.one_le_leaves
    have hr := r.one_le_leaves
    rw [List.length_cons, CodeTree.leaves]
    cases b with
    | false => have := ihl h; omega
    | true => have := ihr h; omega

end Sys2Proof.Machine
end

section
/-!
The statements of 30_encoding.md.
-/

namespace Sys2Proof.Machine

/-- Settles O1, instruction by instruction: the word of its fields decodes to what they name. -/
theorem decodeOfEncodeIsTheInstruction : Obligations.DecodeOfEncodeIsTheInstruction := by
  intro p i hw
  cases i with
  | internal sym => exact decode_entryWord p (tag := 0) (by decide) (of_decide_eq_true hw)
  | leaf sym => exact decode_entryWord p (tag := 1) (by decide) (of_decide_eq_true hw)
  | absent sym => exact decode_entryWord p (tag := 2) (by decide) (of_decide_eq_true hw)
  | rsvd sym => exact decode_entryWord p (tag := 3) (by decide) (of_decide_eq_true hw)
  | left => exact decode_bit Nat.zero_lt_two
  | right => exact decode_bit Nat.one_lt_two
  | rdreg index value => exact decode_hostWord p (h := 0) (by decide) index value
  | rdtree index value => exact decode_hostWord p (h := 1) (by decide) index value
  | rddata index value => exact decode_hostWord p (h := 2) (by decide) index value
  | rdout index value => exact decode_hostWord p (h := 3) (by decide) index value
  | wrreg index value =>
    have hs : isStart index value = false := by simpa [Instr.WellFormed] using hw
    exact (decode_hostWord p (h := 4) (by decide) index value).trans (congrArg _ (hostOpOf_wrreg hs))
  | start upper =>
    exact (decode_hostWord p (h := 4) (by decide) _ _).trans (congrArg _ (hostOpOf_start upper))
  | wrtree index value => exact decode_hostWord p (h := 5) (by decide) index value
  | wrdata index value => exact decode_hostWord p (h := 6) (by decide) index value
  | wrout index value => exact decode_hostWord p (h := 7) (by decide) index value

/-- Settles O2, format by format: what a word decodes to is written back from the word's own fields. -/
theorem encodeOfDecodeIsTheWord : Obligations.EncodeOfDecodeIsTheWord := by
  intro p f w i h
  have hw := lt_of_decode_ok h
  cases f with
  | entry =>
    rw [decode_entry hw] at h
    injection h with h
    exact h ▸ ⟨decodeEntry_wellFormed p w, decodeEntry_format p w, encode_decodeEntry hw⟩
  | bit =>
    rw [decode_bit hw] at h
    injection h with h
    have hw : w < 2 := hw
    match w with
    | 0 | 1 => exact h ▸ ⟨rfl, rfl, rfl⟩
  | hostop =>
    rw [decode_hostop hw] at h
    injection h with h
    exact h ▸ ⟨decodeHost_wellFormed p w, decodeHost_format w, encode_decodeHost p hw⟩

/-- Settles O3, with the SYM field of a reserved entry as the witness of its operand. -/
theorem everyWordOfAFormatDecodes : Obligations.EveryWordOfAFormatDecodes := by
  intro p f w
  refine ⟨fun h => ?_, fun h htag => ⟨_, symField_toNat p w, ?_⟩, decode_of_le⟩
  · cases f with
    | entry => exact ⟨_, decode_entry h⟩
    | bit => exact ⟨_, decode_bit h⟩
    | hostop => exact ⟨_, decode_hostop h⟩
  · rw [decode_entry h, decodeEntry_reserved htag]

/-- Settles O4: the four tags as entry words, the canonical words, and the UNPACK step that runs RSVD. -/
theorem tagOfAnEntryIsItsKind : Obligations.TagOfAnEntryIsItsKind := by
  refine ⟨fun p sym hs => ⟨?_, ?_, ?_, ?_⟩, fun sym _ => ⟨rfl, rfl, rfl⟩, fun s hp he hl hm htag => ?_⟩
  · exact decode_entryWord p (tag := 0) (by decide) hs
  · exact decode_entryWord p (tag := 1) (by decide) hs
  · exact decode_entryWord p (tag := 2) (by decide) hs
  · exact decode_entryWord p (tag := 3) (by decide) hs
  · rw [step_entry he hp hl hm, State.entryInstr, decodeEntry_reserved htag]
    exact ⟨_, exec_rsvd (s := s.rest) hp _, raise_raised _ _⟩

/-- Settles O5: a record decodes by its opcode bits, and the register write splits on START. -/
theorem hostOperationIsReadFromItsFields : Obligations.HostOperationIsReadFromItsFields := by
  intro p index value
  have hdec := fun w space => decode_record p w space index value
  refine ⟨hdec 0 0, hdec 0 1, hdec 0 2, hdec 0 3, hdec 1 1, hdec 1 2, hdec 1 3, fun hs => ?_, fun hs => ?_⟩
  · have hs : isStart index value = false := by rwa [← isStart_iff, Bool.not_eq_true] at hs
    exact (hdec 1 0).trans (congrArg _ (hostOpOf_wrreg hs))
  · exact ⟨_, (hdec 1 0).trans (congrArg _ (if_pos (isStart_iff.mpr hs))), extract_append_one hs.2⟩

/-- Settles O6, by running the decoder on the twelve words. -/
theorem wordsOfTheSpecDecode : Obligations.WordsOfTheSpecDecode := by
  unfold Obligations.WordsOfTheSpecDecode
  decide

/-- Settles O34: the WALK step ends the run without reading DATA, or runs `Bit(BITPOS)`, which lies below DATA_LEN,
and a bit's meaning reads NODE and OUT only. -/
theorem padBitsDoNotAffectTheWalk : Obligations.PadBitsDoNotAffectTheWalk := by
  intro s t d he hp hle hbits h
  change step (s.withData d) = .next (t.withData d)
  by_cases hb : s.bitpos = s.dataLen.toNat
  · rw [step_streamEnd he hp hb] at h
    injection h with h
    rw [step_streamEnd (s := s.withData d) he hp hb, ← h]
    exact congrArg _ (endStream_withData d s.rest)
  · have hm := bit_in_range_of_step he hp hb h
    have hbit : (s.withData d).streamBit s.bitpos = s.streamBit s.bitpos := hbits _ (hle.lt_of_ne hb)
    rw [step_bit he hp hb hm, ← hbit] at h
    exact (step_bit (s := s.withData d) he hp hb hm).trans (exec_bit_withData d h)

/-- Settles O36: ERR is set exactly in phase ERROR, which leaves eight pairs of PHASE and ERR. -/
theorem statusIsOneOfTheListedWords : Obligations.StatusIsOneOfTheListedWords := by
  intro s ⟨_, _, hf⟩
  rw [State.status]
  cases hp : s.phase with
  | idle | unpack | walk | repeatLeaf | done =>
    rw [hf.err_none (by simp [hp])]
    decide
  | error =>
    have hne : s.err ≠ .none := hf.1.mpr hp
    cases he : s.err with
    | none => exact absurd he hne
    | malformedTree | truncatedStream | capacity => decide

/-- Settles O45, from the counts of entries, leaves and INTERNAL entries by induction over the tree. -/
theorem sizeOfASerializedTree : Obligations.SizeOfASerializedTree := by
  refine ⟨fun t => ?_, fun ⟨t, ht⟩ => t.head_entries_ne_absent 0#32 (by rw [ht]; rfl)⟩
  have hsize := t.size_add_one
  have hcount := t.countP_internal_add_one
  exact ⟨t.length_entries, by omega, t.one_le_leaves, by omega, by omega, by omega⟩

/-- Settles O48: no code properly extends another and the bound holds, by induction over the tree; an internal root
gives a code its first bit. -/
theorem codesArePrefixFree : Obligations.CodesArePrefixFree := by
  intro t p q v w hp
  refine ⟨CodeTree.symbolOf_append hp, Nat.le_sub_one_of_lt (CodeTree.length_lt_leaves hp), ?_⟩
  rintro ⟨l, r, rfl⟩
  obtain ⟨b, path, rfl, -⟩ := CodeTree.symbolOf_internal.mp hp
  exact Nat.le_add_left 1 path.length

end Sys2Proof.Machine
end

section
/-!
SUPPORT. The entries of a serialized tree read from its root on (R74), and `Parse` by the entry a child position begins
with (R90).
-/

namespace Sys2Proof.Machine

/-! ### Entries with their ignored SYM fields -/

theorem plainEntry_eq_internal {e : Instr} : plainEntry e = .internal 0#32 ↔ ∃ sym, e = .internal sym := by
  cases e <;> simp [plainEntry]

theorem plainEntry_eq_absent {e : Instr} : plainEntry e = .absent 0#32 ↔ ∃ sym, e = .absent sym := by
  cases e <;> simp [plainEntry]

theorem plainEntry_eq_leaf {e : Instr} {sym : Word} : plainEntry e = .leaf sym ↔ e = .leaf sym := by
  cases e <;> simp [plainEntry]

/-! ### The entries of a tree -/

/-- The entries of a leaf are its marker and two ABSENT (R74). -/
theorem State.spells_leaf_iff {s : State} {i : Nat} {sym : Word} :
    s.spells i (.leaf sym) ↔ s.entryInstr i = .leaf sym ∧ (∃ v, s.entryInstr (i + 1) = .absent v)
      ∧ ∃ v, s.entryInstr (i + 2) = .absent v := by
  simp [State.spells, CodeTree.size, CodeTree.entries, List.range_succ, plainEntry_eq_leaf, plainEntry_eq_absent]

/-- The entries of an internal node are its marker, its left subtree and its right subtree (R74). -/
theorem State.spells_internal_iff {s : State} {i : Nat} {l r : CodeTree} :
    s.spells i (.internal l r) ↔ (∃ v, s.entryInstr i = .internal v) ∧ s.spells (i + 1) l
      ∧ s.spells (i + 1 + l.size) r := by
  refine ⟨fun h => ?_, fun ⟨h0, hl, hr⟩ => State.spells_internal (plainEntry_eq_internal.mpr h0) hl hr⟩
  have hlen : ∀ (j : Nat) (c : CodeTree),
      ((List.range c.size).map fun k => plainEntry (s.entryInstr (j + k))).length = c.entries.length :=
    fun j c => by simp [c.length_entries]
  have hsplit : plainEntry (s.entryInstr i)
      :: (((List.range l.size).map fun k => plainEntry (s.entryInstr (i + 1 + k)))
        ++ (List.range r.size).map fun k => plainEntry (s.entryInstr (i + 1 + l.size + k)))
      = .internal 0#32 :: (l.entries ++ r.entries) := by
    rw [← CodeTree.entries, ← h]
    simp [CodeTree.size, List.range_add, Nat.add_assoc, Function.comp_def]
  obtain ⟨h0, hrest⟩ := List.cons.inj hsplit
  obtain ⟨hl, hr⟩ := List.append_inj hrest (hlen (i + 1) l)
  exact ⟨plainEntry_eq_internal.mp h0, hl, hr⟩

/-- The serialized tree is a tree's serialization when TREE_LEN is its size and the entries from 0 on spell it (R74). -/
theorem State.serialized_eq_entries_iff {s : State} {t : CodeTree} :
    s.serialized = t.entries ↔ t.size = s.treeLen.toNat ∧ s.spells 0 t := by
  have heq : t.size = s.treeLen.toNat → (s.spells 0 t ↔ s.serialized = t.entries) := fun h => by
    simp only [State.spells, State.serialized, h, Nat.zero_add]
  refine ⟨fun h => ?_, fun ⟨hlen, hs⟩ => (heq hlen).mp hs⟩
  have hlen : t.size = s.treeLen.toNat := by rw [← t.length_entries, ← h, State.serialized]; simp
  exact ⟨hlen, (heq hlen).mpr h⟩

/-! ### `ParseNode` -/

section
variable {entry : Nat → Instr} {len fuel p q : Nat} {sym : Word} {c : Option CodeTree}

theorem parseNode_of_le (h : len ≤ p) : parseNode entry len fuel p = none := by
  cases fuel <;> simp [parseNode, h]

theorem parseNode_absent (hp : p < len) (he : entry p = .absent sym) :
    parseNode entry len (fuel + 1) p = some (p + 1, none) := by
  simp [parseNode, hp, he]

/-- Under a LEAF marker both child positions are NoChild (R90). -/
theorem parseNode_leaf (hp : p < len) (he : entry p = .leaf sym) :
    parseNode entry len (fuel + 1) p = some (q, c)
      ↔ ∃ p1, parseNode entry len fuel (p + 1) = some (p1, none) ∧ parseNode entry len fuel p1 = some (q, none)
        ∧ some (.leaf sym) = c := by
  simp only [parseNode, not_le.mpr hp, if_false, he]
  constructor
  · intro h
    split at h
    · next p1 h1 =>
      split at h
      · next p2 h2 =>
        obtain ⟨rfl, rfl⟩ := by simpa using h
        exact ⟨p1, h1, h2, rfl⟩
      · cases h
    · cases h
  · rintro ⟨p1, h1, h2, rfl⟩
    rw [h1]
    simp only [h2]

/-- Under an INTERNAL marker both child positions are trees (R90). -/
theorem parseNode_internal (hp : p < len) (he : entry p = .internal sym) :
    parseNode entry len (fuel + 1) p = some (q, c)
      ↔ ∃ p1 l r, parseNode entry len fuel (p + 1) = some (p1, some l)
        ∧ parseNode entry len fuel p1 = some (q, some r) ∧ some (.internal l r) = c := by
  simp only [parseNode, not_le.mpr hp, if_false, he]
  constructor
  · intro h
    split at h
    · next p1 l h1 =>
      split at h
      · next p2 r h2 =>
        obtain ⟨rfl, rfl⟩ := by simpa using h
        exact ⟨p1, l, r, h1, h2, rfl⟩
      · cases h
    · cases h
  · rintro ⟨p1, l, r, h1, h2, rfl⟩
    rw [h1]
    simp only [h2]

end

/-- What a child position that takes the entries from `p` to `q` holds: NoChild, one ABSENT, or a tree (R90). -/
def State.positionAt (s : State) (p q : Nat) : Option CodeTree → Prop
  | none => (∃ v, s.entryInstr p = .absent v) ∧ q = p + 1
  | some t => s.spells p t ∧ q = p + t.size

/-- What `ParseNode` finds stands in the entries, which it does not overrun (R90). -/
theorem parseNode_sound {s : State} {len fuel p q : Nat} {c : Option CodeTree}
    (h : parseNode s.entryInstr len fuel p = some (q, c)) : s.positionAt p q c ∧ q ≤ len := by
  induction fuel generalizing p q c with
  | zero => cases h
  | succ fuel ih =>
    rcases Nat.lt_or_ge p len with hp | hp
    · cases he : s.entryInstr p with
      | absent v =>
        rw [parseNode_absent hp he] at h
        obtain ⟨rfl, rfl⟩ := by simpa using h
        exact ⟨⟨⟨v, he⟩, rfl⟩, hp⟩
      | leaf sym =>
        obtain ⟨p1, h1, h2, rfl⟩ := (parseNode_leaf hp he).mp h
        obtain ⟨⟨ha, rfl⟩, -⟩ := ih h1
        obtain ⟨⟨hb, rfl⟩, hq⟩ := ih h2
        exact ⟨⟨State.spells_leaf_iff.mpr ⟨he, ha, hb⟩, rfl⟩, hq⟩
      | internal v =>
        obtain ⟨p1, l, r, h1, h2, rfl⟩ := (parseNode_internal hp he).mp h
        obtain ⟨⟨hl, rfl⟩, -⟩ := ih h1
        obtain ⟨⟨hr, rfl⟩, hq⟩ := ih h2
        exact ⟨⟨State.spells_internal_iff.mpr ⟨⟨v, he⟩, hl, hr⟩, by simp only [CodeTree.size]; omega⟩, hq⟩
      | _ => simp [parseNode, he] at h
    · rw [parseNode_of_le hp] at h
      cases h

/-- `ParseNode` finds the tree that the entries spell, with a fuel of one for each entry left (R90). -/
theorem parseNode_complete {s : State} {len fuel p : Nat} {t : CodeTree} (hs : s.spells p t)
    (hlen : p + t.size ≤ len) (hfuel : len ≤ p + fuel) :
    parseNode s.entryInstr len fuel p = some (p + t.size, some t) := by
  induction t generalizing p fuel with
  | leaf sym =>
    obtain ⟨he, ⟨v, hv⟩, w, hw⟩ := State.spells_leaf_iff.mp hs
    simp only [CodeTree.size] at hlen ⊢
    obtain ⟨fuel, rfl⟩ : ∃ n, fuel = n + 2 := ⟨fuel - 2, by omega⟩
    exact (parseNode_leaf (by omega) he).mpr
      ⟨p + 2, parseNode_absent (by omega) hv, parseNode_absent (by omega) hw, rfl⟩
  | internal l r ihl ihr =>
    obtain ⟨⟨v, he⟩, hl, hr⟩ := State.spells_internal_iff.mp hs
    simp only [CodeTree.size] at hlen ⊢
    obtain ⟨fuel, rfl⟩ : ∃ n, fuel = n + 1 := ⟨fuel - 1, by omega⟩
    have hleft := ihl (fuel := fuel) hl (by omega) (by omega)
    have hright := ihr (fuel := fuel) hr (by omega) (by omega)
    refine (parseNode_internal (by omega) he).mpr ⟨_, l, r, hleft, ?_, rfl⟩
    rw [hright]
    congr 2
    omega

/-- `Parse` gives the tree that the whole serialized tree spells (R90). -/
theorem State.parse_eq_some_iff {s : State} {t : CodeTree} :
    s.parse = some t ↔ t.size = s.treeLen.toNat ∧ s.spells 0 t := by
  simp only [State.parse]
  constructor
  · intro h
    split at h
    · next p u hu =>
      split at h
      · next hp =>
        cases h
        obtain ⟨⟨hs, rfl⟩, -⟩ := parseNode_sound hu
        exact ⟨by omega, hs⟩
      · cases h
    · cases h
  · rintro ⟨hlen, hs⟩
    have hnode := parseNode_complete (len := s.treeLen.toNat) (fuel := s.treeLen.toNat + 1) hs (by omega) (by omega)
    simp [hnode, hlen]

/-- The entries from an index on spell at most one tree (R74). -/
theorem State.spells_unique {s : State} {i : Nat} {t t' : CodeTree} (h : s.spells i t) (h' : s.spells i t') :
    t = t' := by
  have ht := parseNode_complete (len := i + t.size + t'.size) (fuel := t.size + t'.size) h (by omega) (by omega)
  have ht' := parseNode_complete (len := i + t.size + t'.size) (fuel := t.size + t'.size) h' (by omega) (by omega)
  simpa using congrArg (Option.map Prod.snd) (ht.symm.trans ht')

end Sys2Proof.Machine
end

section
/-!
SUPPORT. `Complete` by the stages of the frames (R97), and the entry that the open nodes wait for (R90, R97).
-/

namespace Sys2Proof.Machine

/-! ### Node markers and `Complete` -/

/-- A node marker outside a leaf's child positions opens its node (R91, R92). -/
theorem nodeMarker_opens (k : Kind) (sym : Word) {s : State} (hp : s.phase = .unpack) (hr : s.stackInRange = true)
    (hc : s.ctx ≠ .under .leaf) (hpos : s.pos < s.params.treeMax) (hsp : s.sp < s.params.treeMax) :
    ∃ t, nodeMarker k sym s = .next t ∧ opened k sym s t := by
  refine ⟨_, ?_, open_opened k sym s⟩
  rw [nodeMarker, inUnpack_eq _ hp hr, if_neg hc, openNode, if_neg (by omega), if_neg (by omega)]

/-- A node marker in a child position of a leaf raises MalformedTree (R95). -/
theorem nodeMarker_malformed (k : Kind) (sym : Word) {s : State} (hp : s.phase = .unpack)
    (hr : s.stackInRange = true) (hc : s.ctx = .under .leaf) :
    nodeMarker k sym s = .next (raise .malformedTree s) := by
  rw [nodeMarker, inUnpack_eq _ hp hr, if_pos hc]

/-- ABSENT under a leaf finishes a position (R93). -/
theorem exec_absent_completes (sym : Word) {s : State} (hp : s.phase = .unpack) (hr : s.stackInRange = true)
    (hc : s.ctx = .under .leaf) : exec (.absent sym) s = .next (complete s) := by
  simp only [exec, execAbsent, inUnpack_eq _ hp hr, if_pos hc]

/-- The frame that `Complete` turns to its right position is the innermost one still at its left position (R97). -/
theorem complete_turns {s : State} {m : Nat} (hm : m < s.sp) (hst : (s.frameAt m).stage = .left)
    (hall : ∀ k, m < k → k < s.sp → (s.frameAt k).stage = .right) :
    complete s = { s.setFrame m { idx := (s.frameAt m).idx, stage := .right } with pos := s.pos + 1, sp := m + 1 } := by
  rcases completeFrames_pops { s with pos := s.pos + 1 } s.sp with ⟨hright, -⟩ | ⟨n, hn, hleft, hright, h⟩
  · exact absurd (hst.symm.trans (hright m hm)) (by decide)
  · rcases Nat.lt_trichotomy m n with hlt | rfl | hlt
    · exact absurd (hleft.symm.trans (hall n hlt hn)) (by decide)
    · exact h
    · exact absurd (hst.symm.trans (hright m hlt hm)) (by decide)

/-- With every frame at its right position `Complete` finishes the root (R97). -/
theorem complete_finishes {s : State} (hall : ∀ k < s.sp, (s.frameAt k).stage = .right) :
    complete s = finishRoot { s with pos := s.pos + 1, sp := 0 } := by
  rcases completeFrames_pops { s with pos := s.pos + 1 } s.sp with ⟨-, h⟩ | ⟨n, hn, hleft, -⟩
  · exact h
  · exact absurd (hleft.symm.trans (hall n hn)) (by decide)

/-! ### NODE tables and trees -/

/-- The links of the table of R96 lead through the tree it was made from (R100). -/
theorem State.treeOf_of_nodesAt {s : State} {i : Nat} {t : CodeTree} (h : s.nodesAt i t) : s.treeOf i t := by
  induction t generalizing i with
  | leaf => exact h
  | internal l r ihl ihr =>
    obtain ⟨hk, hleft, hright, hl, hr⟩ := h
    exact ⟨hk, hleft.symm ▸ ihl hl, hright.symm ▸ ihr hr⟩

/-- The links from a record lead through at most one tree (R100). -/
theorem State.treeOf_unique {s : State} {i : Nat} {t t' : CodeTree} (h : s.treeOf i t) (h' : s.treeOf i t') :
    t = t' := by
  induction t generalizing i t' with
  | leaf sym =>
    obtain ⟨hk, hs⟩ := h
    cases t' with
    | leaf => exact congrArg _ (hs.symm.trans h'.2)
    | internal => exact absurd (hk.symm.trans h'.1) (by decide)
  | internal l r ihl ihr =>
    obtain ⟨hk, hl, hr⟩ := h
    cases t' with
    | leaf => exact absurd (hk.symm.trans h'.1) (by decide)
    | internal l' r' =>
      obtain ⟨-, hl', hr'⟩ := h'
      rw [ihl hl hl', ihr hr hr']

end Sys2Proof.Machine
end

section
/-!
The statements of 40_tree_unpack.md: single entries, `Parse` and NODE tables.
-/

namespace Sys2Proof.Machine

/-- Settles O46: `ParseNode` finds only what the entries spell, by induction over its recursion, and finds it, by
induction over the tree. -/
theorem parseAcceptsExactlyTheGrammar : Obligations.ParseAcceptsExactlyTheGrammar :=
  fun _ _ => State.parse_eq_some_iff.trans State.serialized_eq_entries_iff.symm

/-- Settles O47, by induction over the tree. -/
theorem nodeTableHasOneTree : Obligations.NodeTableHasOneTree :=
  fun _ _ _ _ => ⟨State.treeOf_of_nodesAt, State.treeOf_unique⟩

/-- Settles O12: with no entry left the UNPACK step raises. -/
theorem unpackPastTheEntriesIsMalformed : Obligations.UnpackPastTheEntriesIsMalformed := by
  intro s he hp hl
  have hf : engineTurn s.rest = .ended (.next (raise .malformedTree s.rest)) := by
    simp [engineTurn, fetchEntry, hp, hl]
  exact ⟨_, step_of_fetch_ended ((fetch_engineNext he).trans hf), raise_raised _ _⟩

/-- Settles O25: both markers are `Open` of their kind. -/
theorem nodeMarkersOpenANode : Obligations.NodeMarkersOpenANode :=
  fun _ sym hp hr hc hpos hsp =>
    ⟨nodeMarker_opens .internal sym hp hr hc hpos hsp, nodeMarker_opens .leaf sym hp hr hc hpos hsp⟩

/-- Settles O26: both markers raise under a leaf. -/
theorem nodeMarkersUnderALeafAreMalformed : Obligations.NodeMarkersUnderALeafAreMalformed :=
  fun s sym hp hr hc =>
    ⟨⟨_, nodeMarker_malformed .internal sym hp hr hc, raise_raised _ s⟩,
      _, nodeMarker_malformed .leaf sym hp hr hc, raise_raised _ s⟩

/-- Settles O27: `Complete` stops at frame `m`, the innermost one still at its left position. -/
theorem absentFinishesPositions : Obligations.AbsentFinishesPositions := by
  intro s sym m hp hr hc hm hst hall
  have hframe : ∀ a, (complete s).frameAt a
      = if a = m then { idx := (s.frameAt m).idx, stage := .right } else s.frameAt a := fun a => by
    rw [complete_turns hm hst hall]
    exact State.frameAt_setFrame m a _ s
  refine ⟨_, exec_absent_completes sym hp hr hc, ?_, ?_, (hframe m).trans (if_pos rfl),
    fun a ha => (hframe a).trans (if_neg ha), ?_⟩ <;> rw [complete_turns hm hst hall]
  exact ⟨fun _ => rfl, sameInputs_of_fields rfl rfl rfl rfl rfl rfl rfl rfl, fun _ => rfl, ⟨rfl, rfl, rfl⟩,
    ⟨rfl, rfl, rfl⟩, rfl, rfl⟩

/-- Settles O28, branch by branch of `Finish` and `Dispatch`. -/
theorem absentFinishingTheRootDispatches : Obligations.AbsentFinishingTheRootDispatches := by
  intro s sym hp hr hc hall
  refine ⟨_, exec_absent_completes sym hp hr hc, complete_sameInputs s, ?_⟩
  rw [complete_finishes hall]
  rcases finishRoot_cases { s with pos := s.pos + 1, sp := 0 } with ⟨hpos, h⟩ | ⟨hpos, hbits, h⟩
    | ⟨hpos, hk, hd, h⟩ | ⟨hpos, hk, hd, h⟩ | ⟨hpos, hbits, hk, h⟩ <;> rw [h] <;>
    refine ⟨fun _ => rfl, ⟨rfl, rfl⟩, ?_⟩
  · rw [if_pos hpos]
    exact raise_raised _ _
  · rw [if_neg (not_not.mpr hpos), if_pos hbits]
    exact raise_raised _ _
  · have hleaf : (s.nodeAt 0).kind = .leaf ∧ s.dataLen ≠ 0#32 := ⟨hk, hd⟩
    rw [if_neg (not_not.mpr hpos), if_pos hleaf, ite_self]
    exact raise_raised _ _
  · have hk : (s.nodeAt 0).kind = .leaf := hk
    have hd : s.dataLen = 0#32 := hd
    rw [if_neg (not_not.mpr hpos), if_neg (by simp [hd]), if_neg fun h => h.2 hd, if_pos hk]
    exact ⟨rfl, rfl, rfl, rfl, fun _ => rfl, fun _ => rfl, rfl, rfl, rfl, rfl⟩
  · have hk : ¬(s.nodeAt 0).kind = .leaf := fun h => absurd (h.symm.trans hk) (by decide)
    rw [if_neg (not_not.mpr hpos), if_neg (not_lt.mpr hbits), if_neg fun h => hk h.1, if_neg hk]
    exact ⟨rfl, rfl, rfl, rfl, fun _ => rfl, fun _ => rfl, rfl, rfl, rfl, rfl⟩

/-- Settles O29: only the child positions of a leaf take an ABSENT. -/
theorem absentOutsideALeafIsMalformed : Obligations.AbsentOutsideALeafIsMalformed := by
  intro s sym hp hr hc
  refine ⟨_, ?_, raise_raised .malformedTree s⟩
  simp only [exec, execAbsent, inUnpack_eq _ hp hr, if_neg hc]

/-- Settles O30: RSVD raises before it reads a frame. -/
theorem reservedTagIsMalformed : Obligations.ReservedTagIsMalformed :=
  fun s sym hp => ⟨_, exec_rsvd hp sym, raise_raised _ s⟩

end Sys2Proof.Machine
end

section
/-!
SUPPORT. The UNPACK phase against `Parse` (R97, R98): the entry the open nodes wait for, one step, and the steps up to
the last entry.
-/

namespace Sys2Proof.Machine

/-! ### The entry the open nodes wait for -/

/-- A tree entry is a node marker, ABSENT or RSVD (R72). -/
theorem State.entryInstr_cases (s : State) (i : Nat) :
    (∃ k v, s.entryInstr i = nodeEntry k v) ∨ (∃ v, s.entryInstr i = .absent v) ∨ ∃ v, s.entryInstr i = .rsvd v := by
  have hf : (s.entryInstr i).format = .entry := decodeEntry_format _ _
  cases he : s.entryInstr i with
  | internal v => exact .inl ⟨.internal, v, rfl⟩
  | leaf v => exact .inl ⟨.leaf, v, rfl⟩
  | absent v => exact .inr (.inl ⟨v, rfl⟩)
  | rsvd v => exact .inr (.inr ⟨v, rfl⟩)
  | _ => rw [he] at hf; cases hf

@[simp] theorem nodeEntry_ne_absent (k : Kind) (v w : Word) : nodeEntry k v ≠ .absent w := by
  cases k <;> simp [nodeEntry]

@[simp] theorem absent_ne_nodeEntry (k : Kind) (v w : Word) : .absent w ≠ nodeEntry k v :=
  (nodeEntry_ne_absent k v w).symm

@[simp] theorem rsvd_ne_nodeEntry (k : Kind) (v w : Word) : .rsvd w ≠ nodeEntry k v := by
  cases k <;> simp [nodeEntry]

/-- What an entry stands under when the frame is that of the innermost open node (R97). -/
def State.ctxAt (s : State) : Option Frame → Ctx
  | none => .root
  | some f => .under (s.nodeAt f.idx).kind

theorem State.ctx_eq_ctxAt (s : State) : s.ctx = s.ctxAt s.live.getLast? := by
  by_cases h : s.sp = 0
  · rw [State.ctx, if_pos h, State.live_of_sp_zero h]
    rfl
  · rw [State.ctx, if_neg h, State.live_getLast? h]
    rfl

/-- The entry at POS is one that the grammar allows in the context: ABSENT under a leaf, a node marker elsewhere
(R74, R95). -/
def State.allows (s : State) (c : Ctx) : Prop :=
  if c = .under .leaf then ∃ v, s.entryInstr s.pos = .absent v else ∃ k v, s.entryInstr s.pos = nodeEntry k v

/-- A tree's serialization begins with a node marker (R74). -/
theorem State.nodeEntry_of_spells {s : State} {i : Nat} {t : CodeTree} (h : s.spells i t) :
    ∃ k v, s.entryInstr i = nodeEntry k v := by
  cases t with
  | leaf sym => exact ⟨.leaf, sym, (State.spells_leaf_iff.mp h).1⟩
  | internal l r =>
    obtain ⟨⟨v, hv⟩, -⟩ := State.spells_internal_iff.mp h
    exact ⟨.internal, v, hv⟩

/-- The child that an open node is reading is spelled where it begins, when the node's subtree is spelled. -/
theorem State.childAt_spells {s : State} {i j : Nat} {st : Stage} {l r : CodeTree}
    (hs : s.spells i (.internal l r)) (hj : s.childAt i st j) :
    ∃ c : CodeTree, s.spells j c ∧ j + c.size ≤ i + (CodeTree.internal l r).size := by
  obtain ⟨-, hl, hr⟩ := State.spells_internal_iff.mp hs
  have hsize : (CodeTree.internal l r).size = 1 + l.size + r.size := rfl
  cases st with
  | left =>
    obtain rfl : j = i + 1 := hj
    exact ⟨l, hl, by omega⟩
  | right =>
    obtain ⟨l', -, hl', -, rfl⟩ := hj
    obtain rfl := State.spells_unique hl hl'
    exact ⟨r, hr, by omega⟩

/-- Inside a tree that the entries spell, the open nodes wait for an entry of the tree that their context allows. -/
theorem State.openFrom_allows {s : State} {l : List Frame} {i : Nat} {t : CodeTree} (h : s.openFrom i l)
    (hs : s.spells i t) : s.pos < i + t.size ∧ s.allows (s.ctxAt l.getLast?) := by
  induction l generalizing i t with
  | nil =>
    obtain rfl : i = s.pos := h
    have hsize := t.size_add_one
    have hleaves := t.one_le_leaves
    exact ⟨by omega, State.nodeEntry_of_spells hs⟩
  | cons f rest ih =>
    obtain rfl : f.idx = i := h.1
    cases hk : (s.nodeAt f.idx).kind with
    | leaf =>
      obtain ⟨-, rfl, he, hst⟩ := (State.openFrom_leaf hk).mp h
      have hctx : s.ctxAt [f].getLast? = .under .leaf := congrArg Ctx.under hk
      rw [State.allows, if_pos hctx]
      cases t with
      | leaf sym =>
        obtain ⟨-, h1, h2⟩ := State.spells_leaf_iff.mp hs
        rcases hst with ⟨-, hp⟩ | ⟨-, hp, -⟩ <;> rw [hp]
        · exact ⟨by simp [CodeTree.size], h1⟩
        · exact ⟨by simp [CodeTree.size], h2⟩
      | internal l r =>
        obtain ⟨⟨v, hv⟩, -⟩ := State.spells_internal_iff.mp hs
        rw [he] at hv
        cases hv
    | internal =>
      obtain ⟨-, hm, j, hj, -, ho⟩ := (State.openFrom_internal hk).mp h
      cases t with
      | leaf sym =>
        rw [(State.spells_leaf_iff.mp hs).1] at hm
        cases hm
      | internal l r =>
        obtain ⟨c, hc, hle⟩ := State.childAt_spells hs hj
        obtain ⟨hpos, hallows⟩ := ih ho hc
        refine ⟨by omega, ?_⟩
        cases rest with
        | nil =>
          have hctx : s.ctxAt [f].getLast? ≠ .under .leaf := by simp [State.ctxAt, hk]
          rw [State.allows, if_neg hctx]
          exact hallows
        | cons g rest => exact hallows

/-- Where `Parse` succeeds, UNPACK finds an entry that the context allows (R90, R97). -/
theorem State.allows_of_parse {s : State} {t : CodeTree} (ht : s.TreeInv) (hp : s.phase = .unpack)
    (h : s.parse = some t) : s.pos < s.treeLen.toNat ∧ s.allows s.ctx := by
  obtain ⟨hlen, hs⟩ := State.parse_eq_some_iff.mp h
  rw [State.ctx_eq_ctxAt, ← hlen]
  simpa using State.openFrom_allows (ht.1 hp) hs

/-- The ABSENT that finishes the root ends the tree that `Parse` finds, so no entry is left over (R97, R90). -/
theorem State.last_of_finished {s : State} {v : Word} {t : CodeTree} (hopen : s.openFrom 0 s.live)
    (he : s.entryInstr s.pos = .absent v) (hc : s.ctx = .under .leaf)
    (hall : ∀ k < s.sp, (s.frameAt k).stage = .right) (h : s.parse = some t) : s.pos + 1 = s.treeLen.toNat := by
  obtain ⟨hlen, hs⟩ := State.parse_eq_some_iff.mp h
  have hlast := State.live_last_leaf hc
  have hright : ∀ g ∈ s.live, g.stage = .right := fun g hg => by
    obtain ⟨k, hk, rfl⟩ := List.mem_map.mp hg
    exact hall k (List.mem_range.mp hk)
  cases hlive : s.live with
  | nil =>
    have hsp := (State.ctx_eq_under_iff.mp hc).1
    simp [State.live, hsp] at hlive
  | cons f rest =>
    rw [hlive] at hopen hlast hright
    obtain ⟨c, hs', -, hend⟩ := State.openFrom_finished (congrArg plainEntry he) hopen hright hlast
    obtain rfl := State.spells_unique hs hs'
    omega

/-! ### One step -/

/-- The inputs, OUT, the flags and the host's side are unchanged: all but the working registers, NODE and STACK. -/
def sameOutside (s t : State) : Prop := sameInputs s t ∧ sameOut s t ∧ sameFlags s t ∧ sameHost s t

theorem sameOutside_refl (s : State) : sameOutside s s :=
  ⟨sameInputs_of_fields rfl rfl rfl rfl rfl rfl rfl rfl, fun _ => rfl, ⟨rfl, rfl, rfl⟩, rfl, rfl⟩

theorem sameInputs_trans {s t u : State} (h : sameInputs s t) (h' : sameInputs t u) : sameInputs s u := by
  obtain ⟨hp, htl, hdb, hdl, hr, ht, hd⟩ := h
  obtain ⟨hp', htl', hdb', hdl', hr', ht', hd'⟩ := h'
  exact ⟨hp'.trans hp, htl'.trans htl, hdb'.trans hdb, hdl'.trans hdl, hr'.trans hr,
    fun a => (ht' a).trans (ht a), fun a => (hd' a).trans (hd a)⟩

theorem sameOutside_trans {s t u : State} (h : sameOutside s t) (h' : sameOutside t u) : sameOutside s u := by
  obtain ⟨hin, hout, ⟨hp, he, ho⟩, hr, hs⟩ := h
  obtain ⟨hin', hout', ⟨hp', he', ho'⟩, hr', hs'⟩ := h'
  exact ⟨sameInputs_trans hin hin', fun a => (hout' a).trans (hout a),
    ⟨hp'.trans hp, he'.trans he, ho'.trans ho⟩, hr'.trans hr, hs'.trans hs⟩

/-- An error behind changes to the working registers, NODE and STACK alone is an error from before them (R166). -/
theorem raised_of_sameOutside {e : Err} {s t u : State} (h : sameOutside s t) (h' : raised e t u) : raised e s u := by
  obtain ⟨hin, hout, -, hr, hs⟩ := h
  obtain ⟨hp, he, ho, hin', hout', hr', hs'⟩ := h'
  exact ⟨hp, he, ho, sameInputs_trans hin hin', fun a => (hout' a).trans (hout a), hr'.trans hr, hs'.trans hs⟩

/-- `Parse` reads the inputs alone (R90). -/
theorem State.parse_congr {s t : State} (h : sameInputs s t) : t.parse = s.parse := by
  have he : t.entryInstr = s.entryInstr := funext h.entryInstr
  rw [State.parse, State.parse, he, h.2.1]

/-- Phase UNPACK under both invariants, with engine turns only. -/
structure State.Unpacking (s : State) : Prop where
  inv : s.Inv
  treeInv : s.TreeInv
  phase : s.phase = .unpack
  script : s.script = []

/-- A step that changes the working registers, NODE and STACK alone goes on with UNPACK. -/
theorem State.Unpacking.next {s t : State} (hs : s.Unpacking) (hstep : step s = .next t) (h : sameOutside s t) :
    t.Unpacking := by
  obtain ⟨-, -, ⟨hphase, -⟩, -, hscript⟩ := h
  exact ⟨stepKeepsTheInvariant s t hs.inv hstep, stepKeepsTheTreeValid s t hs.inv hs.treeInv hstep,
    hphase.trans hs.phase, hscript.trans hs.script⟩

/-- UNPACK stands at the ABSENT that finishes the root, the last entry. -/
def State.atLastEntry (s : State) : Prop :=
  (∃ v, s.entryInstr s.pos = .absent v) ∧ s.ctx = .under .leaf ∧ (∀ k < s.sp, (s.frameAt k).stage = .right)
    ∧ s.pos + 1 = s.treeLen.toNat

/-- With engine turns only, the UNPACK step runs the entry `TREE[POS]` (R97). -/
theorem State.Unpacking.step_eq {s : State} (hs : s.Unpacking) (hl : s.pos < s.treeLen.toNat) :
    step s = exec (s.entryInstr s.pos) s := by
  obtain ⟨-, -, htl⟩ := hs.inv.unpack_pointers hs.phase
  rw [step_entry (.inl hs.script) hs.phase hl (by omega), rest_of_nil hs.script]

/-- An UNPACK step raises MalformedTree, and then `Parse` does, or takes one entry, unless it stands at the last one
(R97). -/
theorem State.Unpacking.step_cases {s : State} (hs : s.Unpacking) :
    (s.parse = none ∧ ∃ t, step s = .next t ∧ raised .malformedTree s t)
      ∨ (∃ t, step s = .next t ∧ s.pos < s.treeLen.toNat ∧ t.pos = s.pos + 1 ∧ sameOutside s t)
      ∨ s.atLastEntry := by
  have ⟨hi, ht, hp, hscript⟩ := hs
  have hparse : ¬(s.pos < s.treeLen.toNat ∧ s.allows s.ctx) → s.parse = none := fun hn =>
    Option.eq_none_iff_forall_ne_some.mpr fun t h => hn (State.allows_of_parse ht hp h)
  have hr := hi.stackInRange hp
  by_cases hl : s.pos < s.treeLen.toNat
  case neg =>
    have hstep := unpackPastTheEntriesIsMalformed s (.inl hscript) hp (by omega)
    rw [rest_of_nil hscript] at hstep
    exact .inl ⟨hparse fun h => hl h.1, hstep⟩
  rw [hs.step_eq hl]
  obtain ⟨hsp, -, htl⟩ := hi.unpack_pointers hp
  rcases s.entryInstr_cases s.pos with ⟨k, v, he⟩ | ⟨v, he⟩ | ⟨v, he⟩ <;> rw [he]
  · have hexec : exec (nodeEntry k v) s = nodeMarker k v s := by cases k <;> rfl
    rw [hexec]
    by_cases hc : s.ctx = .under .leaf
    · refine .inl ⟨hparse fun h => ?_, _, nodeMarker_malformed k v hp hr hc, raise_raised _ s⟩
      simpa [State.allows, hc, he] using h.2
    · obtain ⟨t, hstep, hpos, -, -, -, -, -, -, -, -, -, hin, hout, -, hflags, hhost⟩ :=
        nodeMarker_opens k v hp hr hc (by omega) (by omega)
      exact .inr (.inl ⟨t, hstep, hl, hpos, hin, hout, hflags, hhost⟩)
  · by_cases hc : s.ctx = .under .leaf
    · rcases completeFrames_pops s s.sp with ⟨hall, -⟩ | ⟨m, hm, hst, hall, -⟩
      · by_cases hlast : s.pos + 1 = s.treeLen.toNat
        · exact .inr (.inr ⟨⟨v, he⟩, hc, hall, hlast⟩)
        · obtain ⟨t, hstep, -, -, -, hraised⟩ := absentFinishingTheRootDispatches s v hp hr hc hall
          rw [if_pos hlast] at hraised
          exact .inl ⟨Option.eq_none_iff_forall_ne_some.mpr fun c h =>
            hlast (State.last_of_finished (ht.1 hp) he hc hall h), t, hstep, hraised⟩
      · obtain ⟨t, hstep, hpos, -, -, -, -, hin, hout, -, hflags, hhost⟩ :=
          absentFinishesPositions s v m hp hr hc hm hst hall
        exact .inr (.inl ⟨t, hstep, hl, hpos, hin, hout, hflags, hhost⟩)
    · refine .inl ⟨hparse fun h => ?_, absentOutsideALeafIsMalformed s v hp hr hc⟩
      simpa [State.allows, hc, he] using h.2
  · refine .inl ⟨hparse fun h => ?_, reservedTagIsMalformed s v hp⟩
    simpa [State.allows, he] using h.2

/-! ### The phase -/

/-- From any point of UNPACK either `Parse` raises, and so does a step, or the steps lead to the last entry (R98). -/
theorem State.Unpacking.runs {s : State} (hs : s.Unpacking) :
    (s.parse = none ∧ ∃ k t, k + s.pos ≤ s.treeLen.toNat + 1 ∧ steps k s = .next t ∧ raised .malformedTree s t)
      ∨ ∃ k t, k + s.pos + 1 = s.treeLen.toNat ∧ steps k s = .next t ∧ sameOutside s t ∧ t.Unpacking
        ∧ t.atLastEntry := by
  induction hn : s.treeLen.toNat - s.pos using Nat.strongRecOn generalizing s with
  | ind n ih =>
    rcases hs.step_cases with ⟨hparse, t, hstep, hraised⟩ | ⟨t, hstep, hl, hpos, hsame⟩ | hlast
    · have hle := (hs.inv.unpack_pointers hs.phase).2.1
      exact .inl ⟨hparse, 1, t, by omega, steps_one hstep, hraised⟩
    · have hlen : t.treeLen = s.treeLen := hsame.1.2.1
      have hrun := ih (t.treeLen.toNat - t.pos) (by rw [hlen]; omega) (hs.next hstep hsame) rfl
      rw [State.parse_congr hsame.1, hlen, hpos] at hrun
      rcases hrun with ⟨hparse, k, u, hk, hsteps, hraised⟩ | ⟨k, u, hk, hsteps, hsame', hu⟩
      · exact .inl ⟨hparse, k + 1, u, by omega, (steps_succ hstep).trans hsteps,
          raised_of_sameOutside hsame hraised⟩
      · exact .inr ⟨k + 1, u, by omega, (steps_succ hstep).trans hsteps, sameOutside_trans hsame hsame', hu⟩
    · obtain ⟨-, -, -, hend⟩ := id hlast
      exact .inr ⟨0, s, by omega, steps_zero s, sameOutside_refl s, hs, hlast⟩

/-- At the last entry NODE holds the tree that `Parse` finds (R96). -/
theorem State.Unpacking.nodesAt_of_last {s : State} (hs : s.Unpacking) (hlast : s.atLastEntry) :
    ∃ c : CodeTree, s.parse = some c ∧ s.nodesAt 0 c := by
  obtain ⟨⟨v, he⟩, hc, hall, hend⟩ := hlast
  obtain ⟨c, hsize, hspells, hnodes⟩ :=
    State.holdsTree_of_finished (congrArg plainEntry he) hc hall hend (hs.treeInv.1 hs.phase)
  exact ⟨c, State.parse_eq_some_iff.mpr ⟨hsize, hspells⟩, hnodes⟩

/-! ### The last step -/

/-- What `Dispatch` makes of a whole tree: an error of the stream, or the phase that decodes with the tree (R99). -/
def dispatched (c : CodeTree) (s t : State) : Prop :=
  if 8 * s.dataBytes.toNat < s.dataLen.toNat then raised .truncatedStream s t
  else
    match c with
    | .leaf _ =>
      if s.dataLen = 0#32 then t.phase = .repeatLeaf ∧ t.repcnt = 0 ∧ t.ocnt = 0 ∧ t.nodesAt 0 c
      else raised .truncatedStream s t
    | .internal _ _ => t.phase = .walk ∧ t.cur = 0 ∧ t.bitpos = 0 ∧ t.ocnt = 0 ∧ t.nodesAt 0 c

/-- The step at the last entry is `Dispatch`, seen from where the phase began (R97, R99). -/
theorem State.Unpacking.dispatches {s u : State} {c : CodeTree} (hu : u.Unpacking) (hsame : sameOutside s u)
    (hlast : u.atLastEntry) (hnodes : u.nodesAt 0 c) : ∃ t, step u = .next t ∧ sameInputs s t ∧ dispatched c s t := by
  obtain ⟨⟨v, he⟩, hc, hall, hend⟩ := hlast
  obtain ⟨t, hexec, hin, -, -, hout⟩ :=
    absentFinishingTheRootDispatches u v hu.phase (hu.inv.stackInRange hu.phase) hc hall
  refine ⟨t, by rw [hu.step_eq (by omega), he, hexec], sameInputs_trans hsame.1 hin, ?_⟩
  have ⟨⟨_, _, hbytes, hlen, _⟩, _⟩ := hsame
  have ⟨_, _, _, hzero, _⟩ := hu.inv
  have htree : sameNodes u t → t.nodesAt 0 c := fun hn => (State.nodesAt_congr fun a _ _ => hn a).mpr hnodes
  rw [if_neg (not_not.mpr hend), hbytes, hlen, hzero (by simp [hu.phase])] at hout
  unfold dispatched
  by_cases hbits : 8 * s.dataBytes.toNat < s.dataLen.toNat
  · rw [if_pos hbits] at hout ⊢
    exact raised_of_sameOutside hsame hout
  rw [if_neg hbits] at hout ⊢
  cases c with
  | leaf sym =>
    have hk : (u.nodeAt 0).kind = .leaf := hnodes.1
    by_cases hd : s.dataLen = 0#32
    · rw [if_neg fun h => h.2 hd, if_pos hk] at hout
      obtain ⟨-, -, -, ho, hn, -, hphase, hrep, -⟩ := hout
      exact (if_pos hd).mpr ⟨hphase, hrep, ho, htree hn⟩
    · rw [if_pos ⟨hk, hd⟩] at hout
      exact (if_neg hd).mpr (raised_of_sameOutside hsame hout)
  | internal l r =>
    have hk : ¬(u.nodeAt 0).kind = .leaf := fun h => absurd (h.symm.trans hnodes.1) (by decide)
    rw [if_neg fun h => hk h.1, if_neg hk] at hout
    obtain ⟨-, -, -, ho, hn, -, hphase, hcur, hbit, -⟩ := hout
    exact ⟨hphase, hcur, hbit, ho, htree hn⟩

end Sys2Proof.Machine
end

section
/-!
The statements of 40_tree_unpack.md: the whole phase.
-/

namespace Sys2Proof.Machine

/-- Settles O50: under the tree invariant a step raises MalformedTree only where `Parse` does, and the steps that
raise nothing lead to the ABSENT that finishes the root, with the parsed tree in NODE, where `Dispatch` takes over. -/
theorem unpackAgreesWithParse : Obligations.UnpackAgreesWithParse := by
  intro s hi hp hpos hsp hscript
  have hopen : s.openFrom 0 s.live := by
    rw [State.live_of_sp_zero hsp]
    exact hpos.symm
  have hs : s.Unpacking := ⟨hi, ⟨fun _ => hopen, by simp [hp]⟩, hp, hscript⟩
  rcases hs.runs with ⟨hparse, k, t, hk, hsteps, hraised⟩ | ⟨k, u, hk, hsteps, hsame, hu, hlast⟩
  · exact ⟨fun _ => ⟨k, t, by omega, hsteps, hraised⟩, fun tree h => absurd (h.symm.trans hparse) (by simp)⟩
  · obtain ⟨c, hparse, hnodes⟩ := hu.nodesAt_of_last hlast
    obtain ⟨t, hstep, hin, hout⟩ := hu.dispatches hsame hlast hnodes
    rw [State.parse_congr hsame.1] at hparse
    have hrun : steps s.treeLen.toNat s = .next t := by
      rw [show s.treeLen.toNat = k + 1 by omega, steps_add hsteps, steps_one hstep]
    refine ⟨fun h => absurd (h.symm.trans hparse) (by simp), fun tree h => ?_⟩
    obtain rfl : c = tree := Option.some.inj (hparse.symm.trans h)
    exact ⟨t, hrun, hin, hout⟩

end Sys2Proof.Machine
end

section
/-!
SUPPORT. One WALK step (R111 to R117): the child that a bit leads to, and what is left unchanged.
-/

namespace Sys2Proof.Machine

/-- The bit `i` leads from the current node to the record `nxt` (R112, R113). -/
def State.leadsTo (s : State) (i : Instr) (nxt : Nat) : Prop :=
  i = .left ∧ nxt = (s.nodeAt s.cur).left ∨ i = .right ∧ nxt = (s.nodeAt s.cur).right

/-- In WALK a bit advances BITPOS and arrives at the record it leads to (R111). -/
theorem exec_bit_arrives {s : State} {i : Instr} {nxt : Nat} (hp : s.phase = .walk) (hc : s.cur < s.params.treeMax)
    (h : s.leadsTo i nxt) : exec i s = arrive nxt { s with bitpos := s.bitpos + 1 } := by
  rcases h with ⟨rfl, rfl⟩ | ⟨rfl, rfl⟩
  · exact moveTo_walk hp hc NodeRec.left
  · exact moveTo_walk hp hc NodeRec.right

/-- `Emit` into a full OUT raises Capacity (R117). -/
theorem emit_full {v : Word} {after : State → State} {s : State} (h : s.ocnt = s.params.outMax) :
    emit v after s = .next (raise .capacity s) := if_pos h

/-- `Emit` with room in OUT appends the symbol (R117). -/
theorem emit_room {v : Word} {after : State → State} {s : State} (h : s.ocnt < s.params.outMax) :
    emit v after s = .next (after (s.append v)) := (if_neg h.ne).trans (if_pos h)

/-- The symbol appended is read back, and the other elements of OUT are unchanged (R117). -/
theorem State.outAt_appended {v : Word} {s : State} (hv : v.toNat < 2 ^ s.params.symW) :
    (s.append v).outAt s.ocnt = v ∧ ∀ a, a ≠ s.ocnt → (s.append v).outAt a = s.outAt a :=
  ⟨by rw [State.outAt_append, if_pos rfl, cut_of_lt hv], fun a ha => by rw [State.outAt_append, if_neg ha]⟩

/-- In DONE a host reads the symbols below OCNT (R147). -/
theorem exec_rdout_stored {i : Word} {s : State} (value : Word) (hp : s.phase = .done) (hi : i.toNat < s.ocnt)
    (ho : s.ocnt ≤ s.params.outMax) : exec (.rdout i value) s = .next (s.reply (s.outAt i.toNat)) := by
  rw [exec, execRdout, if_neg (not_le.mpr (hi.trans_le ho)), if_pos ⟨hp, hi⟩]

end Sys2Proof.Machine
end

section
/-!
The statements of 41_bit_walk.md: one step.
-/

namespace Sys2Proof.Machine

/-- Settles O31: the bit arrives at an internal node, which writes the cursor and BITPOS only. -/
theorem bitsMoveToAnInternalChild : Obligations.BitsMoveToAnInternalChild := by
  intro s i nxt hp hc hlead hn hk
  refine ⟨_, (exec_bit_arrives hp hc hlead).trans (arrive_internal hn hk), rfl, rfl, rfl, ?_⟩
  exact ⟨sameInputs_of_fields rfl rfl rfl rfl rfl rfl rfl rfl, fun _ => rfl, fun _ => rfl, fun _ => rfl, ⟨rfl, rfl⟩,
    ⟨rfl, rfl, rfl⟩, rfl, rfl⟩

/-- Settles O32: the bit arrives at a leaf, whose symbol `Emit` stores at OCNT. -/
theorem bitsEmitALeafChild : Obligations.BitsEmitALeafChild := by
  intro s i nxt hp hc hlead hn hk hv ho
  obtain ⟨hnew, hold⟩ := State.outAt_appended hv
  refine ⟨_, (exec_bit_arrives hp hc hlead).trans ((arrive_leaf (s := { s with bitpos := s.bitpos + 1 }) hn hk).trans
    (emit_room ho)), hnew, rfl, rfl, rfl, rfl, rfl, rfl, hold, ?_⟩
  exact ⟨sameInputs_of_fields rfl rfl rfl rfl rfl rfl rfl rfl, fun _ => rfl, fun _ => rfl, ⟨rfl, rfl⟩, rfl, rfl⟩

/-- Settles O33: the bit arrives at a leaf, and `Emit` finds OUT full. -/
theorem emittingIntoAFullOutIsCapacity : Obligations.EmittingIntoAFullOutIsCapacity := by
  intro s i nxt hp hc hlead hn hk ho
  exact ⟨_, (exec_bit_arrives hp hc hlead).trans ((arrive_leaf (s := { s with bitpos := s.bitpos + 1 }) hn hk).trans
    (emit_full ho)), raise_raised .capacity { s with bitpos := s.bitpos + 1 }⟩

/-- Settles O13: at the root the end of the stream writes PHASE only, and in DONE the host reads OCNT and the symbols
below it. -/
theorem streamEndingAtTheRootIsDone : Obligations.StreamEndingAtTheRootIsDone := by
  intro s he hp hb hc
  have hend : endStream s.rest = { s.rest with phase := .done } := if_pos hc
  refine ⟨{ s.rest with phase := .done }, by rw [step_streamEnd he hp hb, hend], rfl, rfl, rfl,
    sameInputs_of_fields rfl rfl rfl rfl rfl rfl rfl rfl, fun _ => rfl, fun _ => rfl, fun _ => rfl, ⟨rfl, rfl⟩,
    ⟨rfl, rfl, rfl⟩, ⟨rfl, rfl⟩, fun value => ⟨_, rfl, rfl⟩, fun i value hi ho => ?_⟩
  exact ⟨_, exec_rdout_stored (s := { s.rest with phase := .done }) value rfl hi ho, rfl⟩

/-- Settles O14: inside a code the end of the stream raises TruncatedStream. -/
theorem streamEndingInsideACodeIsTruncated : Obligations.StreamEndingInsideACodeIsTruncated := by
  intro s he hp hb hc
  have hend : endStream s.rest = raise .truncatedStream s.rest := if_neg hc
  exact ⟨_, by rw [step_streamEnd he hp hb, hend], raise_raised _ _⟩

end Sys2Proof.Machine
end

section
/-!
SUPPORT. The WALK phase against `Walk` (R120): the subtree under the cursor, the output so far, one step, and the steps
to the end of the phase.
-/

namespace Sys2Proof.Machine

/-! ### The stream and the output -/

theorem State.length_bits (s : State) : s.bits.length = s.dataLen.toNat := by
  rw [State.bits, List.length_map, List.length_range]

/-- The stream from a bit on is that bit and the stream behind it. -/
theorem State.bits_drop {s : State} {k : Nat} (h : k < s.dataLen.toNat) :
    s.bits.drop k = s.streamBit k :: s.bits.drop (k + 1) := by
  rw [List.drop_eq_getElem_cons (s.length_bits.symm ▸ h)]
  simp [State.bits]

/-- The stream is an input (R86). -/
theorem State.bits_congr {s t : State} (h : sameInputs s t) : t.bits = s.bits := by
  obtain ⟨-, -, -, hlen, -, -, hdata⟩ := h
  have hbit : t.streamBit = s.streamBit := funext fun k => by rw [State.streamBit, State.streamBit, hdata]
  rw [State.bits, State.bits, hlen, hbit]

/-- The symbols in OUT below OCNT. -/
def State.outputIs (s : State) (out : List Word) : Prop :=
  s.ocnt = out.length ∧ ∀ (i : Nat) (h : i < out.length), s.outAt i = out[i]

/-- One symbol stored at OCNT extends the output by that symbol (R117). -/
theorem State.outputIs.append {s t : State} {out : List Word} {v : Word} (h : s.outputIs out)
    (hn : t.ocnt = s.ocnt + 1) (hnew : t.outAt s.ocnt = v) (hold : ∀ a, a ≠ s.ocnt → t.outAt a = s.outAt a) :
    t.outputIs (out ++ [v]) := by
  obtain ⟨hlen, hout⟩ := h
  refine ⟨by rw [hn, hlen, List.length_append]; rfl, fun i hi => ?_⟩
  by_cases hlast : i = out.length
  · subst hlast
    rw [List.getElem_concat_length rfl, ← hlen, hnew]
  · have hlt : i < out.length := by
      rw [List.length_append] at hi
      exact Nat.lt_of_le_of_ne (Nat.le_of_lt_succ hi) hlast
    rw [List.getElem_append_left hlt, hold i (hlen ▸ hlast), hout i hlt]

theorem State.outputIs_congr {s t : State} {out : List Word} (hn : t.ocnt = s.ocnt) (ho : sameOut s t)
    (h : s.outputIs out) : t.outputIs out :=
  ⟨hn.trans h.1, fun i hi => (ho i).trans (h.2 i hi)⟩

/-! ### One step -/

/-- From the record of an internal node a bit leads to the record of the child it names, which is not the root
(R112, R113, R96). -/
theorem State.leadsTo_child {s : State} {c : CodeTree} (h : s.nodesAt s.cur c)
    (hk : (s.nodeAt s.cur).kind = .internal) (b : Bool) :
    ∃ nxt, s.leadsTo (decodeBit b.toNat) nxt ∧ nxt ≠ 0 ∧ s.nodesAt nxt (c.child b) := by
  cases c with
  | leaf v => exact absurd (hk.symm.trans h.1) (by decide)
  | internal l r =>
    obtain ⟨-, hleft, hright, hl, hr⟩ := h
    cases b with
    | false => exact ⟨_, .inl ⟨rfl, hleft.symm⟩, by omega, hl⟩
    | true => exact ⟨_, .inr ⟨rfl, hright.symm⟩, by omega, hr⟩

/-- A bit leads to a record of NODE (R39). -/
theorem State.leadsTo_lt {s : State} {i : Instr} {nxt : Nat} (hm : s.memoriesFit) (h : s.leadsTo i nxt) :
    nxt < s.params.treeMax := by
  obtain ⟨-, hleft, hright⟩ := s.nodeAt_fits hm s.cur
  rcases h with ⟨-, rfl⟩ | ⟨-, rfl⟩
  · exact hleft
  · exact hright

/-- Phase WALK with engine turns only: the whole tree stands at the root, the subtree `c` at the cursor, and `out` is
the output so far. -/
structure State.Walking (s : State) (root c : CodeTree) (out : List Word) : Prop where
  inv : s.Inv
  phase : s.phase = .walk
  script : s.script = []
  root : s.nodesAt 0 root
  cursor : s.nodesAt s.cur c
  output : s.outputIs out

theorem State.Walking.cursor_internal {s : State} {root c : CodeTree} {out : List Word} (hs : s.Walking root c out) :
    (s.nodeAt s.cur).kind = .internal := by
  obtain ⟨-, -, -, -, -, hw, -⟩ := hs.inv
  obtain ⟨-, hcur, -⟩ := hw hs.phase
  exact hcur

/-- With engine turns only, the WALK step runs the bit `Bit(BITPOS)` (R111). -/
theorem State.Walking.step_eq {s : State} {root c : CodeTree} {out : List Word} (hs : s.Walking root c out)
    (hl : s.bitpos < s.dataLen.toNat) : step s = exec (decodeBit (s.streamBit s.bitpos).toNat) s := by
  rw [step_bit (.inl hs.script) hs.phase hl.ne (hs.inv.bit_in_range hs.phase hl.ne), rest_of_nil hs.script]

/-- A WALK step that leaves the tree alone goes on with WALK at another subtree. -/
theorem State.Walking.next {s t : State} {root c c' : CodeTree} {out out' : List Word} (hs : s.Walking root c out)
    (hstep : step s = .next t) (hp : t.phase = s.phase) (hn : sameNodes s t) (hcur : s.nodesAt t.cur c')
    (hout : t.outputIs out') : t.Walking root c' out' where
  inv := stepKeepsTheInvariant s t hs.inv hstep
  phase := hp.trans hs.phase
  script := by rw [step_script hstep, hs.script]; rfl
  root := (State.nodesAt_congr fun a _ _ => hn a).mpr hs.root
  cursor := (State.nodesAt_congr fun a _ _ => hn a).mpr hcur
  output := hout

/-- A bit whose child is internal moves the walk into that child (R114). -/
theorem State.Walking.step_internal {s : State} {root c l r : CodeTree} {out : List Word} (hs : s.Walking root c out)
    (hl : s.bitpos < s.dataLen.toNat) (hc : c.child (s.streamBit s.bitpos) = .internal l r) :
    ∃ t, step s = .next t ∧ sameInputs s t ∧ t.bitpos = s.bitpos + 1 ∧ t.cur ≠ 0
      ∧ t.Walking root (.internal l r) out := by
  have ⟨⟨_, _, hcur, _⟩, hm, _⟩ := hs.inv
  obtain ⟨nxt, hlead, hne, hchild⟩ := State.leadsTo_child hs.cursor hs.cursor_internal (s.streamBit s.bitpos)
  rw [hc] at hchild
  obtain ⟨t, hexec, rfl, hbit, -, hin, hout, hnodes, -, -, ⟨hp, -, hocnt⟩, -⟩ :=
    bitsMoveToAnInternalChild s _ _ hs.phase hcur hlead (State.leadsTo_lt hm hlead) hchild.1
  have hstep := (hs.step_eq hl).trans hexec
  exact ⟨t, hstep, hin, hbit, hne, hs.next hstep hp hnodes hchild (State.outputIs_congr hocnt hout hs.output)⟩

/-- A bit whose child is a leaf appends its symbol and returns the walk to the root, or finds OUT full (R114, R117). -/
theorem State.Walking.step_leaf {s : State} {root c : CodeTree} {out : List Word} {v : Word} (hs : s.Walking root c out)
    (hl : s.bitpos < s.dataLen.toNat) (hc : c.child (s.streamBit s.bitpos) = .leaf v) :
    (s.ocnt = s.params.outMax ∧ ∃ t, step s = .next t ∧ raised .capacity s t)
      ∨ ∃ t, step s = .next t ∧ sameInputs s t ∧ t.bitpos = s.bitpos + 1 ∧ t.cur = 0
        ∧ t.Walking root root (out ++ [v]) := by
  have ⟨⟨_, _, hcur, _, _, hocnt⟩, hm, _⟩ := hs.inv
  obtain ⟨nxt, hlead, -, hchild⟩ := State.leadsTo_child hs.cursor hs.cursor_internal (s.streamBit s.bitpos)
  rw [hc] at hchild
  obtain ⟨hk, rfl⟩ := hchild
  have hn := State.leadsTo_lt hm hlead
  rw [hs.step_eq hl]
  rcases hocnt.eq_or_lt with ho | ho
  · exact .inl ⟨ho, emittingIntoAFullOutIsCapacity s _ _ hs.phase hcur hlead hn hk ho⟩
  · obtain ⟨t, hexec, hnew, hocnt, hhome, hbit, -, hp, -, hold, hin, hnodes, -⟩ :=
      bitsEmitALeafChild s _ _ hs.phase hcur hlead hn hk (s.nodeAt_fits hm nxt).1 ho
    exact .inr ⟨t, hexec, hin, hbit, hhome, hs.next ((hs.step_eq hl).trans hexec) hp hnodes (hhome ▸ hs.root)
      (hs.output.append hocnt hnew hold)⟩

/-! ### The phase -/

/-- What the WALK phase ends in when `w` is the whole output and whether the stream ends at the root, with `n` bits to
come: Capacity within `n` steps, or the result of `Walk` after `n + 1` (R120). -/
def walkEnds (n : Nat) (s : State) (w : List Word × Bool) : Prop :=
  (s.params.outMax < w.1.length →
      ∃ k t, k ≤ n ∧ steps k s = .next t ∧ t.shows (.error .capacity) ∧ sameInputs s t)
    ∧ (w.1.length ≤ s.params.outMax →
      ∃ t, steps (n + 1) s = .next t ∧ sameInputs s t
        ∧ t.shows (if w.2 then .done w.1 else .error .truncatedStream))

/-- A step that leaves the inputs alone goes before the end of the phase. -/
theorem walkEnds_succ {n : Nat} {s t : State} {w : List Word × Bool} (hstep : step s = .next t) (hin : sameInputs s t)
    (h : walkEnds n t w) : walkEnds (n + 1) s w := by
  obtain ⟨hcap, hend⟩ := h
  rw [hin.1] at hcap hend
  refine ⟨fun hw => ?_, fun hw => ?_⟩
  · obtain ⟨k, u, hk, hsteps, hshows, hin'⟩ := hcap hw
    exact ⟨k + 1, u, Nat.succ_le_succ hk, (steps_succ hstep).trans hsteps, hshows, sameInputs_trans hin hin'⟩
  · obtain ⟨u, hsteps, hin', hshows⟩ := hend hw
    exact ⟨u, (steps_succ hstep).trans hsteps, sameInputs_trans hin hin', hshows⟩

theorem raised.shows {e : Err} {s t : State} (h : raised e s t) : t.shows (.error e) := by
  obtain ⟨hp, he, ho, -⟩ := h
  exact ⟨hp, he, ho⟩

/-- With a full OUT and one symbol more to come the phase ends in Capacity. -/
theorem walkEnds_of_capacity {n : Nat} {s t : State} {w : List Word × Bool} (hstep : step s = .next t)
    (hr : raised .capacity s t) (hw : s.params.outMax < w.1.length) : walkEnds (n + 1) s w := by
  have ⟨_, _, _, hin, _⟩ := hr
  exact ⟨fun _ => ⟨1, t, by omega, steps_one hstep, hr.shows, hin⟩, fun h => absurd hw (not_lt.mpr h)⟩

/-- The last WALK step: at the end of the stream the cursor tells DONE from TruncatedStream (R115, R116). -/
theorem State.Walking.ends {s : State} {root c : CodeTree} {out : List Word} (hs : s.Walking root c out)
    (hb : s.bitpos = s.dataLen.toNat) : walkEnds 0 s (out, decide (s.cur = 0)) := by
  have hfit : out.length ≤ s.params.outMax := hs.output.1 ▸ hs.inv.ocnt_le
  refine ⟨fun h => absurd h (not_lt.mpr hfit), fun _ => ?_⟩
  by_cases hc : s.cur = 0
  · obtain ⟨t, hstep, hp, herr, hocnt, hin, hout, -⟩ := streamEndingAtTheRootIsDone s (.inl hs.script) hs.phase hb hc
    obtain ⟨hn, hsyms⟩ := State.outputIs_congr hocnt hout hs.output
    have ⟨_, _, hf⟩ := hs.inv
    have hnone : s.err = .none := hf.err_none (by simp [hs.phase])
    refine ⟨t, steps_one hstep, hin, ?_⟩
    rw [decide_eq_true hc]
    exact ⟨hp, herr.trans hnone, hn, hsyms⟩
  · obtain ⟨t, hstep, hr⟩ := streamEndingInsideACodeIsTruncated s (.inl hs.script) hs.phase hb hc
    rw [rest_of_nil hs.script] at hr
    have ⟨_, _, _, hin, _⟩ := hr
    refine ⟨t, steps_one hstep, hin, ?_⟩
    rw [decide_eq_false hc]
    exact hr.shows

/-- A bit whose child is a leaf gives one symbol and leads back to the root (R120). -/
theorem walkFrom_leaf {root c : CodeTree} {home b : Bool} {rest : List Bool} {v : Word} (h : c.child b = .leaf v) :
    walkFrom root c home (b :: rest) = Prod.map (v :: ·) id (walkFrom root root true rest) := by
  rw [walkFrom, h]
  rfl

/-- A bit whose child is internal goes on in that child (R120). -/
theorem walkFrom_internal {root c l r : CodeTree} {home b : Bool} {rest : List Bool}
    (h : c.child b = .internal l r) : walkFrom root c home (b :: rest) = walkFrom root (.internal l r) false rest := by
  rw [walkFrom, h]

theorem State.Walking.bitpos_le {s : State} {root c : CodeTree} {out : List Word} (hs : s.Walking root c out) :
    s.bitpos ≤ s.dataLen.toNat := by
  obtain ⟨-, -, -, -, -, hw, -⟩ := hs.inv
  obtain ⟨-, -, hle, -⟩ := hw hs.phase
  exact hle

/-- From any point of WALK the phase ends as `Walk` of the rest of the stream says, behind the output so far (R120). -/
theorem State.Walking.runs {s : State} {root c : CodeTree} {out : List Word} {rest : List Bool}
    (hs : s.Walking root c out) (hrest : s.bits.drop s.bitpos = rest) :
    walkEnds rest.length s (Prod.map (out ++ ·) id (walkFrom root c (decide (s.cur = 0)) rest)) := by
  induction rest generalizing s c out with
  | nil =>
    have hb : s.bitpos = s.dataLen.toNat := le_antisymm hs.bitpos_le (s.length_bits ▸ List.drop_eq_nil_iff.mp hrest)
    simpa [walkFrom] using hs.ends hb
  | cons b rest ih =>
    have hl : s.bitpos < s.dataLen.toNat := by
      by_contra hge
      rw [List.drop_eq_nil_of_le (by rw [s.length_bits]; exact not_lt.mp hge)] at hrest
      cases hrest
    rw [State.bits_drop hl] at hrest
    obtain ⟨rfl, htail⟩ := List.cons.inj hrest
    have next : ∀ t c' out', sameInputs s t → t.bitpos = s.bitpos + 1 → t.Walking root c' out' →
        walkEnds rest.length t (Prod.map (out' ++ ·) id (walkFrom root c' (decide (t.cur = 0)) rest)) :=
      fun t c' out' hin hbit ht => ih ht (by rw [State.bits_congr hin, hbit, htail])
    cases hc : c.child (s.streamBit s.bitpos) with
    | leaf v =>
      rw [walkFrom_leaf hc]
      rcases hs.step_leaf hl hc with ⟨ho, t, hstep, hr⟩ | ⟨t, hstep, hin, hbit, hhome, ht⟩
      · refine walkEnds_of_capacity hstep hr ?_
        have hout := hs.output.1
        simp only [Prod.map_fst, List.length_append, List.length_cons]
        omega
      · refine walkEnds_succ hstep hin ?_
        simpa [hhome, Prod.map_map, Function.comp_def] using next t root _ hin hbit ht
    | internal l r =>
      rw [walkFrom_internal hc]
      obtain ⟨t, hstep, hin, hbit, hne, ht⟩ := hs.step_internal hl hc
      exact walkEnds_succ hstep hin (by simpa [hne] using next t _ out hin hbit ht)

end Sys2Proof.Machine
end

section
/-!
The statements of 41_bit_walk.md: the whole phase.
-/

namespace Sys2Proof.Machine

/-- Settles O51: the walk runs over the stream bit by bit, by induction over the rest of the stream, with the subtree
under the cursor and the output so far. -/
theorem walkPhaseComputesWalk : Obligations.WalkPhaseComputesWalk := by
  intro s l r hi hp hcur hbit hocnt hscript hnodes
  have hs : s.Walking (.internal l r) (.internal l r) [] :=
    ⟨hi, hp, hscript, hnodes, hcur ▸ hnodes, hocnt, fun i h => absurd h (Nat.not_lt_zero i)⟩
  have hruns := hs.runs (rest := s.bits) (by rw [hbit, List.drop_zero])
  rw [s.length_bits, decide_eq_true hcur] at hruns
  exact hruns

end Sys2Proof.Machine
end

section
/-!
SUPPORT. Runs with and without host operations (R11, R195): the engine's turn does not read the host's side, so an
interleaved run ends in the result of the run with engine turns only.
-/

namespace Sys2Proof.Machine

/-! ### The host's side -/

/-- The state with another host's side: the draws taken, the value last read and the script. -/
def State.withHost (d : Nat) (r : Option Word) (m : List Move) (s : State) : State :=
  { s with draws := d, hostRead := r, script := m }

/-- The inputs, OUT and the flags are the same: what the end of a run shows. -/
def sameShown (s t : State) : Prop := sameInputs s t ∧ sameOut s t ∧ sameFlags s t

/-- Two states at the same point of a run: but for the host's side they are the same, or the run is over in both, and
they show the same. -/
inductive SamePoint : State → State → Prop where
  | host (d : Nat) (r : Option Word) (m : List Move) (s : State) : SamePoint s (s.withHost d r m)
  | ended {s t : State} (hb : s.busy = false) (h : sameShown s t) : SamePoint s t

theorem SamePoint.shown {s t : State} (h : SamePoint s t) : sameShown s t := by
  cases h with
  | host => exact ⟨sameInputs_of_fields rfl rfl rfl rfl rfl rfl rfl rfl, fun _ => rfl, rfl, rfl, rfl⟩
  | ended _ h => exact h

theorem SamePoint.busy_eq {s t : State} (h : SamePoint s t) : t.busy = s.busy := by
  obtain ⟨-, -, hp, -⟩ := h.shown
  rw [State.busy, State.busy, hp]

/-- Where the run goes on, the states are the same but for the host's side. -/
theorem SamePoint.eq_withHost {s t : State} (h : SamePoint s t) (hb : s.busy = true) :
    ∃ d r m, t = s.withHost d r m := by
  cases h with
  | host d r m => exact ⟨d, r, m, rfl⟩
  | ended hf => rw [hb] at hf; cases hf

/-- An error is one whatever the values drawn for what it leaves unspecified (R166). -/
theorem raise_samePoint (e : Err) (d : Nat) (r : Option Word) (m : List Move) (s : State) :
    SamePoint (raise e s) (raise e (s.withHost d r m)) :=
  .ended rfl ⟨sameInputs_of_fields rfl rfl rfl rfl rfl rfl rfl rfl, fun _ => rfl, rfl, rfl, rfl⟩

/-- The same outcome at the same point of a run. -/
inductive SameOutcome : Result → Result → Prop where
  | next {s t : State} (h : SamePoint s t) : SameOutcome (.next s) (.next t)
  | fault (f : Fault) : SameOutcome (.fault f) (.fault f)

theorem SameOutcome.exists_next {s : State} {o : Result} (h : SameOutcome (.next s) o) :
    ∃ t, o = .next t ∧ SamePoint s t := by
  cases h with
  | next h => exact ⟨_, rfl, h⟩

/-- A relation between the branches of two conditionals on one condition. -/
theorem ite_related {α : Type} {R : α → α → Prop} {p : Prop} [Decidable p] {a b a' b' : α} (h : R a a')
    (h' : R b b') : R (if p then a else b) (if p then a' else b') := by
  split
  · exact h
  · exact h'

/-! ### The engine does not read the host's side -/

section
variable (d : Nat) (r : Option Word) (m : List Move) (s : State)

theorem leaveUnpack_samePoint : SamePoint (leaveUnpack s) (leaveUnpack (s.withHost d r m)) := by
  have hn : (s.withHost d r m).nodeAt 0 = s.nodeAt 0 := rfl
  simp only [leaveUnpack, hn]
  refine ite_related (raise_samePoint _ d r m s) ?_
  cases (s.nodeAt 0).kind with
  | leaf => exact ite_related (.host d r m _) (raise_samePoint _ d r m s)
  | internal => exact .host d r m _

theorem finishRoot_samePoint : SamePoint (finishRoot s) (finishRoot (s.withHost d r m)) :=
  ite_related (leaveUnpack_samePoint d r m s) (raise_samePoint _ d r m s)

theorem completeFrames_samePoint (n : Nat) :
    SamePoint (completeFrames s n) (completeFrames (s.withHost d r m) n) := by
  induction n with
  | zero => exact finishRoot_samePoint d r m { s with sp := 0 }
  | succ n ih =>
    have hf : (s.withHost d r m).frameAt n = s.frameAt n := rfl
    simp only [completeFrames, hf]
    cases (s.frameAt n).stage with
    | left => exact .host d r m _
    | right => exact ih

theorem linkParent_withHost : linkParent (s.withHost d r m) = (linkParent s).withHost d r m :=
  (apply_ite (State.withHost d r m) (s.sp = 0) s (s.setNode s.top.idx (linkedRecord s))).symm

theorem open_withHost (k : Kind) (sym : Word) :
    pushFrame (linkParent (openRecord k sym (s.withHost d r m)))
      = (pushFrame (linkParent (openRecord k sym s))).withHost d r m :=
  congrArg pushFrame (linkParent_withHost d r m (openRecord k sym s))

theorem nodeMarker_sameOutcome (k : Kind) (sym : Word) :
    SameOutcome (nodeMarker k sym s) (nodeMarker k sym (s.withHost d r m)) := by
  have hopen : SameOutcome (openNode k sym s) (openNode k sym (s.withHost d r m)) :=
    ite_related (.fault _) (ite_related (.fault _) (.next (open_withHost d r m s k sym ▸ .host d r m _)))
  exact ite_related (.fault _) (ite_related (ite_related (.next (raise_samePoint _ d r m s)) hopen) (.fault _))

theorem emit_sameOutcome (v : Word) {after : State → State}
    (ha : ∀ u, after (u.withHost d r m) = (after u).withHost d r m) :
    SameOutcome (emit v after s) (emit v after (s.withHost d r m)) :=
  ite_related (.next (raise_samePoint _ d r m s)) (ite_related (.next (ha (s.append v) ▸ .host d r m _)) (.fault _))

theorem arrive_sameOutcome (nxt : Nat) : SameOutcome (arrive nxt s) (arrive nxt (s.withHost d r m)) := by
  have hn : (s.withHost d r m).nodeAt nxt = s.nodeAt nxt := rfl
  simp only [arrive, hn]
  refine ite_related ?_ (.fault _)
  cases (s.nodeAt nxt).kind with
  | leaf => exact emit_sameOutcome d r m s _ fun _ => rfl
  | internal => exact .next (.host d r m _)

theorem moveTo_sameOutcome (child : NodeRec → Nat) :
    SameOutcome (moveTo child s) (moveTo child (s.withHost d r m)) :=
  ite_related (.fault _) (ite_related (.fault _) (arrive_sameOutcome d r m { s with bitpos := s.bitpos + 1 } _))

theorem endStream_samePoint : SamePoint (endStream s) (endStream (s.withHost d r m)) :=
  ite_related (.host d r m _) (raise_samePoint _ d r m s)

theorem repeatStep_sameOutcome : SameOutcome (repeatStep s) (repeatStep (s.withHost d r m)) :=
  ite_related (.next (.host d r m _)) (emit_sameOutcome d r m s _ fun _ => rfl)

/-- A tree entry or a stream bit has the same outcome under another host's side. -/
theorem exec_sameOutcome {i : Instr} (hi : i.format ≠ .hostop) :
    SameOutcome (exec i s) (exec i (s.withHost d r m)) := by
  cases i with
  | internal sym | leaf sym => exact nodeMarker_sameOutcome d r m s _ sym
  | absent sym =>
    refine ite_related (.fault _) (ite_related (.next (ite_related ?_ (raise_samePoint _ d r m s))) (.fault _))
    exact completeFrames_samePoint d r m { s with pos := s.pos + 1 } s.sp
  | rsvd sym => exact ite_related (.fault _) (.next (raise_samePoint _ d r m s))
  | left => exact moveTo_sameOutcome d r m s _
  | right => exact moveTo_sameOutcome d r m s _
  | _ => exact absurd rfl hi

/-- What the engine's turn does (R11). -/
def engineStep (s : State) : Result :=
  match engineTurn s with
  | .run i t => exec i t
  | .ended o => o

theorem engineStep_unpack {s : State} (hp : s.phase = .unpack) :
    engineStep s = if s.treeLen.toNat ≤ s.pos then .next (raise .malformedTree s)
      else if s.pos < s.params.treeMax then exec (s.entryInstr s.pos) s else .fault (.outOfSpace .tree) := by
  simp only [engineStep, engineTurn, hp, fetchEntry]
  by_cases hl : s.treeLen.toNat ≤ s.pos
  · simp only [if_pos hl]
  · by_cases hm : s.pos < s.params.treeMax
    · simp only [if_neg hl, if_pos hm, State.entryInstr]
    · simp only [if_neg hl, if_neg hm]

theorem engineStep_walk {s : State} (hp : s.phase = .walk) :
    engineStep s = if s.bitpos = s.dataLen.toNat then .next (endStream s)
      else if s.bitpos / 8 < s.params.dataMax then exec (decodeBit (s.streamBit s.bitpos).toNat) s
      else .fault (.outOfSpace .data) := by
  simp only [engineStep, engineTurn, hp, fetchBit]
  by_cases hl : s.bitpos = s.dataLen.toNat
  · simp only [if_pos hl]
  · by_cases hm : s.bitpos / 8 < s.params.dataMax
    · simp only [if_neg hl, if_pos hm]
    · simp only [if_neg hl, if_neg hm]

theorem decodeBit_format (b : Bool) : (decodeBit b.toNat).format = .bit := by
  cases b <;> rfl

theorem engineStep_sameOutcome : SameOutcome (engineStep s) (engineStep (s.withHost d r m)) := by
  cases hp : s.phase with
  | unpack =>
    rw [engineStep_unpack hp, engineStep_unpack (s := s.withHost d r m) hp]
    have hf : (s.entryInstr s.pos).format ≠ .hostop := by simp [State.entryInstr, decodeEntry_format]
    exact ite_related (.next (raise_samePoint _ d r m s))
      (ite_related (exec_sameOutcome d r m s hf) (.fault _))
  | walk =>
    rw [engineStep_walk hp, engineStep_walk (s := s.withHost d r m) hp]
    have hf : (decodeBit (s.streamBit s.bitpos).toNat).format ≠ .hostop := by simp [decodeBit_format]
    exact ite_related (.next (endStream_samePoint d r m s))
      (ite_related (exec_sameOutcome d r m s hf) (.fault _))
  | repeatLeaf =>
    have he : ∀ u : State, u.phase = .repeatLeaf → engineStep u = repeatStep u := fun u hu => by
      simp only [engineStep, engineTurn, hu]
    rw [he s hp, he (s.withHost d r m) hp]
    exact repeatStep_sameOutcome d r m s
  | idle | done | error =>
    have he : ∀ u : State, u.busy = false → engineStep u = .next u := fun u hu => by
      rw [engineStep, engineTurn_not_busy hu]
    have hb : s.busy = false := by simp [State.busy, hp]
    rw [he s hb, he (s.withHost d r m) hb]
    exact .next (.host d r m s)

end

theorem step_engineNext {s : State} (h : s.engineNext) : step s = engineStep s.rest := by
  rw [step, fetch_engineNext h]
  rfl

/-! ### Runs -/

/-- A run that is over stays so with engine turns only (R12). -/
theorem steps_not_busy {k : Nat} {s : State} (hscript : s.script = []) (hb : s.busy = false) :
    steps k s = .next s := by
  induction k with
  | zero => rfl
  | succ k ih =>
    have hstep := step_engine_not_busy (.inl hscript) hb
    rw [rest_of_nil hscript] at hstep
    rw [steps_succ hstep, ih]

/-- With engine turns only, `n` turns from a state at the same point of the run lead to `t`. -/
def alongside (t : State) (n : Nat) (s : State) : Prop :=
  ∃ v : State, v.script = [] ∧ steps n v = .next t ∧ SamePoint v s

/-- While the run goes on, a turn of the engine is still to come. -/
theorem alongside_pos {t : State} (ht : t.busy = false) (n : Nat) (s : State) (h : alongside t n s)
    (hb : s.busy = true) : 0 < n := by
  obtain ⟨v, -, hsteps, hpoint⟩ := h
  by_contra hn
  obtain rfl : n = 0 := by omega
  injection hsteps with hv
  rw [hpoint.busy_eq, hv, ht] at hb
  cases hb

/-- The engine's turn uses up one of the turns. -/
theorem alongside_engine {t : State} (n : Nat) (s : State) (h : alongside t (n + 1) s) (hb : s.busy = true)
    (he : s.engineNext) : ∃ u, step s = .next u ∧ alongside t n u := by
  obtain ⟨v, hscript, hsteps, hpoint⟩ := h
  obtain ⟨d, r, m, rfl⟩ := hpoint.eq_withHost (hpoint.busy_eq ▸ hb)
  cases hv : step v with
  | next w =>
    have hturn : engineStep v = .next w := by
      rw [← hv, step_engineNext (.inl hscript), rest_of_nil hscript]
    have hsame := engineStep_sameOutcome d r m.tail v
    rw [hturn] at hsame
    obtain ⟨u, hu, hpoint'⟩ := hsame.exists_next
    rw [steps_succ hv] at hsteps
    exact ⟨u, (step_engineNext he).trans hu, w, by rw [step_script hv, hscript]; rfl, hsteps, hpoint'⟩
  | fault | refused => simp [steps, hv] at hsteps

/-- A host operation uses up none (R149). -/
theorem alongside_host {t : State} (n : Nat) (s : State) (w : BitVec 67) (h : alongside t n s) (hb : s.busy = true)
    (hw : s.script.head? = some (.host w)) : ∃ u, step s = .next u ∧ alongside t n u := by
  obtain ⟨v, hscript, hsteps, hpoint⟩ := h
  obtain ⟨d, r, m, rfl⟩ := hpoint.eq_withHost (hpoint.busy_eq ▸ hb)
  obtain ⟨d', r', he⟩ := exec_decodeHost_busy w.toNat (s := (v.withHost d r m).rest) (by simpa using hb)
  exact ⟨_, (step_host hw).trans he, v, hscript, hsteps, .host d' r' m.tail v⟩

/-- A run with host operations ends as the run with engine turns only does: if `n` engine turns alone end the run, and
no RESET comes within `n` engine turns of the script, it ends, shows the same, and takes the host's operations besides
(R195, R198). -/
theorem runEnds_of_steps {n : Nat} {s t : State} (h : steps n { s with script := [] } = .next t)
    (hb : t.busy = false)
    (hs : .reset ∉ s.script ∨ n ≤ (s.script.takeWhile (· ≠ .reset)).count .engine) :
    ∃ k u, runEnds k s u ∧ sameShown t u
      ∧ k ≤ n + s.script.countP (fun m => decide (m ≠ .engine ∧ m ≠ .reset)) := by
  obtain ⟨k, m, u, hrun, ⟨v, hscript, hsteps, hpoint⟩, hk⟩ :=
    runEnds_of_measure (alongside_pos hb) alongside_engine alongside_host n s
      ⟨{ s with script := [] }, rfl, h, .host s.draws s.hostRead s.script { s with script := [] }⟩ hs
  have ⟨_, hover, _⟩ := hrun
  have hv : v.busy = false := hpoint.busy_eq ▸ hover
  rw [steps_not_busy hscript hv] at hsteps
  injection hsteps with hsteps
  exact ⟨k, u, hrun, hsteps ▸ hpoint.shown, hk⟩

end Sys2Proof.Machine
end

section
/-!
SUPPORT. A whole run over a tree with an internal root (R143, R98, R120), and `Walk` of the codes of a text (R121).
-/

namespace Sys2Proof.Machine

/-! ### Codes -/

/-- From an internal node a code leads to its symbol, and then the walk is back at the root (R121). -/
theorem walkFrom_code {root l r : CodeTree} {home : Bool} {path rest : List Bool} {v : Word}
    (h : (CodeTree.internal l r).symbolOf path = some v) :
    walkFrom root (.internal l r) home (path ++ rest) = Prod.map (v :: ·) id (walkFrom root root true rest) := by
  induction path generalizing l r home with
  | nil => cases h
  | cons b path ih =>
    obtain ⟨_, _, he, h⟩ := CodeTree.symbolOf_internal.mp h
    obtain ⟨rfl, rfl⟩ := List.cons.inj he
    cases hc : (CodeTree.internal l r).child b with
    | leaf w =>
      rw [hc] at h
      obtain ⟨rfl, rfl⟩ := CodeTree.symbolOf_leaf.mp h
      exact walkFrom_leaf hc
    | internal l' r' =>
      rw [hc] at h
      exact (walkFrom_internal hc).trans (ih h)

/-- The codes of a text lead to the text, and the walk ends at the root (R121). -/
theorem walkFrom_codes {l r : CodeTree} {codes : List (List Bool)} {text : List Word}
    (h : codes.map (CodeTree.internal l r).symbolOf = text.map some) :
    walkFrom (.internal l r) (.internal l r) true codes.flatten = (text, true) := by
  induction codes generalizing text with
  | nil =>
    obtain rfl : text = [] := by simpa using h.symm
    rfl
  | cons code codes ih =>
    obtain ⟨v, text, rfl, hv, htext⟩ := List.map_eq_cons_iff.mp h.symm
    rw [List.flatten_cons, walkFrom_code hv.symm, ih htext.symm]
    rfl

/-! ### The run with engine turns only -/

/-- The state an accepted START leaves (R143). -/
def State.started (s : State) : State := { s with err := .none, ocnt := 0, pos := 0, sp := 0, phase := .unpack }

/-- START with TREE_LEN and DATA_BYTES in range is accepted (R143). -/
theorem startRun_accepted {s : State} (htl : s.treeLen.toNat ≤ s.params.treeMax)
    (hdb : s.dataBytes.toNat ≤ s.params.dataMax) : startRun s = s.started :=
  if_neg (not_or.mpr ⟨not_lt.mpr htl, not_lt.mpr hdb⟩)

theorem State.Inv.steps {k : Nat} {s t : State} (hi : s.Inv) (h : steps k s = .next t) : t.Inv :=
  steps_induct (P := State.Inv) stepKeepsTheInvariant hi h

/-- An empty script stays empty. -/
theorem steps_script_nil {k : Nat} {s t : State} (hscript : s.script = []) (h : steps k s = .next t) :
    t.script = [] :=
  steps_induct (P := fun u => u.script = []) (fun _ _ hu hstep => by rw [step_script hstep, hu]; rfl) hscript h

/-- Over a tree with an internal root the run passes from UNPACK to WALK and ends in the result of `Walk`, when the
output fits OUT (R98, R120). -/
theorem steps_unpack_walk {s : State} {l r : CodeTree} {w : List Word × Bool} (hi : s.Inv) (hp : s.phase = .unpack)
    (hpos : s.pos = 0) (hsp : s.sp = 0) (hscript : s.script = []) (hparse : s.parse = some (.internal l r))
    (hbytes : s.dataLen.toNat ≤ 8 * s.dataBytes.toNat)
    (hw : walkFrom (.internal l r) (.internal l r) true s.bits = w) (hfit : w.1.length ≤ s.params.outMax) :
    ∃ t, steps (s.treeLen.toNat + (s.dataLen.toNat + 1)) s = .next t
      ∧ t.shows (if w.2 then .done w.1 else .error .truncatedStream) := by
  obtain ⟨t, hunpack, hin, hout⟩ := (unpackAgreesWithParse s hi hp hpos hsp hscript).2 _ hparse
  rw [if_neg (not_lt.mpr hbytes)] at hout
  obtain ⟨hwalk, hcur, hbit, hocnt, hnodes⟩ := hout
  obtain ⟨-, hend⟩ := walkPhaseComputesWalk t l r (hi.steps hunpack) hwalk hcur hbit hocnt
    (steps_script_nil hscript hunpack) hnodes
  have ⟨hparams, _, _, hlen, _⟩ := hin
  rw [State.bits_congr hin, hw, hparams, hlen] at hend
  obtain ⟨u, hsteps, -, hshows⟩ := hend hfit
  exact ⟨u, (steps_add hunpack).trans hsteps, hshows⟩

/-! ### The result that a state shows -/

theorem State.shows_congr {s t : State} {res : RunResult} (h : sameShown s t) (hs : s.shows res) : t.shows res := by
  obtain ⟨-, hout, hp, he, ho⟩ := h
  cases res with
  | done out =>
    obtain ⟨hdone, herr, hocnt, hsyms⟩ := hs
    exact ⟨hp.trans hdone, he.trans herr, ho.trans hocnt, fun i hi => (hout i).trans (hsyms i hi)⟩
  | error e =>
    obtain ⟨herror, herr, hocnt⟩ := hs
    exact ⟨hp.trans herror, he.trans herr, ho.trans hocnt⟩

/-- A state that shows a result is not busy (R12). -/
theorem State.shows.not_busy {s : State} {res : RunResult} (h : s.shows res) : s.busy = false := by
  cases res with
  | done => rw [State.busy, h.1]
  | error => rw [State.busy, h.1]

end Sys2Proof.Machine
end

section
/-!
The statements of 41_bit_walk.md: the whole run over a well-formed stream.
-/

namespace Sys2Proof.Machine

/-- Settles O55: START is accepted, `Parse` finds the tree, `Walk` of the codes is the text, and host operations during
the run leave its result alone. -/
theorem wellFormedStreamDecodesToItsText : Obligations.WellFormedStreamDecodesToItsText := by
  intro s u l r codes text hi hb hs htl hdb hser ⟨hbits, hbytes, _⟩ hcodes hfit
  have hstart : exec (.start u) s = .next s.started := by
    rw [← startRun_accepted htl hdb]
    simp [exec, execStart, whenFree, hb]
  have hparse : s.parse = some (.internal l r) := (parseAcceptsExactlyTheGrammar s _).mpr hser
  have hwalk : walkFrom (.internal l r) (.internal l r) true s.bits = (text, true) := hbits ▸ walkFrom_codes hcodes
  obtain ⟨t, hsteps, hshows⟩ := steps_unpack_walk (s := { s.started with script := [] })
    (startRun_accepted htl hdb ▸ startRun_inv hi) rfl rfl rfl rfl hparse
    (show s.dataLen.toNat ≤ 8 * s.dataBytes.toNat by omega) hwalk hfit
  have hbound : s.treeLen.toNat + (s.dataLen.toNat + 1) ≤ s.runBound := by
    rw [State.runBound]
    omega
  obtain ⟨k, e, hrun, hshown, -⟩ :=
    runEnds_of_steps (s := s.started) hsteps hshows.not_busy (hs.imp_right hbound.trans)
  exact ⟨s.started, k, e, hstart, hrun, State.shows_congr hshown hshows⟩

end Sys2Proof.Machine
end

section
/-!
SUPPORT. The REPEAT step as the engine's turn (R132).
-/

namespace Sys2Proof.Machine

/-- An engine's turn in REPEAT is the REPEAT step (R132). -/
theorem step_repeat {s : State} (he : s.engineNext) (hp : s.phase = .repeatLeaf) : step s = repeatStep s.rest :=
  step_of_fetch_ended ((fetch_engineNext he).trans (by simp [engineTurn, hp]))

/-- Before the count is reached the REPEAT step emits the sole symbol (R132). -/
theorem repeatStep_emits {s : State} (hr : s.repcnt ≠ s.repeatReg.toNat) :
    repeatStep s = emit (s.nodeAt 0).sym (fun t => { t with repcnt := t.repcnt + 1 }) s :=
  if_neg hr

end Sys2Proof.Machine
end

section
/-!
The statements of 42_single_leaf_repeat.md: one step.
-/

namespace Sys2Proof.Machine

/-- Settles O15: at the count the step writes PHASE only; before it, `Emit` stores the symbol at OCNT or finds OUT
full. -/
theorem repeatStepWritesOneCopy : Obligations.RepeatStepWritesOneCopy := by
  intro s he hp
  rw [step_repeat he hp]
  refine ⟨fun hr => ?_, fun hr ho hv => ?_, fun hr ho => ?_⟩
  · have hdone : repeatStep s.rest = .next { s.rest with phase := .done } := if_pos hr
    exact ⟨_, hdone, rfl, rfl, rfl, sameInputs_of_fields rfl rfl rfl rfl rfl rfl rfl rfl, fun _ => rfl, fun _ => rfl,
      fun _ => rfl, ⟨rfl, rfl⟩, ⟨rfl, rfl, rfl⟩, rfl, rfl⟩
  · obtain ⟨hnew, hold⟩ := State.outAt_appended hv
    exact ⟨_, (repeatStep_emits (s := s.rest) hr).trans (emit_room ho), hnew, rfl, rfl, hp, rfl, rfl, rfl, hold,
      sameInputs_of_fields rfl rfl rfl rfl rfl rfl rfl rfl, fun _ => rfl, fun _ => rfl, ⟨rfl, rfl⟩, rfl, rfl⟩
  · exact ⟨_, (repeatStep_emits (s := s.rest) hr).trans (emit_full ho), raise_raised _ _⟩

end Sys2Proof.Machine
end

section
/-!
SUPPORT. The REPEAT phase (R132): the copies so far, one step, and the steps up to a number of copies.
-/

namespace Sys2Proof.Machine

/-- Phase REPEAT with engine turns only: `v` is the sole symbol, and REPCNT copies of it are the output so far. -/
structure State.Repeating (s : State) (v : Word) : Prop where
  inv : s.Inv
  phase : s.phase = .repeatLeaf
  script : s.script = []
  symbol : (s.nodeAt 0).sym = v
  output : s.outputIs (List.replicate s.repcnt v)

theorem State.Repeating.ocnt_eq {s : State} {v : Word} (hs : s.Repeating v) : s.ocnt = s.repcnt :=
  hs.output.1.trans List.length_replicate

/-- Below the count and with room in OUT, a REPEAT step appends one copy (R132). -/
theorem State.Repeating.step_copy {s : State} {v : Word} (hs : s.Repeating v) (hr : s.repcnt < s.repeatReg.toNat)
    (ho : s.repcnt < s.params.outMax) :
    ∃ t, step s = .next t ∧ sameInputs s t ∧ t.repcnt = s.repcnt + 1 ∧ t.Repeating v := by
  have ⟨_, hm, _⟩ := hs.inv
  obtain ⟨-, hcopy, -⟩ := repeatStepWritesOneCopy s (.inl hs.script) hs.phase
  obtain ⟨t, hstep, hnew, hocnt, hrep, hp, -, -, -, hold, hin, hnodes, -⟩ :=
    hcopy hr.ne (hs.ocnt_eq ▸ ho) (s.nodeAt_fits hm 0).1
  have hout := hs.output.append hocnt (hnew.trans hs.symbol) hold
  rw [← List.replicate_succ', ← hrep] at hout
  exact ⟨t, hstep, hin, hrep, stepKeepsTheInvariant s t hs.inv hstep, hp, by rw [step_script hstep, hs.script]; rfl,
    (congrArg NodeRec.sym (hnodes 0)).trans hs.symbol, hout⟩

/-- From the entry into REPEAT, `k` steps write `k` copies while neither REPEAT nor OUT_MAX is passed (R132). -/
theorem State.Repeating.runs {s : State} {v : Word} {k : Nat} (hs : s.Repeating v) (hzero : s.repcnt = 0)
    (hr : k ≤ s.repeatReg.toNat) (ho : k ≤ s.params.outMax) :
    ∃ t, steps k s = .next t ∧ sameInputs s t ∧ t.repcnt = k ∧ t.Repeating v := by
  induction k with
  | zero => exact ⟨s, steps_zero s, (sameOutside_refl s).1, hzero, hs⟩
  | succ k ih =>
    obtain ⟨t, hsteps, hin, rfl, ht⟩ := ih (Nat.le_of_succ_le hr) (Nat.le_of_succ_le ho)
    have ⟨hparams, _, _, _, hcount, _⟩ := hin
    obtain ⟨u, hstep, hin', hrep, hu⟩ := ht.step_copy (hcount ▸ hr) (hparams ▸ ho)
    exact ⟨u, (steps_add hsteps).trans (steps_one hstep), sameInputs_trans hin hin', hrep, hu⟩

/-- At the count the REPEAT step ends the run with the copies as its output (R132). -/
theorem State.Repeating.step_done {s : State} {v : Word} (hs : s.Repeating v) (hr : s.repcnt = s.repeatReg.toNat) :
    ∃ t, step s = .next t ∧ sameInputs s t ∧ t.shows (.done (List.replicate s.repcnt v)) := by
  obtain ⟨hdone, -⟩ := repeatStepWritesOneCopy s (.inl hs.script) hs.phase
  obtain ⟨t, hstep, hp, herr, hocnt, hin, hout, -⟩ := hdone hr
  obtain ⟨hn, hsyms⟩ := State.outputIs_congr hocnt hout hs.output
  have ⟨_, _, hf⟩ := hs.inv
  exact ⟨t, hstep, hin, hp, herr.trans (hf.err_none (by simp [hs.phase])), hn, hsyms⟩

/-- With OUT full and a copy still to come the REPEAT step raises Capacity (R132, R117). -/
theorem State.Repeating.step_full {s : State} {v : Word} (hs : s.Repeating v) (hr : s.repcnt ≠ s.repeatReg.toNat)
    (ho : s.repcnt = s.params.outMax) : ∃ t, step s = .next t ∧ raised .capacity s t := by
  obtain ⟨-, -, hfull⟩ := repeatStepWritesOneCopy s (.inl hs.script) hs.phase
  rw [rest_of_nil hs.script] at hfull
  exact hfull hr (hs.ocnt_eq.trans ho)

end Sys2Proof.Machine
end

section
/-!
The statements of 42_single_leaf_repeat.md: the whole phase.
-/

namespace Sys2Proof.Machine

/-- Settles O52: the phase writes copies, one a step, up to REPEAT or up to OUT_MAX, whichever comes first, and the
step behind them ends the run. -/
theorem repeatPhaseWritesTheCount : Obligations.RepeatPhaseWritesTheCount := by
  intro s hi hp hzero hscript
  have ⟨_, _, _, _, _, _, hleaf⟩ := hi
  obtain ⟨-, -, -, hocnt⟩ := hleaf hp
  have hs : s.Repeating (s.nodeAt 0).sym :=
    ⟨hi, hp, hscript, rfl, by rw [hzero]; exact ⟨hocnt.trans hzero, fun i h => absurd h (Nat.not_lt_zero i)⟩⟩
  refine ⟨fun hfit => ?_, fun hover => ?_⟩
  · obtain ⟨t, hsteps, hin, hrep, ht⟩ := hs.runs hzero le_rfl hfit
    have ⟨_, _, _, _, hcount, _⟩ := hin
    obtain ⟨u, hstep, hin', hshows⟩ := ht.step_done (by rw [hrep, hcount])
    exact ⟨u, (steps_add hsteps).trans (steps_one hstep), sameInputs_trans hin hin', hrep ▸ hshows⟩
  · obtain ⟨t, hsteps, hin, hrep, ht⟩ := hs.runs hzero hover.le le_rfl
    have ⟨hparams, _, _, _, hcount, _⟩ := hin
    obtain ⟨u, hstep, hraised⟩ := ht.step_full (by rw [hrep, hcount]; exact hover.ne) (by rw [hrep, hparams])
    have ⟨_, _, _, hin', _⟩ := hraised
    exact ⟨u, (steps_add hsteps).trans (steps_one hstep), sameInputs_trans hin hin', hraised.shows⟩

end Sys2Proof.Machine
end

section
/-!
SUPPORT. A whole run over a single leaf (R143, R98, R132), and the run that an accepted START begins (R195).
-/

namespace Sys2Proof.Machine

/-- START with TREE_LEN and DATA_BYTES in range is accepted when the block is not busy (R143). -/
theorem exec_start_accepted {s : State} (u : BitVec 31) (hb : s.busy = false)
    (htl : s.treeLen.toNat ≤ s.params.treeMax) (hdb : s.dataBytes.toNat ≤ s.params.dataMax) :
    exec (.start u) s = .next s.started := by
  rw [← startRun_accepted htl hdb]
  simp [exec, execStart, whenFree, hb]

/-- If engine turns alone end a run in a result within the run's bound, so does an undisturbed run, whatever host
operations come during it (R195, R198). -/
theorem State.started_run {n : Nat} {s t : State} {res : RunResult} (hs : s.undisturbed)
    (hsteps : steps n { s.started with script := [] } = .next t) (hshows : t.shows res) (hn : n ≤ s.runBound) :
    ∃ k e, runEnds k s.started e ∧ e.shows res := by
  obtain ⟨k, e, hrun, hshown, -⟩ :=
    runEnds_of_steps (s := s.started) hsteps hshows.not_busy (hs.imp_right hn.trans)
  exact ⟨k, e, hrun, State.shows_congr hshown hshows⟩

/-- Over a single leaf without stream bits the run passes from UNPACK to REPEAT and ends with the copies, when the
count fits OUT (R98, R130, R132). -/
theorem steps_unpack_repeat {s : State} {sym : Word} (hi : s.Inv) (hp : s.phase = .unpack) (hpos : s.pos = 0)
    (hsp : s.sp = 0) (hscript : s.script = []) (hparse : s.parse = some (.leaf sym)) (hlen : s.dataLen = 0#32)
    (hfit : s.repeatReg.toNat ≤ s.params.outMax) :
    ∃ t, steps (s.treeLen.toNat + (s.repeatReg.toNat + 1)) s = .next t
      ∧ t.shows (.done (List.replicate s.repeatReg.toNat sym)) := by
  obtain ⟨t, hunpack, hin, hout⟩ := (unpackAgreesWithParse s hi hp hpos hsp hscript).2 _ hparse
  rw [if_neg (by simp [hlen])] at hout
  obtain ⟨hrepeat, hzero, -, -, rfl⟩ := (if_pos hlen).mp hout
  obtain ⟨hend, -⟩ :=
    repeatPhaseWritesTheCount t (hi.steps hunpack) hrepeat hzero (steps_script_nil hscript hunpack)
  have ⟨hparams, _, _, _, hcount, _⟩ := hin
  rw [hparams, hcount] at hend
  obtain ⟨u, hsteps, -, hshows⟩ := hend hfit
  exact ⟨u, (steps_add hunpack).trans hsteps, hshows⟩

end Sys2Proof.Machine
end

section
/-!
The statements of 42_single_leaf_repeat.md: the whole run over a single leaf.
-/

namespace Sys2Proof.Machine

/-- Settles O56: START is accepted, `Parse` finds the leaf, REPEAT writes the copies, and host operations during the
run leave its result alone. -/
theorem singleLeafDecodesToItsCount : Obligations.SingleLeafDecodesToItsCount := by
  intro s u sym hi hb hs hser htl hbytes hlen hfit
  have hdb : s.dataBytes.toNat ≤ s.params.dataMax := by simp [hbytes]
  have hparse : s.parse = some (.leaf sym) := (parseAcceptsExactlyTheGrammar s _).mpr hser
  obtain ⟨t, hsteps, hshows⟩ := steps_unpack_repeat (s := { s.started with script := [] })
    (startRun_accepted htl hdb ▸ startRun_inv hi) rfl rfl rfl rfl hparse hlen hfit
  have hbound : s.treeLen.toNat + (s.repeatReg.toNat + 1) ≤ s.runBound := by
    rw [State.runBound]
    omega
  obtain ⟨k, e, hrun, hend⟩ := State.started_run hs hsteps hshows hbound
  exact ⟨s.started, k, e, exec_start_accepted u hb htl hdb, hrun, hend⟩

end Sys2Proof.Machine
end

section
/-!
SUPPORT. `Decode` by its cases (R150), the run with engine turns only against it, and the inputs it reads.
-/

namespace Sys2Proof.Machine

/-! ### `Decode` by its cases -/

/-- The result that the output and the end of a walk give (R117, R120). -/
def walkResult (outMax : Nat) (w : List Word × Bool) : RunResult :=
  if outMax < w.1.length then .error .capacity else if w.2 then .done w.1 else .error .truncatedStream

section
variable {s : State}

/-- A START that is refused gives Capacity (R143). -/
theorem State.decodeRun_refused (h : s.params.treeMax < s.treeLen.toNat ∨ s.params.dataMax < s.dataBytes.toNat) :
    s.decodeRun = .error .capacity := if_pos h

variable (htl : s.treeLen.toNat ≤ s.params.treeMax) (hdb : s.dataBytes.toNat ≤ s.params.dataMax)
include htl hdb

theorem State.decodeRun_malformed (h : s.parse = none) : s.decodeRun = .error .malformedTree := by
  simp [State.decodeRun, not_lt.mpr htl, not_lt.mpr hdb, h]

/-- More bits than the bytes hold give TruncatedStream, whatever the tree (R99). -/
theorem State.decodeRun_overlong {c : CodeTree} (h : s.parse = some c)
    (hbits : 8 * s.dataBytes.toNat < s.dataLen.toNat) : s.decodeRun = .error .truncatedStream := by
  simp [State.decodeRun, not_lt.mpr htl, not_lt.mpr hdb, h, hbits]

/-- A single leaf with stream bits gives TruncatedStream (R131). -/
theorem State.decodeRun_leaf_bits {sym : Word} (h : s.parse = some (.leaf sym)) (hd : s.dataLen ≠ 0#32) :
    s.decodeRun = .error .truncatedStream := by
  simp [State.decodeRun, not_lt.mpr htl, not_lt.mpr hdb, h, hd]

/-- A single leaf without stream bits gives REPEAT copies of its symbol, or Capacity (R132). -/
theorem State.decodeRun_leaf {sym : Word} (h : s.parse = some (.leaf sym)) (hd : s.dataLen = 0#32) :
    s.decodeRun = if s.params.outMax < s.repeatReg.toNat then .error .capacity
      else .done (List.replicate s.repeatReg.toNat sym) := by
  simp [State.decodeRun, not_lt.mpr htl, not_lt.mpr hdb, h, hd]

/-- A tree with an internal root gives the result of `Walk` (R120). -/
theorem State.decodeRun_internal {l r : CodeTree} (h : s.parse = some (.internal l r))
    (hbits : s.dataLen.toNat ≤ 8 * s.dataBytes.toNat) :
    s.decodeRun = walkResult s.params.outMax (walkFrom (.internal l r) (.internal l r) true s.bits) := by
  simp [State.decodeRun, walkResult, not_lt.mpr htl, not_lt.mpr hdb, h, not_lt.mpr hbits]

end

/-! ### The run with engine turns only -/

/-- Within `n` steps the run shows the result, with its inputs unchanged. -/
def State.endsWithin (s : State) (n : Nat) (res : RunResult) : Prop :=
  ∃ k t, k ≤ n ∧ steps k s = .next t ∧ sameInputs s t ∧ t.shows res

theorem State.endsWithin_of_shows {s : State} {res : RunResult} (h : s.shows res) (n : Nat) : s.endsWithin n res :=
  ⟨0, s, Nat.zero_le n, steps_zero s, (sameOutside_refl s).1, h⟩

/-- Steps that leave the inputs alone go before the end of the run. -/
theorem State.endsWithin_after {j n : Nat} {s t : State} {res : RunResult} (hsteps : steps j s = .next t)
    (hin : sameInputs s t) (h : t.endsWithin n res) : s.endsWithin (j + n) res := by
  obtain ⟨k, u, hk, hrest, hin', hshows⟩ := h
  exact ⟨j + k, u, Nat.add_le_add_left hk j, (steps_add hsteps).trans hrest, sameInputs_trans hin hin', hshows⟩

theorem State.endsWithin_mono {m n : Nat} {s : State} {res : RunResult} (hmn : m ≤ n) (h : s.endsWithin m res) :
    s.endsWithin n res := by
  obtain ⟨k, t, hk, hrest⟩ := h
  exact ⟨k, t, hk.trans hmn, hrest⟩

/-- What the WALK phase ends in is the result of its walk (R120). -/
theorem walkEnds.endsWithin {n : Nat} {s : State} {w : List Word × Bool} (h : walkEnds n s w) :
    s.endsWithin (n + 1) (walkResult s.params.outMax w) := by
  obtain ⟨hcap, hend⟩ := h
  by_cases hw : s.params.outMax < w.1.length
  · obtain ⟨k, t, hk, hsteps, hshows, hin⟩ := hcap hw
    rw [walkResult, if_pos hw]
    exact ⟨k, t, Nat.le_succ_of_le hk, hsteps, hin, hshows⟩
  · obtain ⟨t, hsteps, hin, hshows⟩ := hend (not_lt.mp hw)
    rw [walkResult, if_neg hw]
    exact ⟨n + 1, t, le_rfl, hsteps, hin, hshows⟩

/-- The REPEAT phase ends in the copies of the sole symbol, or in Capacity (R132). -/
theorem repeat_endsWithin {s : State} (hi : s.Inv) (hp : s.phase = .repeatLeaf) (hzero : s.repcnt = 0)
    (hscript : s.script = []) :
    s.endsWithin (s.repeatReg.toNat + 1) (if s.params.outMax < s.repeatReg.toNat then .error .capacity
      else .done (List.replicate s.repeatReg.toNat (s.nodeAt 0).sym)) := by
  obtain ⟨hend, hcap⟩ := repeatPhaseWritesTheCount s hi hp hzero hscript
  by_cases hfit : s.params.outMax < s.repeatReg.toNat
  · obtain ⟨t, hsteps, hin, hshows⟩ := hcap hfit
    rw [if_pos hfit]
    exact ⟨s.params.outMax + 1, t, Nat.succ_le_succ hfit.le, hsteps, hin, hshows⟩
  · obtain ⟨t, hsteps, hin, hshows⟩ := hend (not_lt.mp hfit)
    rw [if_neg hfit]
    exact ⟨s.repeatReg.toNat + 1, t, le_rfl, hsteps, hin, hshows⟩

/-- Behind `Dispatch` the run ends in the result of `Decode`, within the steps of one phase (R99, R150). -/
theorem dispatched.endsWithin {s t : State} {c : CodeTree} (htl : s.treeLen.toNat ≤ s.params.treeMax)
    (hdb : s.dataBytes.toNat ≤ s.params.dataMax) (hparse : s.parse = some c) (hin : sameInputs s t) (hi : t.Inv)
    (hscript : t.script = []) (h : dispatched c s t) :
    t.endsWithin (max (s.dataLen.toNat + 1) (s.repeatReg.toNat + 1)) s.decodeRun := by
  have ⟨hparams, _, _, hlen, hcount, _⟩ := hin
  unfold dispatched at h
  by_cases hbits : 8 * s.dataBytes.toNat < s.dataLen.toNat
  · rw [if_pos hbits] at h
    rw [State.decodeRun_overlong htl hdb hparse hbits]
    exact State.endsWithin_of_shows h.shows _
  rw [if_neg hbits] at h
  cases c with
  | leaf sym =>
    by_cases hd : s.dataLen = 0#32
    · obtain ⟨hp, hzero, -, -, rfl⟩ := (if_pos hd).mp h
      have hend := repeat_endsWithin hi hp hzero hscript
      rw [hparams, hcount] at hend
      rw [State.decodeRun_leaf htl hdb hparse hd]
      exact State.endsWithin_mono (le_max_right _ _) hend
    · rw [State.decodeRun_leaf_bits htl hdb hparse hd]
      exact State.endsWithin_of_shows ((if_neg hd).mp h).shows _
  | internal l r =>
    obtain ⟨hp, hcur, hbit, hocnt, hnodes⟩ := h
    have hend := walkEnds.endsWithin (walkPhaseComputesWalk t l r hi hp hcur hbit hocnt hscript hnodes)
    rw [State.bits_congr hin, hparams, hlen] at hend
    rw [State.decodeRun_internal htl hdb hparse (not_lt.mp hbits)]
    exact State.endsWithin_mono (le_max_left _ _) hend

/-- From the entry into UNPACK the run ends in the result of `Decode` within the run's bound (R150, R198). -/
theorem unpack_endsWithin {s : State} (hi : s.Inv) (hp : s.phase = .unpack) (hpos : s.pos = 0) (hsp : s.sp = 0)
    (hscript : s.script = []) : s.endsWithin s.runBound s.decodeRun := by
  have ⟨_, _, _, _, hunpack, _⟩ := hi
  obtain ⟨htl, hdb, -⟩ := hunpack hp
  obtain ⟨hmalformed, hdispatch⟩ := unpackAgreesWithParse s hi hp hpos hsp hscript
  cases hparse : s.parse with
  | none =>
    obtain ⟨k, t, hk, hsteps, hraised⟩ := hmalformed hparse
    have ⟨_, _, _, hin, _⟩ := hraised
    rw [State.decodeRun_malformed htl hdb hparse]
    exact ⟨k, t, hk.trans (Nat.le_add_right _ _), hsteps, hin, hraised.shows⟩
  | some c =>
    obtain ⟨t, hsteps, hin, hout⟩ := hdispatch c hparse
    have hend := dispatched.endsWithin htl hdb hparse hin (hi.steps hsteps) (steps_script_nil hscript hsteps) hout
    refine State.endsWithin_mono ?_ (State.endsWithin_after hsteps hin hend)
    rw [State.runBound]
    omega

/-- START with TREE_LEN or DATA_BYTES out of range raises Capacity when the block is not busy (R143). -/
theorem exec_start_refused {s : State} (u : BitVec 31) (hb : s.busy = false)
    (h : s.params.treeMax < s.treeLen.toNat ∨ s.params.dataMax < s.dataBytes.toNat) :
    ∃ t, exec (.start u) s = .next t ∧ raised .capacity s t := by
  have hstart : startRun s = raise .capacity { s with err := .none, ocnt := 0 } := if_pos h
  refine ⟨_, ?_, raise_raised .capacity { s with err := .none, ocnt := 0 }⟩
  simp [exec, execStart, whenFree, hb, hstart]

/-! ### The inputs that `Decode` reads -/

/-- The inputs of a run are the same as far as `Decode` reads them (R86, R73, R79): the registers, the entries below
TREE_LEN but for their ignored SYM fields, the bits below DATA_LEN. -/
structure SameRunInputs (s t : State) : Prop where
  params : t.params = s.params
  treeLen : t.treeLen = s.treeLen
  dataBytes : t.dataBytes = s.dataBytes
  dataLen : t.dataLen = s.dataLen
  repeatReg : t.repeatReg = s.repeatReg
  entries : ∀ i, i < s.treeLen.toNat → i < s.params.treeMax →
    plainEntry (t.entryInstr i) = plainEntry (s.entryInstr i)
  bits : ∀ k, k < s.dataLen.toNat → k < 8 * s.params.dataMax → t.streamBit k = s.streamBit k

/-- `Parse` reads the entries below TREE_LEN but for their ignored SYM fields (R73, R90). -/
theorem SameRunInputs.parse_eq {s t : State} (h : SameRunInputs s t) (htl : s.treeLen.toNat ≤ s.params.treeMax) :
    t.parse = s.parse := by
  have hser : t.serialized = s.serialized := by
    rw [State.serialized, State.serialized, h.treeLen]
    refine List.map_congr_left fun i hi => ?_
    have hi := List.mem_range.mp hi
    exact h.entries i hi (hi.trans_le htl)
  ext c
  rw [parseAcceptsExactlyTheGrammar, parseAcceptsExactlyTheGrammar, hser]

/-- The stream is the bits below DATA_LEN (R79). -/
theorem SameRunInputs.bits_eq {s t : State} (h : SameRunInputs s t) (hlen : s.dataLen.toNat ≤ 8 * s.params.dataMax) :
    t.bits = s.bits := by
  rw [State.bits, State.bits, h.dataLen]
  refine List.map_congr_left fun k hk => ?_
  have hk := List.mem_range.mp hk
  exact h.bits k hk (hk.trans_le hlen)

/-- `Decode` depends on nothing else (R150). -/
theorem SameRunInputs.decodeRun_eq {s t : State} (h : SameRunInputs s t) : t.decodeRun = s.decodeRun := by
  rw [State.decodeRun, State.decodeRun, h.params, h.treeLen, h.dataBytes, h.dataLen, h.repeatReg]
  refine ite_congr rfl (fun _ => rfl) fun haccepted => ?_
  obtain ⟨htl, hdb⟩ := not_or.mp haccepted
  rw [h.parse_eq (not_lt.mp htl)]
  cases s.parse with
  | none => rfl
  | some c =>
    refine ite_congr rfl (fun _ => rfl) fun hbytes => ?_
    rw [h.bits_eq (by omega)]

/-- Two states that show one result agree in PHASE, ERR, OCNT and the symbols of OUT below OCNT (R151). -/
theorem State.shows.agree {s t : State} {res : RunResult} (hs : s.shows res) (ht : t.shows res) :
    t.phase = s.phase ∧ t.err = s.err ∧ t.ocnt = s.ocnt ∧ ∀ i, i < s.ocnt → t.outAt i = s.outAt i := by
  cases res with
  | done out =>
    obtain ⟨hp, he, ho, hsyms⟩ := hs
    obtain ⟨hp', he', ho', hsyms'⟩ := ht
    refine ⟨hp'.trans hp.symm, he'.trans he.symm, ho'.trans ho.symm, fun i hi => ?_⟩
    have hi : i < out.length := ho ▸ hi
    exact (hsyms' i hi).trans (hsyms i hi).symm
  | error e =>
    obtain ⟨hp, he, ho⟩ := hs
    obtain ⟨hp', he', ho'⟩ := ht
    exact ⟨hp'.trans hp.symm, he'.trans he.symm, ho'.trans ho.symm, fun i hi => by omega⟩

end Sys2Proof.Machine
end

section
/-!
The statements of 43_host_operations.md: the whole run.
-/

namespace Sys2Proof.Machine

/-- Settles O54: a START that is refused is Capacity at once; behind an accepted one the phases in turn lead to the
result of `Decode` within the run's bound, and host operations during the run leave it alone. -/
theorem runComputesDecode : Obligations.RunComputesDecode := by
  intro s u hi hb hs
  by_cases hrefused : s.params.treeMax < s.treeLen.toNat ∨ s.params.dataMax < s.dataBytes.toNat
  · obtain ⟨t, hexec, hraised⟩ := exec_start_refused u hb hrefused
    have ⟨_, _, _, hin, _⟩ := hraised
    rw [State.decodeRun_refused hrefused]
    exact ⟨t, 0, t, hexec, runEnds_zero hraised.shows.not_busy, hraised.shows, hin⟩
  · obtain ⟨htl, hdb⟩ := not_or.mp hrefused
    have htl := not_lt.mp htl
    have hdb := not_lt.mp hdb
    obtain ⟨n, t, hn, hsteps, hin, hshows⟩ := unpack_endsWithin (s := { s.started with script := [] })
      (startRun_accepted htl hdb ▸ startRun_inv hi) rfl rfl rfl rfl
    obtain ⟨k, e, hrun, hshown, -⟩ :=
      runEnds_of_steps (s := s.started) hsteps hshows.not_busy (hs.imp_right hn.trans)
    exact ⟨s.started, k, e, exec_start_accepted u hb htl hdb, hrun, State.shows_congr hshown hshows,
      sameInputs_trans hin hshown.1⟩

/-- Settles O49: both runs end in the result of `Decode`, which reads only the inputs that are equal. -/
theorem resultDependsOnlyOnTheInputs : Obligations.ResultDependsOnlyOnTheInputs := by
  intro s s' u u' hi hi' hb hb' hs hs' hparams htl hdb hdl hrep hentries hbits
  obtain ⟨a, k, t, hstart, hrun, hshows, -⟩ := runComputesDecode s u hi hb hs
  obtain ⟨a', k', t', hstart', hrun', hshows', -⟩ := runComputesDecode s' u' hi' hb' hs'
  have hsame : SameRunInputs s s' := ⟨hparams, htl, hdb, hdl, hrep, hentries, hbits⟩
  rw [hsame.decodeRun_eq] at hshows'
  exact ⟨a, k, t, a', k', t', hstart, hrun, hstart', hrun', hshows.agree hshows'⟩

end Sys2Proof.Machine
end

section
/-!
SUPPORT. One host operation (R140 to R149): what a read returns, what a write stores, and the write lock.
-/

namespace Sys2Proof.Machine

/-! ### Reads -/

/-- STATUS has PHASE in its low three bits and ERR above them (R22). -/
theorem State.status_eq (s : State) : s.status = BitVec.ofNat 32 (s.phase.code.toNat + 8 * s.err.code.toNat) := by
  have hp := s.phase.code.isLt
  have he := s.err.code.isLt
  refine BitVec.eq_of_toNat_eq ?_
  rw [State.status, BitVec.toNat_setWidth, BitVec.toNat_append, ← Nat.shiftLeft_add_eq_or_of_lt hp,
    BitVec.toNat_ofNat, Nat.shiftLeft_eq]
  omega

/-- An index given by its number. -/
theorem eq_ofNat_of_toNat {i : Word} {n : Nat} (h : i.toNat = n) : i = BitVec.ofNat 32 n := by
  rw [← h, BitVec.ofNat_toNat, BitVec.setWidth_eq]

/-- The register of each index (R141). -/
theorem State.regRead_eq (s : State) (i : Word) :
    s.regRead i = if i = 1#32 then s.status else if i = 2#32 then s.treeLen else if i = 3#32 then s.dataBytes
      else if i = 4#32 then s.dataLen else if i = 5#32 then s.repeatReg else if i = 6#32 then s.outCount
      else 0#32 := by
  simp only [State.regRead]
  split
  case h_7 h1 h2 h3 h4 h5 h6 =>
    rw [if_neg (h1 ∘ congrArg BitVec.toNat), if_neg (h2 ∘ congrArg BitVec.toNat),
      if_neg (h3 ∘ congrArg BitVec.toNat), if_neg (h4 ∘ congrArg BitVec.toNat),
      if_neg (h5 ∘ congrArg BitVec.toNat), if_neg (h6 ∘ congrArg BitVec.toNat)]
  all_goals next hi => rw [eq_ofNat_of_toNat hi]; rfl

/-- A host read completes with its value and leaves the block and the script alone (R140). -/
theorem reply_answers (v : Word) (s : State) :
    ∃ t, (.next (s.reply v) : Result) = .next t ∧ sameBlock s t ∧ t.script = s.script ∧ t.hostRead = some v :=
  ⟨_, rfl, reply_sameBlock v s, rfl, rfl⟩

/-- A draw leaves the block alone: the count of draws is the model's own (R147). -/
theorem replyFree_sameBlock (s : State) : sameBlock s s.replyFree :=
  ⟨sameInputs_of_fields rfl rfl rfl rfl rfl rfl rfl rfl, fun _ => rfl, fun _ => rfl, fun _ => rfl, ⟨rfl, rfl⟩,
    ⟨rfl, rfl, rfl⟩, ⟨rfl, rfl, rfl⟩⟩

/-! ### The write lock -/

/-- While busy a write answers the same state (R149). -/
theorem write_dropped (write : State → State) {s : State} (hb : s.busy = true) :
    (.next (whenFree write s) : Result) = .next s := by
  simp [whenFree, hb]

theorem whenFree_free (write : State → State) {s : State} (hb : s.busy = false) : whenFree write s = write s := by
  simp [whenFree, hb]

/-! ### Writes -/

/-- A register write that is not START stores the value at its index, 2 to 5, and changes nothing else (R142). -/
theorem regWrite_stores {i v : Word} (h : ¬(i = 0#32 ∧ v.getLsbD 0 = true)) (s : State) :
    regWrite i v s = { s with
      treeLen := if i = 2#32 then v else s.treeLen
      dataBytes := if i = 3#32 then v else s.dataBytes
      dataLen := if i = 4#32 then v else s.dataLen
      repeatReg := if i = 5#32 then v else s.repeatReg } := by
  simp only [regWrite]
  split
  case h_1 hi =>
    obtain rfl := eq_ofNat_of_toNat hi
    exact if_neg fun hv => h ⟨rfl, hv⟩
  case h_6 _ h2 h3 h4 h5 =>
    rw [if_neg (h2 ∘ congrArg BitVec.toNat), if_neg (h3 ∘ congrArg BitVec.toNat),
      if_neg (h4 ∘ congrArg BitVec.toNat), if_neg (h5 ∘ congrArg BitVec.toNat)]
  all_goals next hi => rw [eq_ofNat_of_toNat hi]; rfl

/-- The register write at CTRL with bit 0 set is START (R142). -/
theorem regWrite_start {v : Word} (h : v.getLsbD 0 = true) (s : State) : regWrite 0#32 v s = startRun s := if_pos h

theorem cut_toNat (w : Nat) (v : Word) : (cut w v).toNat = v.toNat % 2 ^ w := by
  rw [cut, BitVec.toNat_ofNat, Nat.mod_eq_of_lt (lt_of_le_of_lt (Nat.mod_le _ _) v.isLt)]

/-- The entry written is read back (R145). -/
theorem State.entryAt_setTree_self (i : Nat) (v : Word) (s : State) :
    ((s.setTree i (cut s.params.entryW v)).entryAt i).toNat = v.toNat % 2 ^ s.params.entryW := by
  rw [State.entryAt_setTree, if_pos rfl, cut_of_lt (cut_lt v), cut_toNat]

theorem exec_wrreg_free (i v : Word) {s : State} (hb : s.busy = false) :
    exec (.wrreg i v) s = .next (regWrite i v s) := congrArg Host.Outcome.next (whenFree_free _ hb)

theorem exec_wrtree_free {i : Word} (v : Word) {s : State} (hb : s.busy = false) (hi : i.toNat < s.params.treeMax) :
    exec (.wrtree i v) s = .next (s.setTree i.toNat (cut s.params.entryW v)) :=
  congrArg Host.Outcome.next ((whenFree_free _ hb).trans (if_pos hi))

theorem exec_wrdata_free {i : Word} (v : Word) {s : State} (hb : s.busy = false) (hi : i.toNat < s.params.dataMax) :
    exec (.wrdata i v) s = .next (s.setData i.toNat (v.setWidth 8)) :=
  congrArg Host.Outcome.next ((whenFree_free _ hb).trans (if_pos hi))

end Sys2Proof.Machine
end

section
/-!
The statements of 43_host_operations.md: one operation.
-/

namespace Sys2Proof.Machine

/-- Settles O35: the read of each index, with STATUS field by field. -/
theorem rdregReturnsTheRegister : Obligations.RdregReturnsTheRegister := by
  intro s i value
  rw [← s.status_eq, ← State.outCount, ← s.regRead_eq]
  exact reply_answers (s.regRead i) s

/-- Settles O37: a write that lands stores at most one of the four registers, or is START. -/
theorem wrregStoresTheRegister : Obligations.WrregStoresTheRegister := by
  intro s i v
  refine ⟨fun hb => write_dropped _ hb, fun hb hstart => ?_, fun hb ⟨hi, hv⟩ u => ?_⟩
  · exact ⟨_, (exec_wrreg_free i v hb).trans (congrArg Host.Outcome.next (regWrite_stores hstart s)), rfl, rfl, rfl,
      rfl, rfl, fun _ => rfl, fun _ => rfl, fun _ => rfl, fun _ => rfl, fun _ => rfl, ⟨rfl, rfl⟩, ⟨rfl, rfl, rfl⟩,
      ⟨rfl, rfl, rfl⟩, rfl, rfl⟩
  · subst hi
    have hwrite : regWrite 0#32 v = startRun := funext (regWrite_start hv)
    rw [exec, execWrreg, hwrite, exec, execStart]

/-- Settles O38: START is refused with Capacity, whose STATUS is 0x1D, or writes the fields of the new run. -/
theorem startBeginsARun : Obligations.StartBeginsARun := by
  intro s u hb
  by_cases h : s.params.treeMax < s.treeLen.toNat ∨ s.params.dataMax < s.dataBytes.toNat
  · obtain ⟨t, hexec, hraised⟩ := exec_start_refused u hb h
    have ⟨hp, he, _⟩ := hraised
    refine ⟨t, hexec, (if_pos h).mpr ⟨hraised, ?_⟩⟩
    rw [t.status_eq, hp, he]
    rfl
  · obtain ⟨htl, hdb⟩ := not_or.mp h
    exact ⟨s.started, exec_start_accepted u hb (not_lt.mp htl) (not_lt.mp hdb), (if_neg h).mpr
      ⟨rfl, rfl, rfl, rfl, rfl, sameInputs_of_fields rfl rfl rfl rfl rfl rfl rfl rfl, fun _ => rfl, fun _ => rfl,
        fun _ => rfl, ⟨rfl, rfl, rfl⟩, rfl, rfl⟩⟩

/-- Settles O40: the reply is the entry, and the write lands in TREE alone. -/
theorem treeIsReadAndWrittenByTheHost : Obligations.TreeIsReadAndWrittenByTheHost := by
  intro s i v
  refine ⟨reply_answers _ s, fun hb hi => ⟨_, exec_wrtree_free v hb hi, s.entryAt_setTree_self i.toNat v,
    fun a ha => ?_, rfl, rfl, rfl, rfl, rfl, fun _ => rfl, fun _ => rfl, fun _ => rfl, fun _ => rfl, ⟨rfl, rfl⟩,
    ⟨rfl, rfl, rfl⟩, ⟨rfl, rfl, rfl⟩, rfl, rfl⟩⟩
  rw [State.entryAt_setTree, if_neg ha]

/-- Settles O41: the reply is the byte, and the write lands in DATA alone. -/
theorem dataIsReadAndWrittenByTheHost : Obligations.DataIsReadAndWrittenByTheHost := by
  intro s i v
  refine ⟨reply_answers _ s, fun hb hi => ⟨_, exec_wrdata_free v hb hi, ?_, fun a ha => ?_, rfl, rfl, rfl, rfl,
    rfl, fun _ => rfl, fun _ => rfl, fun _ => rfl, fun _ => rfl, ⟨rfl, rfl⟩, ⟨rfl, rfl, rfl⟩, ⟨rfl, rfl, rfl⟩, rfl,
    rfl⟩⟩
  · rw [State.dataAt_setData, if_pos rfl, BitVec.toNat_setWidth]
  · rw [State.dataAt_setData, if_neg ha]

/-- Settles O42, by the three cases of the index; the write to OUT answers the state itself. -/
theorem outIsReadOnlyInTheValidRange : Obligations.OutIsReadOnlyInTheValidRange := by
  intro s i v
  refine ⟨?_, rfl⟩
  rw [exec, execRdout]
  split
  · exact reply_answers _ s
  · split
    · exact reply_answers _ s
    · exact ⟨_, rfl, replyFree_sameBlock s, rfl, rfl⟩

/-- Settles O39: the write lock drops each write, and no read passes through it. -/
theorem writesAreDroppedWhileBusy : Obligations.WritesAreDroppedWhileBusy := by
  intro s i v u hb
  obtain ⟨⟨t, hexec, -, -, hread⟩, -⟩ := outIsReadOnlyInTheValidRange s i v
  exact ⟨write_dropped _ hb, write_dropped _ hb, write_dropped _ hb, write_dropped _ hb, rfl, ⟨_, rfl, rfl⟩,
    ⟨_, rfl, rfl⟩, ⟨_, rfl, rfl⟩, t, _, hexec, hread⟩

end Sys2Proof.Machine
end

section
/-!
SUPPORT. The entry into phase ERROR (R166) under each effect of a step: there is no other way into it than `raise`.
-/

namespace Sys2Proof.Machine

/-- START ends in ERROR only where it raises Capacity (R143). -/
theorem startRun_enters_error {s : State} (h : (startRun s).phase = .error) : raised .capacity s (startRun s) := by
  rcases startRun_cases s with ⟨-, he⟩ | ⟨-, -, he⟩ <;> rw [he] at h ⊢
  · exact raise_raised .capacity { s with err := .none, ocnt := 0 }
  · cases h

/-- A host operation enters ERROR only as START (R142, R143). -/
theorem HostEffect.enters_error {s t : State} (h : HostEffect s t) (hs : s.phase ≠ .error) (ht : t.phase = .error) :
    raised .capacity s t := by
  cases h with
  | answer | entry | byte => exact absurd ht hs
  | start => exact startRun_enters_error ht
  | register i v =>
    rcases regWrite_cases i v s with he | he | he | he | he | he <;> rw [he] at ht ⊢
    case inr.inl => exact startRun_enters_error ht
    all_goals exact absurd ht hs

/-- `Complete` enters ERROR only where `Finish` or `Dispatch` raises (R97, R99). -/
theorem complete_enters_error {s : State} (hs : s.phase ≠ .error) (ht : (complete s).phase = .error) :
    ∃ e, e ≠ .none ∧ raised e s (complete s) := by
  rcases complete_cases s with ⟨m, -, -, -, h⟩ | ⟨e, he, h⟩ | ⟨-, -, h | h⟩ <;> rw [h] at ht ⊢
  · exact absurd ht hs
  · exact ⟨e, he, raise_raised e s⟩
  · cases ht
  · cases ht

/-- An engine turn enters ERROR only where it raises an error (R97, R111, R117, R132). -/
theorem EngineEffect.enters_error {s t : State} (h : EngineEffect s t) (hs : s.phase ≠ .error)
    (ht : t.phase = .error) : ∃ e, e ≠ .none ∧ raised e s t := by
  cases h with
  | error e he => exact ⟨e, he, raise_raised e s⟩
  | completes => exact complete_enters_error hs ht
  | opens k sym =>
    obtain ⟨m, f, he⟩ := open_eq k sym s
    rw [he] at ht
    exact absurd ht hs
  | ends => cases ht
  | moves | emits | copies | holds => exact absurd ht hs

/-- Every step that enters ERROR raises an error; RESET enters IDLE (R166, R190). -/
theorem step_enters_error {s t : State} (h : step s = .next t) (hs : s.phase ≠ .error) (ht : t.phase = .error) :
    ∃ e, e ≠ .none ∧ raised e s.rest t := by
  rcases step_effect h with h | ⟨-, rfl⟩ | h
  · exact ⟨.capacity, by decide, h.enters_error hs ht⟩
  · cases ht
  · exact h.enters_error hs ht

end Sys2Proof.Machine
end

section
/-!
The statements of 60_exceptions.md.
-/

namespace Sys2Proof.Machine

/-- Settles O22: a step enters ERROR by raising an error, which leaves the inputs and OUT. -/
theorem enteringErrorLeavesInputsAndOutput : Obligations.EnteringErrorLeavesInputsAndOutput := by
  intro s t hstep hs ht
  obtain ⟨e, he, -, herr, hocnt, hin, hout, -⟩ := step_enters_error hstep hs ht
  exact ⟨herr ▸ he, hocnt, hin, hout⟩

end Sys2Proof.Machine
end

section
/-!
SUPPORT. What a RESET step answers, and the turns of its own that the engine takes at most until its run ends
(R198): each engine turn uses one up.
-/

namespace Sys2Proof.Machine

/-- RESET at the head of the script answers the block after RESET, with the script's head taken (R190). -/
theorem step_reset {s : State} (h : s.script.head? = some .reset) : step s = .next s.rest.resetBlock := by
  rcases fetch_cases s with ⟨w, hw, -⟩ | ⟨-, hf⟩ | ⟨hn | he, -⟩
  · simp [h] at hw
  · exact step_of_fetch_ended hf
  · simp [hn] at h
  · simp [h] at he

/-- Everything an engine turn can do is one of its effects (R97, R111, R132, R12). -/
theorem engineStep_effect {s t : State} (h : engineStep s = .next t) : EngineEffect s t := by
  cases hp : s.phase with
  | unpack =>
    rw [engineStep_unpack hp] at h
    split at h
    · injection h with h
      exact h ▸ .error .malformedTree (by decide)
    · next hl =>
      split at h
      · exact exec_entry_effect hp (Nat.not_le.mp hl) h
      · cases h
  | walk =>
    rw [engineStep_walk hp] at h
    split at h
    · injection h with h
      exact h ▸ endStream_effect hp
    · next hne =>
      split at h
      · cases hbit : s.streamBit s.bitpos <;> rw [hbit] at h
        · exact moveTo_effect (child := NodeRec.left) hne h
        · exact moveTo_effect (child := NodeRec.right) hne h
      · cases h
  | repeatLeaf =>
    simp only [engineStep, engineTurn, hp] at h
    exact repeatStep_effect hp h
  | idle | done | error =>
    have hb : s.busy = false := by simp [State.busy, hp]
    rw [engineStep, engineTurn_not_busy hb] at h
    injection h with h
    exact h ▸ .holds hb

/-! ### The turns left of a run -/

/-- The engine's turns from this point of a run to its end, at most (R198). -/
def State.turnsLeft (s : State) : Nat :=
  match s.phase with
  | .unpack => (s.treeLen.toNat - s.pos + 1) + max (s.dataLen.toNat + 1) (s.repeatReg.toNat + 1)
  | .walk => s.dataLen.toNat - s.bitpos + 1
  | .repeatLeaf => s.repeatReg.toNat - s.repcnt + 1
  | .idle | .done | .error => 0

theorem State.turnsLeft_unpack {s : State} (hp : s.phase = .unpack) :
    s.turnsLeft = (s.treeLen.toNat - s.pos + 1) + max (s.dataLen.toNat + 1) (s.repeatReg.toNat + 1) := by
  simp only [State.turnsLeft, hp]

theorem State.turnsLeft_walk {s : State} (hp : s.phase = .walk) : s.turnsLeft = s.dataLen.toNat - s.bitpos + 1 := by
  simp only [State.turnsLeft, hp]

theorem State.turnsLeft_repeat {s : State} (hp : s.phase = .repeatLeaf) :
    s.turnsLeft = s.repeatReg.toNat - s.repcnt + 1 := by
  simp only [State.turnsLeft, hp]

/-- A busy block has a turn to come. -/
theorem State.turnsLeft_pos {s : State} (hb : s.busy = true) : 0 < s.turnsLeft := by
  rcases s.busy_iff.mp hb with hp | hp | hp
  · rw [State.turnsLeft_unpack hp]; omega
  · rw [State.turnsLeft_walk hp]; omega
  · rw [State.turnsLeft_repeat hp]; omega

/-- In every phase the turns left are within the bound of R198 on the whole run. -/
theorem State.turnsLeft_le_runBound (s : State) : s.turnsLeft ≤ s.runBound := by
  unfold State.turnsLeft State.runBound
  split <;> omega

/-- One entry read uses up a turn (R98). -/
theorem State.turnsLeft_lt_of_entry {s t : State} (hp : s.phase = .unpack) (hl : s.pos < s.treeLen.toNat)
    (hin : sameInputs s t) (ht : t.phase = .unpack) (hpos : t.pos = s.pos + 1) : t.turnsLeft < s.turnsLeft := by
  obtain ⟨-, htl, -, hdl, hr, -⟩ := hin
  rw [State.turnsLeft_unpack ht, State.turnsLeft_unpack hp, htl, hdl, hr, hpos]
  omega

/-- One bit consumed uses up a turn (R111). -/
theorem State.turnsLeft_lt_of_bit {s t : State} (hp : s.phase = .walk) (hl : s.bitpos < s.dataLen.toNat)
    (hin : sameInputs s t) (ht : t.phase = .walk) (hbit : t.bitpos = s.bitpos + 1) : t.turnsLeft < s.turnsLeft := by
  obtain ⟨-, -, -, hdl, -⟩ := hin
  rw [State.turnsLeft_walk ht, State.turnsLeft_walk hp, hdl, hbit]
  omega

/-- One copy written uses up a turn (R132). -/
theorem State.turnsLeft_lt_of_copy {s t : State} (hp : s.phase = .repeatLeaf) (hl : s.repcnt < s.repeatReg.toNat)
    (hin : sameInputs s t) (ht : t.phase = .repeatLeaf) (hcnt : t.repcnt = s.repcnt + 1) :
    t.turnsLeft < s.turnsLeft := by
  obtain ⟨-, -, -, -, hr, -⟩ := hin
  rw [State.turnsLeft_repeat ht, State.turnsLeft_repeat hp, hr, hcnt]
  omega

/-- `Complete` uses up a turn: it is one entry read, or the run is over or goes on to REPEAT or WALK (R97, R99). -/
theorem complete_turnsLeft_lt {s : State} (hp : s.phase = .unpack) (hl : s.pos < s.treeLen.toNat) :
    (complete s).turnsLeft < s.turnsLeft := by
  have hin := complete_sameInputs s
  rcases complete_cases s with ⟨m, -, -, -, h⟩ | ⟨e, -, h⟩ | ⟨-, -, h | h⟩ <;> rw [h] at hin ⊢
  · exact State.turnsLeft_lt_of_entry hp hl hin hp rfl
  · rw [State.turnsLeft_unpack hp]
    exact Nat.add_pos_left (Nat.succ_pos _) _
  · rw [State.turnsLeft_unpack hp]
    show s.repeatReg.toNat - 0 + 1 < _
    omega
  · rw [State.turnsLeft_unpack hp]
    show s.dataLen.toNat - 0 + 1 < _
    omega

/-- An engine turn of a busy block uses up a turn (R198). -/
theorem EngineEffect.turnsLeft_lt {s t : State} (h : EngineEffect s t) (hi : s.Inv) (hb : s.busy = true) :
    t.turnsLeft < s.turnsLeft := by
  have hin := h.sameInputs
  obtain ⟨-, -, -, -, -, hwalk, hrepeat⟩ := hi
  cases h with
  | error | ends => exact State.turnsLeft_pos hb
  | opens k sym hp hl =>
    obtain ⟨m, f, he⟩ := open_eq k sym s
    rw [he] at hin ⊢
    exact State.turnsLeft_lt_of_entry hp hl hin hp rfl
  | completes _ hp hl => exact complete_turnsLeft_lt hp hl
  | moves _ hp hne | emits _ hp hne =>
    obtain ⟨-, -, hle, -⟩ := hwalk hp
    exact State.turnsLeft_lt_of_bit hp (Nat.lt_of_le_of_ne hle hne) hin hp rfl
  | copies hp hne =>
    obtain ⟨-, -, hle, -⟩ := hrepeat hp
    exact State.turnsLeft_lt_of_copy hp (Nat.lt_of_le_of_ne hle hne) hin hp rfl
  | holds hf => rw [hf] at hb; cases hb

/-- No engine turn enters IDLE (R29). -/
theorem EngineEffect.phase_ne_idle {s t : State} (h : EngineEffect s t) (hs : s.phase ≠ .idle) : t.phase ≠ .idle := by
  cases h with
  | error | ends => exact nofun
  | opens k sym =>
    obtain ⟨m, f, he⟩ := open_eq k sym s
    rwa [he]
  | completes =>
    rcases complete_cases s with ⟨m, -, -, -, h⟩ | ⟨e, -, h⟩ | ⟨-, -, h | h⟩ <;> rw [h]
    · exact hs
    all_goals exact nofun
  | moves | emits | copies | holds => exact hs

/-! ### A run with turns left -/

/-- A run under way, or over, with at most `n` turns of the engine to go (R12, R198). -/
structure State.RunsWithin (n : Nat) (s : State) : Prop where
  inv : s.Inv
  begun : s.phase ≠ .idle
  turns : s.turnsLeft ≤ n

theorem State.RunsWithin.pos (n : Nat) (s : State) (h : s.RunsWithin n) (hb : s.busy = true) : 0 < n :=
  Nat.lt_of_lt_of_le (State.turnsLeft_pos hb) h.turns

/-- The engine's turn uses up one of the turns. -/
theorem State.RunsWithin.engine (n : Nat) (s : State) (h : s.RunsWithin (n + 1)) (hb : s.busy = true)
    (he : s.engineNext) : ∃ t, step s = .next t ∧ t.RunsWithin n := by
  obtain ⟨t, ht⟩ := stepNeverStopsUnderTheInvariant s h.inv
  have hrest : s.rest.Inv := h.inv.withHost s.draws s.hostRead s.script.tail
  have heffect : EngineEffect s.rest t := engineStep_effect ((step_engineNext he).symm.trans ht)
  have hlt : t.turnsLeft < s.turnsLeft := heffect.turnsLeft_lt hrest hb
  exact ⟨t, ht, heffect.inv hrest, heffect.phase_ne_idle h.begun, Nat.le_of_lt_succ (Nat.lt_of_lt_of_le hlt h.turns)⟩

/-- A host operation uses up none (R149). -/
theorem State.RunsWithin.host (n : Nat) (s : State) (w : BitVec 67) (h : s.RunsWithin n) (hb : s.busy = true)
    (hw : s.script.head? = some (.host w)) : ∃ t, step s = .next t ∧ t.RunsWithin n := by
  obtain ⟨d, r, he⟩ := exec_decodeHost_busy w.toNat (s := s.rest) hb
  exact ⟨_, (step_host hw).trans he, h.inv.withHost d r s.script.tail, h.begun, h.turns⟩

/-- A started run that is not busy is over (R12, R29). -/
theorem State.over_of_not_busy {s : State} (hs : s.phase ≠ .idle) (hb : s.busy = false) :
    s.phase = .done ∨ s.phase = .error := by
  cases hp : s.phase with
  | idle => exact absurd hp hs
  | done => exact .inl rfl
  | error => exact .inr rfl
  | unpack | walk | repeatLeaf => simp [State.busy, hp] at hb

end Sys2Proof.Machine
end

section
/-!
The statements of 70_reset_and_hazards.md.
-/

namespace Sys2Proof.Machine

/-- Settles O53, by the induction over a run with host operations in it, on the turns left. -/
theorem everyRunEnds : Obligations.EveryRunEnds := by
  intro s hi hb hs
  have hstart : s.RunsWithin s.runBound := ⟨hi, fun hp => by simp [State.busy, hp] at hb, s.turnsLeft_le_runBound⟩
  obtain ⟨k, m, t, hrun, hend, hk⟩ := runEnds_of_measure (P := State.RunsWithin) State.RunsWithin.pos
    State.RunsWithin.engine State.RunsWithin.host s.runBound s hstart hs
  have ⟨_, hover, _⟩ := hrun
  exact ⟨k, t, hrun, State.over_of_not_busy hend.begun hover, hk⟩

/-- Settles O9: the block after RESET has the values of R43 and lists no element. -/
theorem resetInputAbandonsARun : Obligations.ResetInputAbandonsARun :=
  fun _ h => ⟨_, step_reset h, rfl, rfl, rfl, rfl, rfl, rfl, rfl, rfl, rfl, rfl, rfl, rfl, rfl, rfl, rfl, rfl⟩

/-- Settles O44: the run starts at POS = 0, which is past the entries. -/
theorem startWithNothingLoadedIsMalformed : Obligations.StartWithNothingLoadedIsMalformed := by
  intro s u hb htl hdb he
  have hstart : exec (.start u) s = .next s.started := exec_start_accepted u hb (by simp [htl]) hdb
  have hpast : s.started.treeLen.toNat ≤ s.started.pos := by simp [State.started, htl]
  obtain ⟨t, ht, hp, herr, -⟩ := unpackPastTheEntriesIsMalformed s.started he rfl hpast
  refine ⟨s.started, t, hstart, rfl, ht, herr, ?_⟩
  rw [t.status_eq, hp, herr]
  rfl

end Sys2Proof.Machine
end
